-- ==== Sys2Proof/Word.lean ====
section
/-! DEFINITION. The word types of the core: the 64-bit real pattern, the 72-bit port words, and bit strings. -/

namespace Sys2Proof

/-- The spec's `Num` (R9, R70): a 64-bit pattern read as IEEE 754 binary64. -/
abbrev Num64 := BitVec 64

/-- A command word `c[71:0]` of the command port (R61). -/
abbrev CommandWord := BitVec 72

/-- A response record `r[71:0]` of the response port (R65). -/
abbrev Record := BitVec 72

/-- The opcode byte `c[71:64]` (R61). -/
abbrev OpcodeByte := BitVec 8

/-- A bit string (R8): bits in the order they are emitted or consumed, the first one at the head. -/
abbrev Bits := List Bool

end Sys2Proof
end

