-- ==== Sys2Proof/Machine/Bits.lean ====
section
/-! DEFINITION. Bit strings (R8): `bin_n`, `val`, `zeros`, and the 32-bit word that 32 bits spell. -/

namespace Sys2Proof

/-- `zeros(n)` (R8). -/
def zeros (n : Nat) : Bits := List.replicate n false

/-- `bin_n(x)` (R8): the `n` low bits of `x`, most significant bit first. -/
def bin : Nat → Nat → Bits
  | 0, _ => []
  | n + 1, x => x.testBit n :: bin n x

/-- `val(s)` (R8): the unsigned number a bit string spells, most significant bit first. -/
def val : Bits → Nat
  | [] => 0
  | b :: s => b.toNat * 2 ^ s.length + val s

/-- The 32-bit word that a string of at most 32 bits spells, its first bit in bit 31, "padded with zero on the right"
(R45, R76). -/
def leftWord (s : Bits) : BitVec 32 := BitVec.ofNat 32 (val s * 2 ^ (32 - s.length))

/-- The number of 0 bits before the first 1 bit, or the length where there is none (R75). -/
def leadingZeros : Bits → Nat
  | [] => 0
  | true :: _ => 0
  | false :: s => leadingZeros s + 1

end Sys2Proof
end

