-- ==== Sys2Proof/Config.lean ====
section
/-! DEFINITION. What the spec leaves to the implementation (R7, R29): open parameters and free values as opaque constants, and the
parameters with a default as settings that every step is given. -/

namespace Sys2Proof.Config

/-- The open part of the rounding function `fl` (R7, D9, U6): what a rational that binary64 cannot represent rounds to.
No body: nothing is known of it. `Sys2Proof.fl` makes the total, finite, exact-on-representable function from it.
OPEN parameter of the spec, log entry 6. -/
opaque flInexact : Rat → BitVec 64

/-- The draws of `NANPAT` (R7, R186, U7): the pattern behind the `n`-th draw; `Sys2Proof.nanPattern` makes it a NaN.
Free value, log entry 7. -/
opaque freeNan : Nat → BitVec 64

/-- The draws for a decoded sample outside the signed 16-bit range (R156 item 4, U1). Free value, log entry 8. -/
opaque freeSample : Nat → BitVec 16

/-- The capacity of WBUF less one (R7, D19). OPEN parameter, log entry 5. -/
opaque wbufCapLessOne : Nat

/-- WBUF_CAP (R7, R41, D19): "capacity in samples of the extractor's waveform buffer, at least 1". It has no upper bound, although
R104 says that no buffer holds 2147483648 cells: the model's choice, log entry 28. -/
def wbufCap : Nat := wbufCapLessOne + 1

/-- The settings of RND that the spec names (R7, R213): how a tie is rounded. -/
inductive Rounding where
  | halfEven
  | halfAway
  | halfUp
  deriving DecidableEq, Repr

/-- The settings of DIV2 that the spec names (R7, N6): how the clamped pair sum is halved. -/
inductive Halving where
  | floor
  | truncate
  deriving DecidableEq, Repr

/-- The parameters of R7 that have a default, which the model takes as an argument: RND (log entry 9), DIV2 (log entry 10) and
SGN0, the value of `sign(0)` in the trigger machine (log entry 11). The state that a step is given carries them, and no step
changes them. -/
structure Settings where
  rnd : Rounding
  div2 : Halving
  sgn0 : Int
  deriving DecidableEq, Repr

/-- The defaults (R7, R201, R204, R223): "default round-half-to-even", "default floor", "default 0 (three-valued sign)". -/
def Settings.defaults : Settings where
  rnd := .halfEven
  div2 := .floor
  sgn0 := 0

end Sys2Proof.Config
end

