-- ==== Sys2Proof/Syntax.lean ====
section
/-! DEFINITION. The instructions: one constructor per row of spec/opcode_table.json, 32 commands and 10 Rice codewords. -/

namespace Sys2Proof

/-- The six operand formats of R62. -/
inductive Format where
  | z | h | s | w | i | x
  deriving DecidableEq, Repr

/-- A Rice codeword as a decoder reads it (R72, R74, R77, R153). `rice q k sign r`: `q` zero bits, the stop bit, the sign bit,
the `k`-bit remainder `r`. `esc raw`: eight zero bits, the stop bit, the 16-bit raw field. -/
inductive Codeword where
  | rice (q k : Nat) (sign : Bool) (r : Nat)
  | esc (raw : BitVec 16)
  deriving DecidableEq, Repr

/-- The instructions. The commands of R63 carry their operand at its format's width (R62); the codewords of R77 carry the
fields of their pattern, with the width `k = log2(M)` of the remainder field. -/
inductive Instr where
  | nop
  | reset
  | stat
  | setpRise (v : BitVec 32)
  | setpTop (v : BitVec 32)
  | setpTau (x : Num64)
  | setpLen (v : BitVec 32)
  | setpM (v : BitVec 32)
  | setpCount (v : BitVec 32)
  | setpScale (v : BitVec 24)
  | setpThr (v : BitVec 32)
  | setpPct (x : Num64)
  | setpShift (v : BitVec 32)
  | setpMean (v : BitVec 32)
  | ckStart
  | ckPush (h : BitVec 16)
  | ckFin
  | kgTrap1
  | kgTrap2
  | reStart
  | rePush (h : BitVec 16)
  | reFlush
  | rdStart
  | rdWord (w : BitVec 32)
  | txClear
  | txLoad (x : Num64)
  | txRun1
  | txRun2
  | tfStart
  | tfPush (h : BitVec 16)
  | tdStart
  | tdPush (y : BitVec 64)
  | cwQ0 (k : Nat) (sign : Bool) (r : Nat)
  | cwQ1 (k : Nat) (sign : Bool) (r : Nat)
  | cwQ2 (k : Nat) (sign : Bool) (r : Nat)
  | cwQ3 (k : Nat) (sign : Bool) (r : Nat)
  | cwQ4 (k : Nat) (sign : Bool) (r : Nat)
  | cwQ5 (k : Nat) (sign : Bool) (r : Nat)
  | cwQ6 (k : Nat) (sign : Bool) (r : Nat)
  | cwQ7 (k : Nat) (sign : Bool) (r : Nat)
  | cwEsc (raw : BitVec 16)
  | cwQN (q k : Nat) (sign : Bool) (r : Nat)
  deriving DecidableEq, Repr

end Sys2Proof
end

