-- ==== Sys2Proof/Machine/State.lean ====
section
/-! DEFINITION. The state of the core (10_state.md), its reset value (R28), and the reasons a step can stop. -/

namespace Sys2Proof.Machine

/-- The eleven parameter registers `P[0]` to `P[10]` (R13). SHIFT and MEAN hold the two's-complement pattern of their s32. -/
structure Params where
  rise : BitVec 32
  top : BitVec 32
  tau : Num64
  len : BitVec 32
  m : BitVec 32
  count : BitVec 32
  scale : BitVec 24
  thr : BitVec 32
  pct : Num64
  shift : BitVec 32
  mean : BitVec 32
  deriving DecidableEq, Repr

/-- CK, the checksum unit (R18). The sums are unbounded. -/
structure Ck where
  active : Bool
  sum1 : Nat
  sum2 : Nat
  deriving DecidableEq, Repr

/-- RE, the Rice encoder (R20): `acc` holds the bits emitted and not yet flushed. -/
structure Re where
  active : Bool
  k : Nat
  acc : Bits
  deriving DecidableEq, Repr

/-- RD, the Rice decoder (R21): `buf` is the lookahead buffer. -/
structure Rd where
  active : Bool
  k : Nat
  remaining : Nat
  buf : Bits
  deriving DecidableEq, Repr

/-- A memory of cells by index (R41): the written cells, indices strictly rising. A cell that is not listed holds no value:
it was never written since reset (R28: contents "unspecified"). Log entry 4. -/
abbrev Memory := List (Nat × Num64)

/-- TX, the extractor (R23): the waveform buffer and its fill count. -/
structure Tx where
  wlen : Nat
  wbuf : Memory
  deriving DecidableEq, Repr

/-- The slots of a delay line, front first (R196). Its capacity is its length. -/
abbrev DelayLine := List Int

/-- TF, the trapezoidal filter (R24): latched parameters, the hold register, twelve delay lines, three accumulators. -/
structure Tf where
  active : Bool
  rise : BitVec 32
  top : BitVec 32
  tau : Rat
  sf : Rat
  holdValid : Bool
  hold : BitVec 16
  dB : DelayLine
  dC : DelayLine
  dD : DelayLine
  dF : DelayLine
  dK : DelayLine
  dL : DelayLine
  dN : DelayLine
  dQ : DelayLine
  dS : DelayLine
  dU : DelayLine
  dY : DelayLine
  dZ : DelayLine
  acc1 : Int
  acc2 : Int
  acc3 : Int
  deriving DecidableEq, Repr

/-- The four states of the trigger machine (R16, R25, R225). -/
inductive TdState where
  | idle
  | waitZeroCross
  | waitDelay
  | armed
  deriving DecidableEq, Repr

/-- TD, the trigger detector (R25). -/
structure Td where
  active : Bool
  rise : BitVec 32
  top : BitVec 32
  thr : BitVec 32
  wait : Nat
  off : Nat
  idx : Nat
  st : TdState
  prev : Int
  cross : Nat
  deriving DecidableEq, Repr

/-- The state of the core and of its two ports. `commands` holds the command words the host has presented and the core has not
yet accepted, oldest first (R43, R50); `responses` the records emitted so far, oldest first (R51); `draws` is the MODEL's own
counter of free values drawn (log entry 12). `settings` is no state of the core but the parameters RND, DIV2 and SGN0 (R7, R29),
the model's argument, which no instruction changes (log entries 9, 10, 11). ERRLOG (R16) is the only stored part of STATUS: the
rest is read from the units. -/
structure State where
  p : Params
  errlog : BitVec 8
  ck : Ck
  re : Re
  rd : Rd
  tx : Tx
  tf : Tf
  td : Td
  commands : List CommandWord
  responses : List Record
  draws : Nat
  settings : Config.Settings
  deriving DecidableEq, Repr

/-- The reasons a step stops. The spec has none that an accepted command meets (R50, R242). -/
inductive Fault where
  /-- TX.RUN1 and TX.RUN2 raise it when a cell below `TX.wlen` was never written, a state that no run from reset reaches
  (R10: `MemRead` is "defined only for `0 <= i < TX.wlen`"; R264). Safe. -/
  | unwrittenCell
  deriving DecidableEq, Repr

/-- The reasons an instruction is refused by the model. -/
inductive Refusal where
  /-- Raised by `exec` for an instruction that has no meaning yet. Safe. -/
  | notModelled (mnemonic : String)
  deriving DecidableEq, Repr

/-- What an instruction or a step answers. -/
abbrev Result := Host.Outcome State Fault Refusal

/-- The parameter registers after reset (R13, R28): all 0, except PCT, which holds 0.8. -/
def Params.reset : Params where
  rise := 0#32
  top := 0#32
  tau := 0#64
  len := 0#32
  m := 0#32
  count := 0#32
  scale := 0#24
  thr := 0#32
  pct := 0x3FE999999999999A#64
  shift := 0#32
  mean := 0#32

/-- TF after reset (R28): no job, TF_HOLD 0. Every other field is "unspecified" there; the values are log entry 1. -/
def Tf.reset : Tf where
  active := false
  rise := 0#32
  top := 0#32
  tau := 0
  sf := 0
  holdValid := false
  hold := 0#16
  dB := []
  dC := []
  dD := []
  dF := []
  dK := []
  dL := []
  dN := []
  dQ := []
  dS := []
  dU := []
  dY := []
  dZ := []
  acc1 := 0
  acc2 := 0
  acc3 := 0

/-- TD after reset (R28): no job, Idle. Every other field is "unspecified" there; the values are log entry 2. -/
def Td.reset : Td where
  active := false
  rise := 0#32
  top := 0#32
  thr := 0#32
  wait := 0
  off := 0
  idx := 0
  st := .idle
  prev := 0
  cross := 0

/-- The machine right after reset (R28, R263): no record pending, no command presented. -/
def State.reset : State where
  p := Params.reset
  errlog := 0#8
  ck := { active := false, sum1 := 0, sum2 := 0 }
  re := { active := false, k := 0, acc := [] }
  rd := { active := false, k := 0, remaining := 0, buf := [] }
  tx := { wlen := 0, wbuf := [] }
  tf := Tf.reset
  td := Td.reset
  commands := []
  responses := []
  draws := 0
  settings := Config.Settings.defaults

end Sys2Proof.Machine
end

