-- ==== Sys2Proof/Machine/Flags.lean ====
section
/-! DEFINITION. The STATUS register (R16, R67) and the error codes (R241). -/

namespace Sys2Proof.Machine

/-- The five errors (R241). -/
inductive ErrCode where
  | config
  | seq
  | illegalOpcode
  | operand
  | range
  deriving DecidableEq, Repr

/-- The code of an error (R241). -/
def ErrCode.code : ErrCode → Nat
  | .config => 1
  | .seq => 2
  | .illegalOpcode => 3
  | .operand => 4
  | .range => 5

/-- The bit of ERRLOG that an error sets (R16, R242): bit `c` for code `c`. -/
def ErrCode.bit (e : ErrCode) : BitVec 8 := 1#8 <<< e.code

/-- ERRLOG as it reads (R16): "bits 0, 6 and 7 are hardwired 0". -/
def errlogImage (log : BitVec 8) : BitVec 8 := log &&& 0x3E#8

/-- The number of a trigger state in TD_ST (R16). -/
def TdState.number : TdState → BitVec 2
  | .idle => 0
  | .waitZeroCross => 1
  | .waitDelay => 2
  | .armed => 3

/-- The STATUS image, the payload of STAT (R16, R67). -/
def statusImage (s : State) : BitVec 64 :=
  0#46 ++ s.td.st.number ++ 0#2 ++ BitVec.ofBool s.tf.holdValid ++ BitVec.ofBool s.td.active
    ++ BitVec.ofBool s.tf.active ++ BitVec.ofBool s.rd.active ++ BitVec.ofBool s.re.active
    ++ BitVec.ofBool s.ck.active ++ errlogImage s.errlog

end Sys2Proof.Machine
end

