-- ==== Sys2Proof/Machine/Operands.lean ====
section
/-! DEFINITION. How an operand or a payload is read as a number and a number written as one (R9, R62, R105). -/

namespace Sys2Proof.Machine

/-- `zext_16(c[15:0])` (R62): the reading of format H by CK.PUSH. -/
def zext16 (h : BitVec 16) : Nat := h.toNat

/-- `sext_16(c[15:0])` (R62): the reading of format H by RE.PUSH and TF.PUSH. -/
def sext16 (h : BitVec 16) : Int := h.toInt

/-- `sext_32(c[31:0])` (R62): the reading of format W by SETP.SHIFT and SETP.MEAN. -/
def sext32 (w : BitVec 32) : Int := w.toInt

/-- `sext_64(c[63:0])` (R62): the reading of format I by TD.PUSH. -/
def sext64 (y : BitVec 64) : Int := y.toInt

/-- `tc_16(v)` (R9), for `-32768 <= v <= 32767`. -/
def tc16 (v : Int) : BitVec 16 := BitVec.ofInt 16 v

/-- `tc_64(v)` (R9), for `-2^63 <= v < 2^63`. -/
def tc64 (v : Int) : BitVec 64 := BitVec.ofInt 64 v

/-- `v` has a 16-bit two's-complement pattern. -/
def fits16 (v : Int) : Bool := decide (-32768 ≤ v ∧ v ≤ 32767)

/-- `v` has a 64-bit two's-complement pattern (R202: "outside -2^63 .. 2^63 - 1"). -/
def fits64 (v : Int) : Bool := decide (-(2 : Int) ^ 63 ≤ v ∧ v ≤ (2 : Int) ^ 63 - 1)

/-- `log2(M)` of a legal Golomb parameter, and none where "M = 0 or M is not a power of two" (R71, R137, R152). -/
def golombWidth (m : BitVec 32) : Option Nat :=
  if m.toNat ≠ 0 ∧ 2 ^ m.toNat.log2 = m.toNat then some m.toNat.log2 else none

end Sys2Proof.Machine
end

