-- ==== Sys2Proof/Machine/Ops.lean ====
section
/-! DEFINITION. The named operations over ports, memory and delay lines, and the error action. -/

namespace Sys2Proof.Machine

/-! ### The response port -/

/-- The twelve response records (R66). -/
inductive Response where
  | stat (status : BitVec 64)
  | err (e : ErrCode) (opc : OpcodeByte)
  | sum (w : BitVec 32)
  | kw (weight : Num64)
  | word (w : BitVec 32)
  | samp (h : BitVec 16)
  | xvalid (valid : Bool)
  | xenergy (x : Num64)
  | xtime (x : Num64)
  | filt (y : BitVec 64)
  | trge (energy : BitVec 64)
  | trgo (offset : BitVec 64)
  deriving DecidableEq, Repr

/-- The tag byte of a record (R66). -/
def Response.tag : Response → BitVec 8
  | .stat _ => 0x02#8
  | .err _ _ => 0x0F#8
  | .sum _ => 0x22#8
  | .kw _ => 0x30#8
  | .word _ => 0x41#8
  | .samp _ => 0x51#8
  | .xvalid _ => 0x62#8
  | .xenergy _ => 0x63#8
  | .xtime _ => 0x64#8
  | .filt _ => 0x71#8
  | .trge _ => 0x81#8
  | .trgo _ => 0x82#8

/-- The payload of a record (R65, R66, R68): unused bits are 0; of an ERR, `[7:0]` the code and `[15:8]` the opcode byte. -/
def Response.payload : Response → BitVec 64
  | .stat status => status
  | .err e opc => 0#48 ++ opc ++ BitVec.ofNat 8 e.code
  | .sum w => w.setWidth 64
  | .kw weight => weight
  | .word w => w.setWidth 64
  | .samp h => h.setWidth 64
  | .xvalid valid => (BitVec.ofBool valid).setWidth 64
  | .xenergy x => x
  | .xtime x => x
  | .filt y => y
  | .trge energy => energy
  | .trgo offset => offset

/-- The 72-bit record `r[71:0]`, `TAG = r[71:64]`, `PAYLOAD = r[63:0]` (R65). -/
def Response.record (r : Response) : Record := r.tag ++ r.payload

/-- `emit` of several records in order (R10, R51): appended after all records already emitted. -/
def emitAll (rs : List Response) (s : State) : State := { s with responses := s.responses ++ rs.map Response.record }

/-- `emit TAG(v)` (R10). -/
def emit (r : Response) (s : State) : State := emitAll [r] s

/-! ### The error action -/

/-- `raise Err(e)` of the command with opcode byte `opc` (R10, R242): set the ERRLOG bit, emit the one ERR record, change
nothing else. There is no return from it: control is never transferred (R252). -/
def raise (opc : OpcodeByte) (e : ErrCode) (s : State) : State :=
  emit (.err e opc) { s with errlog := s.errlog ||| e.bit }

/-! ### The command port -/

/-- Accepting the next command the host presents (R43, R50, R55: "consumed once, when presented"), or none while the host
presents none. -/
def accept (s : State) : Option (CommandWord × State) :=
  match s.commands with
  | [] => none
  | c :: rest => some (c, { s with commands := rest })

/-- The state in which the host presents command `c` next. -/
def present (c : CommandWord) (s : State) : State := { s with commands := c :: s.commands }

/-- Reset (R263): every piece of state at its reset value. "Response records emitted before the reset are not withdrawn"; what
the host presents and the parameters of the model are no state of the core (R29), and the model's counter of free values goes
on. -/
def resetCore (s : State) : State :=
  { State.reset with commands := s.commands, responses := s.responses, draws := s.draws, settings := s.settings }

/-! ### Memory (R41, R109) -/

/-- The canonical form: indices strictly rising. -/
def Memory.wf : Memory → Bool
  | [] => true
  | [_] => true
  | a :: b :: m => decide (a.1 < b.1) && Memory.wf (b :: m)

/-- The value of cell `i`, or none where it was never written. -/
def Memory.read (m : Memory) (i : Nat) : Option Num64 :=
  match m with
  | [] => none
  | c :: m => if c.1 = i then some c.2 else Memory.read m i

/-- `WBUF[i] <- x` (R10), keeping the canonical form. -/
def Memory.write (m : Memory) (i : Nat) (x : Num64) : Memory :=
  match m with
  | [] => [(i, x)]
  | c :: m => if i < c.1 then (i, x) :: c :: m else if i = c.1 then (i, x) :: m else c :: Memory.write m i x

/-- The `n` cells from index `i` on, or none where one of them was never written. -/
def Memory.readFrom (m : Memory) : (i n : Nat) → Option (List Num64)
  | _, 0 => some []
  | i, n + 1 =>
    match Memory.read m i, Memory.readFrom m (i + 1) n with
    | some x, some xs => some (x :: xs)
    | _, _ => none

/-! ### Delay lines (R196, R197) -/

/-- `push(d, v)` (R197), "push-and-eject": the value ejected at the tail, and the line with `v` at its front. A list with no slot
is no delay line (R196); that `push` on one gives `v` itself and leaves it empty is the model's choice, log entry 26. -/
def push (d : DelayLine) (v : Int) : Int × DelayLine := (d.getLastD v, (v :: d).dropLast)

/-- A fresh line of a capacity, every slot 0 (R198, R200). -/
def freshLine (capacity : Nat) : DelayLine := List.replicate capacity 0

end Sys2Proof.Machine
end

