-- ==== Sys2Proof/Machine/Checksum.lean ====
section
/-! DEFINITION. CK, the Fletcher-32 checksum unit (R111 to R114). -/

namespace Sys2Proof.Machine

/-- The checksum word (R78, R114): `((sum2 mod 65535) << 16) | (sum1 mod 65535)`. -/
def checksumWord (sum1 sum2 : Nat) : BitVec 32 :=
  BitVec.ofNat 16 (sum2 % 65535) ++ BitVec.ofNat 16 (sum1 % 65535)

/-- CK.START (R111). -/
def execCkStart (s : State) : Result := .next { s with ck := { active := true, sum1 := 0, sum2 := 0 } }

/-- CK.PUSH (R112): `sum2` takes "the sum1 just updated". -/
def execCkPush (h : BitVec 16) (s : State) : Result :=
  if s.ck.active then
    let sum1 := s.ck.sum1 + zext16 h
    .next { s with ck := { s.ck with sum1 := sum1, sum2 := s.ck.sum2 + sum1 } }
  else .next (raise 0x21#8 .seq s)

/-- CK.FIN (R114). -/
def execCkFin (s : State) : Result :=
  if s.ck.active then
    .next (emit (.sum (checksumWord s.ck.sum1 s.ck.sum2)) { s with ck := { s.ck with active := false } })
  else .next (raise 0x22#8 .seq s)

end Sys2Proof.Machine
end

