-- ==== Sys2Proof/Machine/Num.lean ====
section
/-! DEFINITION. Real numbers on the ports (R9, R70, R106): the binary64 reading `rat`, the rounding `fl`, and NaN patterns. -/

namespace Sys2Proof

/-- The biased exponent field, bits 62:52 (R70). -/
def Num64.expField (p : Num64) : Nat := (p.extractLsb' 52 11).toNat

/-- The fraction field, bits 51:0 (R70). -/
def Num64.fracField (p : Num64) : Nat := (p.extractLsb' 0 52).toNat

/-- A pattern is finite unless its exponent field is all ones (R70, R245). -/
def Num64.isFinite (p : Num64) : Bool := p.expField != 2047

/-- A NaN: exponent field all ones and a fraction that is not zero (R70). -/
def Num64.isNan (p : Num64) : Bool := p.expField == 2047 && p.fracField != 0

/-- The significand as an integer: the value of a finite pattern is `significand * 2^(max(e,1) - 1075)` (R70). -/
def Num64.significand (p : Num64) : Nat := if p.expField = 0 then p.fracField else 2 ^ 52 + p.fracField

/-- `rat(p)` (R9, R70): the exact value of a finite pattern. -/
def rat (p : Num64) : Rat :=
  let m : Int := if p.getLsbD 63 then -(p.significand : Int) else p.significand
  let e := max p.expField 1
  if 1075 ≤ e then ((m * 2 ^ (e - 1075) : Int) : Rat) else mkRat m (2 ^ (1075 - e))

/-- The finite pattern of a rational that binary64 represents exactly (R70), and none where it represents none.
Zero is given as +0.0 (R123: "emitted as `fl(0)` = +0.0"). With `x = a / 2^d` up to sign and `L = log2 a`, the leading bit has
exponent `L - d`; the biased exponent is that plus 1023, or 0 for a subnormal. -/
def exactNum (x : Rat) : Option Num64 :=
  let a := x.num.natAbs
  let d := x.den.log2
  let e := a.log2 + 1023 - d
  let m := a * 2 ^ 1075 / 2 ^ (d + max e 1)
  if x.num = 0 then some 0#64
  else if 2 ^ d ≠ x.den then none
  else if a * 2 ^ 1075 % 2 ^ (d + max e 1) ≠ 0 then none
  else if 2046 < e then none
  else some (BitVec.ofNat 64 ((if x.num < 0 then 2 ^ 63 else 0) + e * 2 ^ 52 + m % 2 ^ 52))

/-- A finite pattern from any pattern: an all-ones exponent field loses its lowest bit. Every finite pattern is met. -/
def forceFinite (p : Num64) : Num64 := if p.isFinite then p else p &&& ~~~(1#64 <<< 52)

/-- `fl` (R7, R70, D9): "a total function from rationals to finite Num with `fl(x) = x` whenever `x` is representable",
open elsewhere. -/
def fl (x : Rat) : Num64 :=
  match exactNum x with
  | some p => p
  | none => forceFinite (Config.flInexact x)

/-- A NaN pattern from any pattern. Every NaN pattern is met. -/
def forceNan (p : Num64) : Num64 := if p.isNan then p else p ||| 0x7FF8000000000000#64

/-- The `n`-th draw of `NANPAT` (R7, R186, U7): "any value among NaN patterns". -/
def nanPattern (n : Nat) : Num64 := forceNan (Config.freeNan n)

end Sys2Proof
end

