-- ==== Sys2Proof/Machine/Extractor.lean ====
section
/-! DEFINITION. TX, the threshold-cross extractor (R171 to R186). -/

namespace Sys2Proof.Machine

/-- The two variants of the extractor (R174, R175). -/
inductive Variant where
  | single
  | double
  deriving DecidableEq, Repr

/-- The arguments of an extraction (R176). -/
structure ExtractArgs where
  rise : Nat
  top : Nat
  pct : Rat
  shift : Int
  mean : Int
  deriving DecidableEq, Repr

/-- The arguments that the parameter registers give (R176). -/
def extractArgs (p : Params) : ExtractArgs where
  rise := p.rise.toNat
  top := p.top.toNat
  pct := rat p.pct
  shift := sext32 p.shift
  mean := sext32 p.mean

/-- An index and the value there. -/
abbrev Peak := Nat × Rat

/-- The extreme of `best` and the values at `i`, `i + 1`, ...: a later value replaces it only where it is strictly better, so
that the lowest index of the extreme wins (R177, D20). -/
def extremeFrom (better : Rat → Rat → Bool) : (i : Nat) → (best : Peak) → List Rat → Peak
  | _, best, [] => best
  | i, best, x :: xs => extremeFrom better (i + 1) (if better x best.2 then (i, x) else best) xs

/-- `(maxLoc, maxVal)` and `(minLoc, minVal)` (R177); none where the waveform is empty. -/
def extremes : List Rat → Option (Peak × Peak)
  | [] => none
  | x :: xs => some (extremeFrom (fun a b => decide (b < a)) 1 (0, x) xs, extremeFrom (fun a b => decide (a < b)) 1 (0, x) xs)

/-- `neg` (R178): whether the search pivots on the minimum. -/
def negativeGoing (v : Variant) (mx mn : Peak) : Bool :=
  match v with
  | .single => decide (|mx.2| < |mn.2|)
  | .double => decide (mx.1 < mn.1)

/-- The left cross (R180), searched backward from the pair that ends at index `b`, over at most `window` pairs. A pivot that stands
exactly at the threshold brackets, also at a peak of zero: the model's choice between R180 and R174's corner case, log entry 27. -/
def leftCross (u : Nat → Rat) (t : Rat) : (b window : Nat) → Option Nat
  | 0, _ => none
  | a + 1, window =>
    if window = 0 then none
    else if u a < t ∧ t ≤ u (a + 1) then some (a + 1)
    else leftCross u t a (window - 1)

/-- The right cross (R181), searched forward from the pair that begins at index `a`, over at most `window` of the `pairs` pairs
that the buffer holds from there on. A pivot exactly at the threshold brackets, as in `leftCross`: log entry 27. -/
def rightCross (u : Nat → Rat) (t : Rat) : (pairs a window : Nat) → Option Nat
  | 0, _, _ => none
  | pairs + 1, a, window =>
    if window = 0 then none
    else if t ≤ u a ∧ u (a + 1) < t then some a
    else rightCross u t pairs (a + 1) (window - 1)

/-- The readout window `(lo, hi)` (R184) around `i0 = floor(mid) + shift`. -/
def readoutWindow (i0 mean : Int) : Int × Int :=
  if mean = 0 then (i0, i0) else if 0 < mean then (i0, i0 + mean - 1) else (i0 + mean + 1, i0)

/-- The energy of a readout window (R184, R186): none outside the buffer, the stored pattern of a single cell, else the rounded
mean. No window is too long for a buffer of any capacity, the one of 2147483648 cells of R104 included: log entry 28. -/
def readout (cells : List Num64) (lo hi : Int) : Option Num64 :=
  if lo < 0 ∨ (cells.length : Int) - 1 < hi then none
  else if lo = hi then some (cells.getD lo.toNat 0#64)
  else some (fl ((((cells.drop lo.toNat).take (hi - lo + 1).toNat).map rat).sum / ((hi - lo + 1 : Int) : Rat)))

/-- The timestamp (R183) for `mid = midTwice / 2`. -/
def timestamp (v : Variant) (midTwice rise top : Nat) : Rat :=
  match v with
  | .single => (midTwice : Rat) / 2 - (top : Rat) / 2 - rise
  | .double => (midTwice : Rat) / 2 - 7 * (top : Rat) / 4 - 2 * rise

/-- `Extract(variant)` after its parameter check (R177 to R185): the energy pattern and the timestamp, or none where a step
fails. -/
def extract (v : Variant) (a : ExtractArgs) (cells : List Num64) : Option (Num64 × Rat) :=
  match extremes (cells.map rat) with
  | none => none
  | some (mx, mn) =>
    let neg := negativeGoing v mx mn
    let pivot := if neg then mn else mx
    let d : Rat := if neg then -1 else 1
    let t := d * rat (fl (pivot.2 * a.pct))
    let u := fun i => d * (cells.map rat).getD i 0
    match leftCross u t pivot.1 (a.rise + a.top),
      rightCross u t (cells.length - 1 - pivot.1) pivot.1 (a.rise + a.top) with
    | some left, some right =>
      let window := readoutWindow (((left + right) / 2 : Nat) + a.shift) a.mean
      (readout cells window.1 window.2).map fun e => (e, timestamp v (left + right) a.rise a.top)
    | _, _ => none

/-- Result emission (R186): the three records; of an invalid result two draws of NANPAT. -/
def emitExtraction (r : Option (Num64 × Rat)) (s : State) : State :=
  match r with
  | some (energy, ts) => emitAll [.xvalid true, .xenergy energy, .xtime (fl ts)] s
  | none =>
    emitAll [.xvalid false, .xenergy (nanPattern s.draws), .xtime (nanPattern (s.draws + 1))]
      { s with draws := s.draws + 2 }

/-- A run command (R174, R175, R185): ConfigError where `pct <= 0` or `pct >= 1` (R176), else the extraction's result. -/
def runExtract (opc : OpcodeByte) (v : Variant) (s : State) : Result :=
  let a := extractArgs s.p
  if a.pct ≤ 0 ∨ 1 ≤ a.pct then .next (raise opc .config s)
  else
    match Memory.readFrom s.tx.wbuf 0 s.tx.wlen with
    | none => .fault .unwrittenCell
    | some cells => .next (emitExtraction (extract v a cells) s)

/-- TX.CLEAR (R172): the fill count only; "cell contents are not erased". -/
def execTxClear (s : State) : Result := .next { s with tx := { s.tx with wlen := 0 } }

/-- TX.LOAD (R173): OperandError, then RangeError in a full buffer, then the store at the fill count. -/
def execTxLoad (x : Num64) (s : State) : Result :=
  if Num64.isFinite x then
    if Config.wbufCap ≤ s.tx.wlen then .next (raise 0x61#8 .range s)
    else .next { s with tx := { wlen := s.tx.wlen + 1, wbuf := Memory.write s.tx.wbuf s.tx.wlen x } }
  else .next (raise 0x61#8 .operand s)

/-- TX.RUN1 (R174), the single-trapezoid and cusp variant. -/
def execTxRun1 (s : State) : Result := runExtract 0x62#8 .single s

/-- TX.RUN2 (R175), the double-trapezoid variant. -/
def execTxRun2 (s : State) : Result := runExtract 0x63#8 .double s

end Sys2Proof.Machine
end

