-- ==== Sys2Proof/Machine/Filter.lean ====
section
/-! DEFINITION. TF, the decimator and the streaming trapezoidal filter (R196 to R205). -/

namespace Sys2Proof.Machine

/-- The halving of the clamped pair sum (R201) under a setting of DIV2. -/
def halve (m : Config.Halving) (x : Int) : Int :=
  match m with
  | .floor => x.fdiv 2
  | .truncate => x.tdiv 2

/-- The clamp to `[-16384, 16382]` (R6, R201). -/
def clampSum (sm : Int) : Int := if sm < -16384 then -16384 else if 16382 < sm then 16382 else sm

/-- `decimate(a, b)` (R201): the exact sum, clamped, halved as DIV2 says. -/
def decimate (div2 : Config.Halving) (a b : Int) : Int := halve div2 (clampSum (a + b))

/-- `round(x)` (R204): the nearest integer, a tie going as RND says. -/
def roundWith (m : Config.Rounding) (x : Rat) : Int :=
  let f := x.floor
  let up : Bool :=
    match m with
    | .halfEven => f % 2 != 0
    | .halfAway => decide (0 < x)
    | .halfUp => true
  if x - f < 1 / 2 then f else if 1 / 2 < x - f then f + 1 else if up then f + 1 else f

/-- One pipeline step, `step(val)` (R203), line by line: the filtered sample and the state after it. -/
def filterStep (rnd : Config.Rounding) (v : Int) (tf : Tf) : Int × Tf :=
  let (b, dB) := push tf.dB v
  let (c, dC) := push tf.dC b
  let (d, dD) := push tf.dD c
  let (f, dF) := push tf.dF (v - b - c + d)
  let acc1 := tf.acc1 + f
  let (k, dK) := push tf.dK acc1
  let (l, dL) := push tf.dL (f * tf.tau).floor
  let (n, dN) := push tf.dN (k + l)
  let acc2 := tf.acc2 + n
  let (q, dQ) := push tf.dQ acc2
  let (s, dS) := push tf.dS acc2
  let (u, dU) := push tf.dU s
  let acc3 := tf.acc3 + (q - acc2 + s - u)
  let (y, dY) := push tf.dY acc3
  let (out, dZ) := push tf.dZ (roundWith rnd (y * tf.sf))
  (out, { tf with
    dB := dB, dC := dC, dD := dD, dF := dF, dK := dK, dL := dL, dN := dN, dQ := dQ, dS := dS, dU := dU, dY := dY, dZ := dZ,
    acc1 := acc1, acc2 := acc2, acc3 := acc3 })

/-- The fresh job of R200: every slot and accumulator 0, nothing held. TF.hold keeps its value, unread while TF_HOLD is 0. -/
def freshFilter (rise top : BitVec 32) (tau sf : Rat) (hold : BitVec 16) : Tf where
  active := true
  rise := rise
  top := top
  tau := tau
  sf := sf
  holdValid := false
  hold := hold
  dB := freshLine rise.toNat
  dC := freshLine top.toNat
  dD := freshLine rise.toNat
  dF := freshLine 1
  dK := freshLine 1
  dL := freshLine 2
  dN := freshLine 1
  dQ := freshLine 1
  dS := freshLine (rise.toNat + top.toNat)
  dU := freshLine 1
  dY := freshLine 1
  dZ := freshLine 1
  acc1 := 0
  acc2 := 0
  acc3 := 0

/-- TF.START (R200). -/
def execTfStart (s : State) : Result :=
  if s.p.rise = 0 ∨ s.p.top = 0 ∨ rat s.p.tau = 0 then .next (raise 0x70#8 .config s)
  else
    .next { s with
      tf := freshFilter s.p.rise s.p.top (rat s.p.tau) (mkRat s.p.scale.toNat (2 ^ 23)) s.tf.hold }

/-- TF.PUSH (R202): the first of a pair is held; the second runs one step and emits the sample that was in `dZ.slot[0]`. -/
def execTfPush (h : BitVec 16) (s : State) : Result :=
  if s.tf.active then
    if s.tf.holdValid then
      if fits64 (s.tf.dZ.headD 0) then
        let val := decimate s.settings.div2 (sext16 s.tf.hold) (sext16 h)
        let run := filterStep s.settings.rnd val { s.tf with holdValid := false }
        .next (emit (.filt (tc64 run.1)) { s with tf := run.2 })
      else .next (raise 0x71#8 .range s)
    else .next { s with tf := { s.tf with hold := h, holdValid := true } }
  else .next (raise 0x71#8 .seq s)

end Sys2Proof.Machine
end

