-- ==== Sys2Proof/Machine/Kernel.lean ====
section
/-! DEFINITION. KG, the trapezoid kernel generator (R121 to R129). -/

namespace Sys2Proof.Machine

/-- The unscaled single-trapezoid weight `u1(n)` (R124). -/
def u1 (rise top : Nat) (tau : Rat) (n : Nat) : Rat :=
  if n < rise then n + tau
  else if n < rise + top then rise
  else if n < 2 * rise + top then rise - tau - ((n : Rat) - rise - top)
  else 0

/-- The single-trapezoid weight `s1(n) = u1(n) / (rise * tau)` (R124). -/
def s1 (rise top : Nat) (tau : Rat) (n : Nat) : Rat := u1 rise top tau n / (rise * tau)

/-- The double-trapezoid weight `d2(n)` (R127), "taking `s1` of a negative index as 0". -/
def d2 (rise top : Nat) (tau : Rat) (n : Nat) : Rat :=
  if n < 3 * rise + 2 * top then
    -s1 rise top tau n + (if n < rise + top then 0 else s1 rise top tau (n - (rise + top)))
  else 0

/-- Whether the arguments are refused (R122): a supplied length below the minimum, `rise = 0`, `tau = 0`. -/
def kernelRefused (minLen rise length : Nat) (tau : Rat) : Bool :=
  decide (length ≠ 0 ∧ length < minLen) || rise == 0 || tau == 0

/-- The KW records of a kernel (R123, R126): as many as supplied, or else the minimum, in index order, each weight rounded
once (R129). -/
def kernelRecords (minLen length : Nat) (weight : Nat → Rat) : List Response :=
  (List.range (if length ≠ 0 then length else minLen)).map fun n => .kw (fl (weight n))

/-- A kernel command: ConfigError by R122, or the KW records. -/
def runKernel (opc : OpcodeByte) (minLen : Nat) (weight : Nat → Rat) (s : State) : Result :=
  if kernelRefused minLen s.p.rise.toNat s.p.len.toNat (rat s.p.tau) then .next (raise opc .config s)
  else .next (emitAll (kernelRecords minLen s.p.len.toNat weight) s)

/-- KG.TRAP1 (R123). -/
def execKgTrap1 (s : State) : Result :=
  let rise := s.p.rise.toNat
  let top := s.p.top.toNat
  runKernel 0x30#8 (2 * rise + top) (s1 rise top (rat s.p.tau)) s

/-- KG.TRAP2 (R126). -/
def execKgTrap2 (s : State) : Result :=
  let rise := s.p.rise.toNat
  let top := s.p.top.toNat
  runKernel 0x31#8 (4 * rise + 2 * top) (d2 rise top (rat s.p.tau)) s

end Sys2Proof.Machine
end

