-- ==== Sys2Proof/Machine/ParamRegs.lean ====
section
/-! DEFINITION. The parameter writes SETP.* (R94 to R104). -/

namespace Sys2Proof.Machine

/-- A Num operand of format X (R62, R245): "a pattern that is a NaN or an infinity raises OperandError". -/
def withFinite (opc : OpcodeByte) (x : Num64) (s : State) (next : State) : Result :=
  if Num64.isFinite x then .next next else .next (raise opc .operand s)

/-- SETP.RISE (R94). -/
def execSetpRise (v : BitVec 32) (s : State) : Result := .next { s with p := { s.p with rise := v } }

/-- SETP.TOP (R95). -/
def execSetpTop (v : BitVec 32) (s : State) : Result := .next { s with p := { s.p with top := v } }

/-- SETP.TAU (R96). -/
def execSetpTau (x : Num64) (s : State) : Result := withFinite 0x12#8 x s { s with p := { s.p with tau := x } }

/-- SETP.LEN (R97). -/
def execSetpLen (v : BitVec 32) (s : State) : Result := .next { s with p := { s.p with len := v } }

/-- SETP.M (R98). -/
def execSetpM (v : BitVec 32) (s : State) : Result := .next { s with p := { s.p with m := v } }

/-- SETP.COUNT (R99). -/
def execSetpCount (v : BitVec 32) (s : State) : Result := .next { s with p := { s.p with count := v } }

/-- SETP.SCALE (R100). -/
def execSetpScale (v : BitVec 24) (s : State) : Result := .next { s with p := { s.p with scale := v } }

/-- SETP.THR (R101). -/
def execSetpThr (v : BitVec 32) (s : State) : Result := .next { s with p := { s.p with thr := v } }

/-- SETP.PCT (R102). -/
def execSetpPct (x : Num64) (s : State) : Result := withFinite 0x18#8 x s { s with p := { s.p with pct := x } }

/-- SETP.SHIFT (R103). -/
def execSetpShift (v : BitVec 32) (s : State) : Result := .next { s with p := { s.p with shift := v } }

/-- SETP.MEAN (R104). -/
def execSetpMean (v : BitVec 32) (s : State) : Result := .next { s with p := { s.p with mean := v } }

end Sys2Proof.Machine
end

