-- ==== Sys2Proof/WellFormed.lean ====
section
/-! DEFINITION. Which instructions the encodings admit: finite Num operands (R62, R245) and codeword fields in range (R71 to R77). -/

namespace Sys2Proof

/-- The fields of a codeword with remainder width `k` (R71, R72): `0 <= k <= 31` and `r < 2^k`. -/
def remainderOk (k r : Nat) : Bool := decide (k ≤ 31) && decide (r < 2 ^ k)

/-- A well-formed codeword: fields in range, and a count of 8 is always the escape (R75, R153). -/
def Codeword.wellFormed : Codeword → Bool
  | .rice q k _ r => remainderOk k r && q != 8
  | .esc _ => true

/-- A well-formed instruction. -/
def Instr.wellFormed : Instr → Bool
  | .nop | .reset | .stat => true
  | .setpRise _ | .setpTop _ | .setpLen _ | .setpM _ | .setpCount _ | .setpThr _ | .setpShift _ | .setpMean _ => true
  | .setpScale _ => true
  | .setpTau x | .setpPct x | .txLoad x => x.isFinite
  | .ckStart | .ckPush _ | .ckFin => true
  | .kgTrap1 | .kgTrap2 => true
  | .reStart | .rePush _ | .reFlush => true
  | .rdStart | .rdWord _ => true
  | .txClear | .txRun1 | .txRun2 => true
  | .tfStart | .tfPush _ => true
  | .tdStart | .tdPush _ => true
  | .cwQ0 k _ r | .cwQ1 k _ r | .cwQ2 k _ r | .cwQ3 k _ r => remainderOk k r
  | .cwQ4 k _ r | .cwQ5 k _ r | .cwQ6 k _ r | .cwQ7 k _ r => remainderOk k r
  | .cwEsc _ => true
  | .cwQN q k _ r => decide (8 < q) && remainderOk k r

end Sys2Proof
end

