-- ==== Sys2Proof/Decode.lean ====
section
/-! DEFINITION. The decoder of command words (R61 to R64, R245), the reader of Rice codewords (R75, R77, R153), and after them
the encoder of both. -/

namespace Sys2Proof

/-! ### Command words -/

/-- What the command decoder answers: an instruction, or one of the two refusals of R246 items 1 and 2, with the opcode byte. -/
inductive Decoded where
  | instr (i : Instr)
  | illegalOpcode (opc : OpcodeByte)
  | operandError (opc : OpcodeByte)
  deriving DecidableEq, Repr

/-- `OPC = c[71:64]` (R61). -/
def opcodeOf (c : CommandWord) : OpcodeByte := c.extractLsb' 64 8

/-- `OPERAND = c[63:0]` (R61). -/
def operandOf (c : CommandWord) : BitVec 64 := c.extractLsb' 0 64

/-- How many low bits of OPERAND a format uses (R62). -/
def Format.usedBits : Format → Nat
  | .z => 0
  | .h => 16
  | .s => 24
  | .w => 32
  | .i => 64
  | .x => 64

/-- "In every format the bits of OPERAND not listed as used must be zero" (R62). -/
def Format.reservedZero (f : Format) (op : BitVec 64) : Bool := decide (op.toNat < 2 ^ f.usedBits)

/-- The instruction if the reserved operand bits are zero, else OperandError (R62, R245). -/
def withFormat (f : Format) (opc : OpcodeByte) (op : BitVec 64) (i : Instr) : Decoded :=
  if f.reservedZero op then .instr i else .operandError opc

/-- The decoder of command words: the opcode map of R63. -/
def decodeCommand (c : CommandWord) : Decoded :=
  let opc := opcodeOf c
  let op := operandOf c
  match opc.toNat with
  | 0x00 => withFormat .z opc op .nop
  | 0x01 => withFormat .z opc op .reset
  | 0x02 => withFormat .z opc op .stat
  | 0x10 => withFormat .w opc op (.setpRise (op.setWidth 32))
  | 0x11 => withFormat .w opc op (.setpTop (op.setWidth 32))
  | 0x12 => withFormat .x opc op (.setpTau op)
  | 0x13 => withFormat .w opc op (.setpLen (op.setWidth 32))
  | 0x14 => withFormat .w opc op (.setpM (op.setWidth 32))
  | 0x15 => withFormat .w opc op (.setpCount (op.setWidth 32))
  | 0x16 => withFormat .s opc op (.setpScale (op.setWidth 24))
  | 0x17 => withFormat .w opc op (.setpThr (op.setWidth 32))
  | 0x18 => withFormat .x opc op (.setpPct op)
  | 0x19 => withFormat .w opc op (.setpShift (op.setWidth 32))
  | 0x1A => withFormat .w opc op (.setpMean (op.setWidth 32))
  | 0x20 => withFormat .z opc op .ckStart
  | 0x21 => withFormat .h opc op (.ckPush (op.setWidth 16))
  | 0x22 => withFormat .z opc op .ckFin
  | 0x30 => withFormat .z opc op .kgTrap1
  | 0x31 => withFormat .z opc op .kgTrap2
  | 0x40 => withFormat .z opc op .reStart
  | 0x41 => withFormat .h opc op (.rePush (op.setWidth 16))
  | 0x42 => withFormat .z opc op .reFlush
  | 0x50 => withFormat .z opc op .rdStart
  | 0x51 => withFormat .w opc op (.rdWord (op.setWidth 32))
  | 0x60 => withFormat .z opc op .txClear
  | 0x61 => withFormat .x opc op (.txLoad op)
  | 0x62 => withFormat .z opc op .txRun1
  | 0x63 => withFormat .z opc op .txRun2
  | 0x70 => withFormat .z opc op .tfStart
  | 0x71 => withFormat .h opc op (.tfPush (op.setWidth 16))
  | 0x80 => withFormat .z opc op .tdStart
  | 0x81 => withFormat .i opc op (.tdPush op)
  | _ => .illegalOpcode opc

/-! ### Rice codewords -/

/-- Reading the codeword at the front of a bit string (R75, R153): the codeword and the bits after it, or none where the
codeword is incomplete. -/
def readCodeword (k : Nat) (buf : Bits) : Option (Codeword × Bits) :=
  let q := leadingZeros buf
  match buf.drop q with
  | [] => none
  | _ :: body =>
    if q = 8 then
      if body.length < 16 then none else some (.esc (BitVec.ofNat 16 (val (body.take 16))), body.drop 16)
    else
      match body with
      | [] => none
      | sign :: field =>
        if field.length < k then none else some (.rice q k sign (val (field.take k)), field.drop k)

/-- The instruction of the opcode table that a codeword is (R77). -/
def Codeword.toInstr : Codeword → Instr
  | .esc raw => .cwEsc raw
  | .rice q k sign r =>
    match q with
    | 0 => .cwQ0 k sign r
    | 1 => .cwQ1 k sign r
    | 2 => .cwQ2 k sign r
    | 3 => .cwQ3 k sign r
    | 4 => .cwQ4 k sign r
    | 5 => .cwQ5 k sign r
    | 6 => .cwQ6 k sign r
    | 7 => .cwQ7 k sign r
    | n + 8 => .cwQN (n + 8) k sign r

/-- The instruction at the front of the compressed stream, for a remainder width `k` (R75, R77). -/
def decodeStream (k : Nat) (buf : Bits) : Option Instr := (readCodeword k buf).map fun cw => cw.1.toInstr

/-- The `k` for which a string of `n` bits is exactly one codeword: what its prefix, stop bit and sign bit leave (R75). -/
def widthOf (buf : Bits) : Nat := buf.length - (leadingZeros buf + 2)

/-- The bits of a codeword row, most significant first. The escape, the one codeword of a fixed length, has 25 bits, which the
table's numbering in whole bytes makes 32: then the seven bits above its own are no part of it. Log entry 3. -/
def rowBits (nbits w : Nat) : Bits := if nbits = 32 ∧ w / 2 ^ 16 = 1 then bin 25 w else bin nbits w

/-- The instruction of a table word. A command row has 72 bits: the command word itself. A codeword row has fewer: its bits are
one codeword of the stream, read with the remainder width that fills them; a width above 31 is none (R71). Log entry 3. -/
def decodeTableWord (nbits w : Nat) : Option Instr :=
  if 72 ≤ nbits then
    match decodeCommand (BitVec.ofNat 72 w) with
    | .instr i => some i
    | _ => none
  else
    let buf := rowBits nbits w
    if leadingZeros buf ≠ 8 ∧ 31 < widthOf buf then none else decodeStream (widthOf buf) buf

/-! ### The encoder -/

/-- How an instruction is written: a word of the command port or a bit string of the compressed stream. -/
inductive Encoded where
  | command (c : CommandWord)
  | codeword (bits : Bits)
  deriving DecidableEq, Repr

/-- The command word `{opc, operand}` (R61). -/
def commandWord (opc : OpcodeByte) (op : BitVec 64) : CommandWord := opc ++ op

/-- The bit string of a codeword: `zeros(q) ++ "1" ++ bin_1(sign) ++ bin_k(r)` (R72), or
`zeros(8) ++ "1" ++ bin_16(raw)` (R74). -/
def Codeword.bits : Codeword → Bits
  | .rice q k sign r => zeros q ++ true :: sign :: bin k r
  | .esc raw => zeros 8 ++ true :: bin 16 raw.toNat

/-- The opcode byte of a command (R63); none for a codeword. -/
def Instr.opcode : Instr → Option OpcodeByte
  | .nop => some 0x00#8
  | .reset => some 0x01#8
  | .stat => some 0x02#8
  | .setpRise _ => some 0x10#8
  | .setpTop _ => some 0x11#8
  | .setpTau _ => some 0x12#8
  | .setpLen _ => some 0x13#8
  | .setpM _ => some 0x14#8
  | .setpCount _ => some 0x15#8
  | .setpScale _ => some 0x16#8
  | .setpThr _ => some 0x17#8
  | .setpPct _ => some 0x18#8
  | .setpShift _ => some 0x19#8
  | .setpMean _ => some 0x1A#8
  | .ckStart => some 0x20#8
  | .ckPush _ => some 0x21#8
  | .ckFin => some 0x22#8
  | .kgTrap1 => some 0x30#8
  | .kgTrap2 => some 0x31#8
  | .reStart => some 0x40#8
  | .rePush _ => some 0x41#8
  | .reFlush => some 0x42#8
  | .rdStart => some 0x50#8
  | .rdWord _ => some 0x51#8
  | .txClear => some 0x60#8
  | .txLoad _ => some 0x61#8
  | .txRun1 => some 0x62#8
  | .txRun2 => some 0x63#8
  | .tfStart => some 0x70#8
  | .tfPush _ => some 0x71#8
  | .tdStart => some 0x80#8
  | .tdPush _ => some 0x81#8
  | .cwQ0 _ _ _ | .cwQ1 _ _ _ | .cwQ2 _ _ _ | .cwQ3 _ _ _ => none
  | .cwQ4 _ _ _ | .cwQ5 _ _ _ | .cwQ6 _ _ _ | .cwQ7 _ _ _ => none
  | .cwEsc _ | .cwQN _ _ _ _ => none

/-- The words of an instruction, from R62 and R63 for a command and from R72 to R77 for a codeword. -/
def encode : Instr → Encoded
  | .nop => .command (commandWord 0x00#8 0#64)
  | .reset => .command (commandWord 0x01#8 0#64)
  | .stat => .command (commandWord 0x02#8 0#64)
  | .setpRise v => .command (commandWord 0x10#8 (v.setWidth 64))
  | .setpTop v => .command (commandWord 0x11#8 (v.setWidth 64))
  | .setpTau x => .command (commandWord 0x12#8 x)
  | .setpLen v => .command (commandWord 0x13#8 (v.setWidth 64))
  | .setpM v => .command (commandWord 0x14#8 (v.setWidth 64))
  | .setpCount v => .command (commandWord 0x15#8 (v.setWidth 64))
  | .setpScale v => .command (commandWord 0x16#8 (v.setWidth 64))
  | .setpThr v => .command (commandWord 0x17#8 (v.setWidth 64))
  | .setpPct x => .command (commandWord 0x18#8 x)
  | .setpShift v => .command (commandWord 0x19#8 (v.setWidth 64))
  | .setpMean v => .command (commandWord 0x1A#8 (v.setWidth 64))
  | .ckStart => .command (commandWord 0x20#8 0#64)
  | .ckPush h => .command (commandWord 0x21#8 (h.setWidth 64))
  | .ckFin => .command (commandWord 0x22#8 0#64)
  | .kgTrap1 => .command (commandWord 0x30#8 0#64)
  | .kgTrap2 => .command (commandWord 0x31#8 0#64)
  | .reStart => .command (commandWord 0x40#8 0#64)
  | .rePush h => .command (commandWord 0x41#8 (h.setWidth 64))
  | .reFlush => .command (commandWord 0x42#8 0#64)
  | .rdStart => .command (commandWord 0x50#8 0#64)
  | .rdWord w => .command (commandWord 0x51#8 (w.setWidth 64))
  | .txClear => .command (commandWord 0x60#8 0#64)
  | .txLoad x => .command (commandWord 0x61#8 x)
  | .txRun1 => .command (commandWord 0x62#8 0#64)
  | .txRun2 => .command (commandWord 0x63#8 0#64)
  | .tfStart => .command (commandWord 0x70#8 0#64)
  | .tfPush h => .command (commandWord 0x71#8 (h.setWidth 64))
  | .tdStart => .command (commandWord 0x80#8 0#64)
  | .tdPush y => .command (commandWord 0x81#8 y)
  | .cwQ0 k sign r => .codeword (Codeword.bits (.rice 0 k sign r))
  | .cwQ1 k sign r => .codeword (Codeword.bits (.rice 1 k sign r))
  | .cwQ2 k sign r => .codeword (Codeword.bits (.rice 2 k sign r))
  | .cwQ3 k sign r => .codeword (Codeword.bits (.rice 3 k sign r))
  | .cwQ4 k sign r => .codeword (Codeword.bits (.rice 4 k sign r))
  | .cwQ5 k sign r => .codeword (Codeword.bits (.rice 5 k sign r))
  | .cwQ6 k sign r => .codeword (Codeword.bits (.rice 6 k sign r))
  | .cwQ7 k sign r => .codeword (Codeword.bits (.rice 7 k sign r))
  | .cwEsc raw => .codeword (Codeword.bits (.esc raw))
  | .cwQN q k sign r => .codeword (Codeword.bits (.rice q k sign r))

end Sys2Proof
end

