-- ==== Sys2Proof/Machine/RiceDecoder.lean ====
section
/-! DEFINITION. RD, the Rice decoder (R151 to R156), and the meanings of the ten Rice codewords (R77). -/

namespace Sys2Proof.Machine

/-- The value of a codeword (R77, R153): of an escape, "value `> 16383` ⇒ subtract `32768`"; otherwise
`(q << k) + r`, negated if the sign bit is 1. -/
def valueOf : Codeword → Int
  | .rice q k sign r => if sign then -((q * 2 ^ k + r : Nat) : Int) else ((q * 2 ^ k + r : Nat) : Int)
  | .esc raw => if 16383 < raw.toNat then (raw.toNat : Int) - 32768 else raw.toNat

/-- The length of a codeword in bits (R72, R74, R75). -/
def lengthOf : Codeword → Nat
  | .rice q k _ _ => q + 2 + k
  | .esc _ => 25

/-- `emit SAMP(out16(v))` (R155, R156 item 4): `tc_16(v)` where it exists, else a free 16-bit pattern (U1). -/
def emitSample (v : Int) (s : State) : State :=
  if fits16 v then emit (.samp (tc16 v)) s
  else emit (.samp (Config.freeSample s.draws)) { s with draws := s.draws + 1 }

/-- The end of a decode job (R155): "if RD.remaining = 0: RD.buf <- empty; RD.active <- 0". -/
def closeIfDone (s : State) : State :=
  if s.rd.remaining = 0 then { s with rd := { s.rd with buf := [], active := false } } else s

/-- The decoder taking one codeword off the front of the lookahead buffer (one pass of the loop of R155): its sample is
emitted, its bits are dropped, one sample fewer remains, and the job ends with the last. With no sample expected nothing is read
("It never looks at bits after the last expected sample"). -/
def takeCodeword (cw : Codeword) (s : State) : State :=
  if s.rd.active ∧ 0 < s.rd.remaining then
    closeIfDone (emitSample (valueOf cw)
      { s with rd := { s.rd with buf := s.rd.buf.drop (lengthOf cw), remaining := s.rd.remaining - 1 } })
  else s

/-- `drain()` (R155), with a bound on the number of passes. -/
def drainUpTo : Nat → State → State
  | 0, s => closeIfDone s
  | n + 1, s =>
    if s.rd.remaining = 0 then closeIfDone s
    else
      match readCodeword s.rd.k s.rd.buf with
      | none => s
      | some cw => drainUpTo n (takeCodeword cw.1 s)

/-- `drain()` (R155). Every codeword takes at least one bit, so the passes are no more than the bits buffered. -/
def drain (s : State) : State := drainUpTo s.rd.buf.length s

/-- RD.START (R152). -/
def execRdStart (s : State) : Result :=
  match golombWidth s.p.m with
  | none => .next (raise 0x50#8 .config s)
  | some k =>
    .next { s with rd := { active := s.p.count != 0, k := k, remaining := s.p.count.toNat, buf := [] } }

/-- RD.WORD (R154): 32 bits more, "bit 31 of `w` first", then every sample they complete. -/
def execRdWord (w : BitVec 32) (s : State) : Result :=
  if s.rd.active then .next (drain { s with rd := { s.rd with buf := s.rd.buf ++ bin 32 w.toNat } })
  else .next (raise 0x51#8 .seq s)

/-! ### The codewords (R77), each read by the decoder -/

/-- CW.Q0 (R77): `(-1)^s * (0*M + r)`. -/
def execCwQ0 (k : Nat) (sign : Bool) (r : Nat) (s : State) : Result := .next (takeCodeword (.rice 0 k sign r) s)

/-- CW.Q1 (R77): `(-1)^s * (1*M + r)`. -/
def execCwQ1 (k : Nat) (sign : Bool) (r : Nat) (s : State) : Result := .next (takeCodeword (.rice 1 k sign r) s)

/-- CW.Q2 (R77): `(-1)^s * (2*M + r)`. -/
def execCwQ2 (k : Nat) (sign : Bool) (r : Nat) (s : State) : Result := .next (takeCodeword (.rice 2 k sign r) s)

/-- CW.Q3 (R77): `(-1)^s * (3*M + r)`. -/
def execCwQ3 (k : Nat) (sign : Bool) (r : Nat) (s : State) : Result := .next (takeCodeword (.rice 3 k sign r) s)

/-- CW.Q4 (R77): `(-1)^s * (4*M + r)`. -/
def execCwQ4 (k : Nat) (sign : Bool) (r : Nat) (s : State) : Result := .next (takeCodeword (.rice 4 k sign r) s)

/-- CW.Q5 (R77): `(-1)^s * (5*M + r)`. -/
def execCwQ5 (k : Nat) (sign : Bool) (r : Nat) (s : State) : Result := .next (takeCodeword (.rice 5 k sign r) s)

/-- CW.Q6 (R77): `(-1)^s * (6*M + r)`. -/
def execCwQ6 (k : Nat) (sign : Bool) (r : Nat) (s : State) : Result := .next (takeCodeword (.rice 6 k sign r) s)

/-- CW.Q7 (R77): `(-1)^s * (7*M + r)`. -/
def execCwQ7 (k : Nat) (sign : Bool) (r : Nat) (s : State) : Result := .next (takeCodeword (.rice 7 k sign r) s)

/-- CW.ESC (R77): `raw - 32768` if `raw > 16383`, else `raw`. -/
def execCwEsc (raw : BitVec 16) (s : State) : Result := .next (takeCodeword (.esc raw) s)

/-- CW.QN (R77, R156 item 1): `(-1)^s * (q*M + r)` with `q > 8`. -/
def execCwQN (q k : Nat) (sign : Bool) (r : Nat) (s : State) : Result := .next (takeCodeword (.rice q k sign r) s)

end Sys2Proof.Machine
end

