-- ==== Sys2Proof/Machine/RiceEncoder.lean ====
section
/-! DEFINITION. RE, the Rice encoder (R136 to R142). -/

namespace Sys2Proof.Machine

/-- The codeword of a sample (R72, R74, R138): an escape when `magnitude >> k` is 8 or more. -/
def codewordOf (v : Int) (k : Nat) : Codeword :=
  let magnitude := v.natAbs
  let q := magnitude / 2 ^ k
  if q < 8 then .rice q k (decide (v < 0)) (magnitude % 2 ^ k)
  else .esc (BitVec.ofInt 16 (if 0 ≤ v then v else v + 32768))

/-- `code(v, k)` (R138). -/
def code (v : Int) (k : Nat) : Bits := (codewordOf v k).bits

/-- The first `n` 32-bit words of a bit string, and the bits after them (R139, R76). -/
def cutWords : Nat → Bits → List (BitVec 32) × Bits
  | 0, bits => ([], bits)
  | n + 1, bits =>
    let tail := cutWords n (bits.drop 32)
    (leftWord (bits.take 32) :: tail.1, tail.2)

/-- `append(bits)` (R139): a word is released for every 32 bits that have accumulated. -/
def append (bits : Bits) (s : State) : State :=
  let acc := s.re.acc ++ bits
  let cut := cutWords (acc.length / 32) acc
  emitAll (cut.1.map .word) { s with re := { s.re with acc := cut.2 } }

/-- RE.START (R137). -/
def execReStart (s : State) : Result :=
  match golombWidth s.p.m with
  | none => .next (raise 0x40#8 .config s)
  | some k => .next { s with re := { active := true, k := k, acc := [] } }

/-- RE.PUSH (R140). -/
def execRePush (h : BitVec 16) (s : State) : Result :=
  if s.re.active then .next (append (code (sext16 h) s.re.k) s) else .next (raise 0x41#8 .seq s)

/-- RE.FLUSH (R142): the pending bits "left-justified (padded with zero on the right) as a final word". -/
def execReFlush (s : State) : Result :=
  if s.re.active then
    .next (emitAll (if s.re.acc = [] then [] else [.word (leftWord s.re.acc)])
      { s with re := { s.re with active := false, acc := [] } })
  else .next (raise 0x42#8 .seq s)

end Sys2Proof.Machine
end

