-- ==== Sys2Proof/Machine/System.lean ====
section
/-! DEFINITION. The system commands NOP, RESET and STAT (R91 to R93). -/

namespace Sys2Proof.Machine

/-- NOP (R91). -/
def execNop (s : State) : Result := .next s

/-- RESET (R92, R263). -/
def execReset (s : State) : Result := .next (resetCore s)

/-- STAT (R93): `emit STAT(STATUS)`. -/
def execStat (s : State) : Result := .next (emit (.stat (statusImage s)) s)

end Sys2Proof.Machine
end

