-- ==== Sys2Proof/Machine/Trigger.lean ====
section
/-! DEFINITION. TD, the trigger-arming state machine (R221 to R229). -/

namespace Sys2Proof.Machine

/-- `sign(x)` (R223), `sign(0)` being what SGN0 says. -/
def signOf (sgn0 x : Int) : Int := if 0 < x then 1 else if x < 0 then -1 else sgn0

/-- `sampleOffset` (R224): `2 * (i - rise - floor(3*top/4) - top - rise)`. -/
def sampleOffset (i rise top : Nat) : Int :=
  2 * ((i : Int) - rise - ((3 * top / 4 : Nat) : Int) - top - rise)

/-- One evaluation of the machine (R224, R225): the unit with its new state and crossing, and the records of an event. -/
def evaluate (sgn0 y : Int) (td : Td) : Td × List Response :=
  match td.st with
  | .idle => if td.thr.toNat ≤ y.natAbs then ({ td with st := .waitZeroCross }, []) else (td, [])
  | .waitZeroCross =>
    if signOf sgn0 y ≠ signOf sgn0 td.prev then ({ td with cross := td.idx, st := .waitDelay }, []) else (td, [])
  | .waitDelay =>
    if (td.wait : Int) < (td.idx : Int) - td.cross then
      ({ td with st := .armed },
        [.trge (tc64 y), .trgo (tc64 (sampleOffset td.idx td.rise.toNat td.top.toNat))])
    else (td, [])
  | .armed => if y.natAbs < td.thr.toNat then ({ td with st := .idle }, []) else (td, [])

/-- One sample of the stream (R224): evaluated from index `off` on, recorded as `prev`, counted. -/
def trigger (sgn0 y : Int) (td : Td) : Td × List Response :=
  let r := if td.off ≤ td.idx then evaluate sgn0 y td else (td, [])
  ({ r.1 with prev := y, idx := td.idx + 1 }, r.2)

/-- TD.START (R222): no parameter value is refused. -/
def execTdStart (s : State) : Result :=
  let rise := s.p.rise.toNat
  let top := s.p.top.toNat
  .next { s with
    td := {
      active := true, rise := s.p.rise, top := s.p.top, thr := s.p.thr,
      wait := rise / 2 + 3 * top / 4, off := 3 * rise + 2 * top,
      idx := 0, st := .idle, prev := 0, cross := 0 } }

/-- TD.PUSH (R224). -/
def execTdPush (y : BitVec 64) (s : State) : Result :=
  if s.td.active then
    if 2 ^ 62 ≤ s.td.idx then .next (raise 0x81#8 .range s)
    else
      let r := trigger s.settings.sgn0 (sext64 y) s.td
      .next (emitAll r.2 { s with td := r.1 })
  else .next (raise 0x81#8 .seq s)

end Sys2Proof.Machine
end

