-- ==== Sys2Proof/Machine/Dispatch.lean ====
section
/-! DEFINITION. The dispatch of an instruction to its meaning, one arm per constructor. -/

namespace Sys2Proof.Machine

def exec (i : Instr) (s : State) : Host.Outcome State Fault Refusal :=
  match i with
  | .nop => Sys2Proof.Machine.execNop s
  | .reset => Sys2Proof.Machine.execReset s
  | .stat => Sys2Proof.Machine.execStat s
  | .setpRise v => Sys2Proof.Machine.execSetpRise v s
  | .setpTop v => Sys2Proof.Machine.execSetpTop v s
  | .setpTau x => Sys2Proof.Machine.execSetpTau x s
  | .setpLen v => Sys2Proof.Machine.execSetpLen v s
  | .setpM v => Sys2Proof.Machine.execSetpM v s
  | .setpCount v => Sys2Proof.Machine.execSetpCount v s
  | .setpScale v => Sys2Proof.Machine.execSetpScale v s
  | .setpThr v => Sys2Proof.Machine.execSetpThr v s
  | .setpPct x => Sys2Proof.Machine.execSetpPct x s
  | .setpShift v => Sys2Proof.Machine.execSetpShift v s
  | .setpMean v => Sys2Proof.Machine.execSetpMean v s
  | .ckStart => Sys2Proof.Machine.execCkStart s
  | .ckPush h => Sys2Proof.Machine.execCkPush h s
  | .ckFin => Sys2Proof.Machine.execCkFin s
  | .kgTrap1 => Sys2Proof.Machine.execKgTrap1 s
  | .kgTrap2 => Sys2Proof.Machine.execKgTrap2 s
  | .reStart => Sys2Proof.Machine.execReStart s
  | .rePush h => Sys2Proof.Machine.execRePush h s
  | .reFlush => Sys2Proof.Machine.execReFlush s
  | .rdStart => Sys2Proof.Machine.execRdStart s
  | .rdWord w => Sys2Proof.Machine.execRdWord w s
  | .txClear => Sys2Proof.Machine.execTxClear s
  | .txLoad x => Sys2Proof.Machine.execTxLoad x s
  | .txRun1 => Sys2Proof.Machine.execTxRun1 s
  | .txRun2 => Sys2Proof.Machine.execTxRun2 s
  | .tfStart => Sys2Proof.Machine.execTfStart s
  | .tfPush h => Sys2Proof.Machine.execTfPush h s
  | .tdStart => Sys2Proof.Machine.execTdStart s
  | .tdPush y => Sys2Proof.Machine.execTdPush y s
  | .cwQ0 k sign r => Sys2Proof.Machine.execCwQ0 k sign r s
  | .cwQ1 k sign r => Sys2Proof.Machine.execCwQ1 k sign r s
  | .cwQ2 k sign r => Sys2Proof.Machine.execCwQ2 k sign r s
  | .cwQ3 k sign r => Sys2Proof.Machine.execCwQ3 k sign r s
  | .cwQ4 k sign r => Sys2Proof.Machine.execCwQ4 k sign r s
  | .cwQ5 k sign r => Sys2Proof.Machine.execCwQ5 k sign r s
  | .cwQ6 k sign r => Sys2Proof.Machine.execCwQ6 k sign r s
  | .cwQ7 k sign r => Sys2Proof.Machine.execCwQ7 k sign r s
  | .cwEsc raw => Sys2Proof.Machine.execCwEsc raw s
  | .cwQN q k sign r => Sys2Proof.Machine.execCwQN q k sign r s

end Sys2Proof.Machine
end

