-- ==== Sys2Proof/Machine/Step.lean ====
section
/-! DEFINITION. One step of the core: it accepts the next command the host presents and executes it completely (R50). -/

namespace Sys2Proof.Machine

/-- One step (R50, R246): the next command's instruction is executed; an illegal opcode or a malformed operand takes the error
action (R244, R245). While the host presents no command the core "holds its state indefinitely" (R261, R265). -/
def step (s : State) : Host.Outcome State Fault Refusal :=
  match accept s with
  | none => .next s
  | some (c, s') =>
    match decodeCommand c with
    | .instr i => exec i s'
    | .illegalOpcode opc => .next (raise opc .illegalOpcode s')
    | .operandError opc => .next (raise opc .operand s')

/-- The state in which the next step runs the instruction of a table word (log entry 3). A command word (72 bits) is presented at
the command port. A codeword of fewer bits is placed as the decoder meets one: a decode job that expects one sample is open with
the codeword's `k`, and the RD.WORD that brings its last bits is presented, padded with zeros on the right; the bits that a longer
codeword has before its last 32 are in the lookahead buffer. -/
def State.withFetchWord (s : State) (nbits w : Nat) : State :=
  if 72 ≤ nbits then present (BitVec.ofNat 72 w) s
  else
    let buf := rowBits nbits w
    let early := buf.length - 32
    present (commandWord 0x51#8 ((leftWord (buf.drop early)).setWidth 64))
      { s with rd := { active := true, k := widthOf buf, remaining := 1, buf := buf.take early } }

end Sys2Proof.Machine
end

