-- ==== Sys2Proof/Safety.lean ====
section
/-! DEFINITION. What counts as a safe state and a safe run: the invariants the spec states of each unit, the owner of each piece
of state, and runs of several instructions. -/

namespace Sys2Proof.Machine

/-! ### Invariants -/

/-- TAU and PCT hold finite patterns (R13: "finite"; R96, R102). -/
def ParamsInv (p : Params) : Prop := Num64.isFinite p.tau = true ∧ Num64.isFinite p.pct = true

/-- ERRLOG's "bits 0, 6 and 7 are hardwired 0" (R16). -/
def ErrlogInv (log : BitVec 8) : Prop := log &&& 0xC1#8 = 0#8

/-- RE between commands (R20, R136): `k` in 0..31, at most 31 bits pending. -/
def ReInv (re : Re) : Prop := re.k ≤ 31 ∧ re.acc.length ≤ 31

/-- RD between commands (R21, R151): with a job open a sample is expected and no complete codeword is buffered; with none
nothing is. -/
def RdInv (rd : Rd) : Prop :=
  rd.k ≤ 31 ∧ rd.remaining < 2 ^ 32 ∧
    (rd.active = true → 0 < rd.remaining ∧ readCodeword rd.k rd.buf = none) ∧
    (rd.active = false → rd.remaining = 0 ∧ rd.buf = [])

/-- TX (R23, R41, R264): the memory is canonical, the fill count within the capacity, every filled cell written with a finite Num,
and no cell beyond the capacity written. -/
def TxInv (tx : Tx) : Prop :=
  Memory.wf tx.wbuf = true ∧ tx.wlen ≤ Config.wbufCap ∧
    (∀ i, i < tx.wlen → ∃ x, Memory.read tx.wbuf i = some x ∧ Num64.isFinite x = true) ∧
    (∀ i, Config.wbufCap ≤ i → Memory.read tx.wbuf i = none)

/-- TF while a job is open (R24, R199, R200): the latched parameters are legal and every line has its capacity. -/
def TfInv (tf : Tf) : Prop :=
  tf.active = true →
    0 < tf.rise.toNat ∧ 0 < tf.top.toNat ∧ tf.tau ≠ 0 ∧ 0 ≤ tf.sf ∧ tf.sf < 2 ∧
    tf.dB.length = tf.rise.toNat ∧ tf.dD.length = tf.rise.toNat ∧ tf.dC.length = tf.top.toNat ∧
    tf.dF.length = 1 ∧ tf.dK.length = 1 ∧ tf.dL.length = 2 ∧ tf.dN.length = 1 ∧ tf.dQ.length = 1 ∧
    tf.dS.length = tf.rise.toNat + tf.top.toNat ∧ tf.dU.length = 1 ∧ tf.dY.length = 1 ∧ tf.dZ.length = 1

/-- TD (R25, R222, R226, R228): with no job the machine is Idle; with one the constants are those of START, no state but Idle is
held before an index of at least `off` was evaluated, and in WaitDelay the recorded crossing is one of the samples already
evaluated, at most `wait + 1` back. -/
def TdInv (td : Td) : Prop :=
  (td.active = false → td.st = .idle) ∧
  (td.active = true →
    td.wait = td.rise.toNat / 2 + 3 * td.top.toNat / 4 ∧ td.off = 3 * td.rise.toNat + 2 * td.top.toNat ∧
    td.idx ≤ 2 ^ 62 ∧ (td.st ≠ .idle → td.off < td.idx) ∧
    (td.st = .waitDelay → td.off < td.cross ∧ td.cross < td.idx ∧ td.idx ≤ td.cross + td.wait + 1))

/-- The invariant of the whole core. -/
def Inv (s : State) : Prop :=
  ParamsInv s.p ∧ ErrlogInv s.errlog ∧ ReInv s.re ∧ RdInv s.rd ∧ TxInv s.tx ∧ TfInv s.tf ∧ TdInv s.td

/-- Every filled cell of WBUF has been written: what TX.RUN1 and TX.RUN2 need to read it (R10, R41). -/
def Filled (s : State) : Prop := ∀ i, i < s.tx.wlen → (Memory.read s.tx.wbuf i).isSome = true

/-- "ERRLOG = 0 at the end": no command was refused (R17). -/
def NoCommandRefused (s : State) : Prop := errlogImage s.errlog = 0#8

/-- Every cell of WBUF reads as before. -/
def CellsKept (s t : State) : Prop := ∀ i, Memory.read t.tx.wbuf i = Memory.read s.tx.wbuf i

/-! ### Owners -/

/-- The owners of state (R2, R56). -/
inductive Owner where
  | sys
  | param
  | ck
  | kg
  | re
  | rd
  | tx
  | tf
  | td
  deriving DecidableEq, Repr

/-- The unit of an instruction (R61, R63): a codeword is read by the decoder. -/
def owner : Instr → Owner
  | .nop | .reset | .stat => .sys
  | .setpRise _ | .setpTop _ | .setpTau _ | .setpLen _ | .setpM _ | .setpCount _ => .param
  | .setpScale _ | .setpThr _ | .setpPct _ | .setpShift _ | .setpMean _ => .param
  | .ckStart | .ckPush _ | .ckFin => .ck
  | .kgTrap1 | .kgTrap2 => .kg
  | .reStart | .rePush _ | .reFlush => .re
  | .rdStart | .rdWord _ => .rd
  | .txClear | .txLoad _ | .txRun1 | .txRun2 => .tx
  | .tfStart | .tfPush _ => .tf
  | .tdStart | .tdPush _ => .td
  | .cwQ0 _ _ _ | .cwQ1 _ _ _ | .cwQ2 _ _ _ | .cwQ3 _ _ _ | .cwQ4 _ _ _ => .rd
  | .cwQ5 _ _ _ | .cwQ6 _ _ _ | .cwQ7 _ _ _ | .cwEsc _ | .cwQN _ _ _ _ => .rd

/-! ### Records and refusals as the spec writes them -/

/-- A response record from its tag and payload: `TAG = r[71:64]`, `PAYLOAD = r[63:0]` (R65). -/
def record (tag : BitVec 8) (payload : BitVec 64) : Record := tag ++ payload

/-- The state after the error action of R242 with code `code` for the command with opcode byte `opc`: bit `code` of ERRLOG set,
one ERR record with `payload[7:0]` the code and `payload[15:8]` the opcode byte, nothing else. -/
def refuse (opc : OpcodeByte) (code : Nat) (s : State) : State :=
  { s with
    errlog := s.errlog ||| BitVec.ofNat 8 (2 ^ code),
    responses := s.responses ++ [record 0x0F#8 (BitVec.ofNat 64 (opc.toNat * 256 + code))] }

/-- The 32 legal opcode bytes (R63). -/
def legalOpcodes : List OpcodeByte :=
  [0x00, 0x01, 0x02, 0x10, 0x11, 0x12, 0x13, 0x14, 0x15, 0x16, 0x17, 0x18, 0x19, 0x1A, 0x20, 0x21, 0x22, 0x30, 0x31,
    0x40, 0x41, 0x42, 0x50, 0x51, 0x60, 0x61, 0x62, 0x63, 0x70, 0x71, 0x80, 0x81]

/-- The encoding of a command (R61 to R63) and its OperandError (R62, R245): under the opcode byte `opc` an operand within its
`used` low bits is the instruction `mk` of it, and any other operand is refused. -/
def Encodes (opc : OpcodeByte) (used : Nat) (mk : BitVec 64 → Instr) : Prop :=
  ∀ op : BitVec 64, decodeCommand (commandWord opc op) = if op.toNat < 2 ^ used then .instr (mk op) else .operandError opc

/-- Reading a codeword of value `v` and length `len` in state `s` (R77, R155, R156): the instruction completes, one SAMP is
emitted, which is `tc_16(v)` where `v` has one and any pattern otherwise, the `len` bits leave the buffer, one sample fewer
remains, and after the last the buffer is empty and the job closed. Nothing else changes, but the model's count of draws. -/
def DecodesTo (i : Instr) (v : Int) (len : Nat) (s : State) : Prop :=
  ∃ t h, exec i s = .next t ∧ (-32768 ≤ v → v ≤ 32767 → h = BitVec.ofInt 16 v) ∧ CellsKept s t ∧
    t = { s with
      responses := s.responses ++ [record 0x51#8 (h.setWidth 64)],
      draws := t.draws,
      rd := if s.rd.remaining = 1 then { active := false, k := s.rd.k, remaining := 0, buf := [] }
        else { active := true, k := s.rd.k, remaining := s.rd.remaining - 1, buf := s.rd.buf.drop len } }

/-- The number `(-1)^sign * m` (R77). -/
def signed (sign : Bool) (m : Nat) : Int := if sign then -(m : Int) else m

/-! ### The closed form of the filter (R207) -/

/-- `v[i]`, "every sequence as 0 at negative indices" (R207). -/
def sampleAt (vs : List Int) (i : Int) : Int := if i < 0 then 0 else vs.getD i.toNat 0

/-- `F[n]` (R207). -/
def closedF (r t : Int) (vs : List Int) (n : Int) : Int :=
  sampleAt vs (n - 1) - sampleAt vs (n - 1 - r) - sampleAt vs (n - 1 - (r + t)) + sampleAt vs (n - 1 - (r + t) - r)

/-- `acc1[n] = F[0] + ... + F[n]` (R207). -/
def closedAcc1 (r t : Int) (vs : List Int) (n : Int) : Int :=
  ((List.range (n + 1).toNat).map fun j => closedF r t vs j).sum

/-- `N[n] = acc1[n-2] + floor(F[n-3] * tau)` (R207). -/
def closedN (r t : Int) (tau : Rat) (vs : List Int) (n : Int) : Int :=
  closedAcc1 r t vs (n - 2) + if n - 3 < 0 then 0 else ((closedF r t vs (n - 3) : Rat) * tau).floor

/-- `acc3[n] = acc3[n-1] - N[n] + N[n-g]` (R207), summed from 0. -/
def closedAcc3 (r t : Int) (tau : Rat) (vs : List Int) (n : Int) : Int :=
  ((List.range (n + 1).toNat).map fun j =>
    (if (j : Int) - (r + t) < 0 then 0 else closedN r t tau vs ((j : Int) - (r + t))) - closedN r t tau vs j).sum

/-! ### Runs -/

/-- Executing instructions one after another (R50), stopping at the first fault or refusal: what a macro of R81 expands to. -/
def execAll : List Instr → State → Result
  | [], s => .next s
  | i :: is, s =>
    match exec i s with
    | .next t => execAll is t
    | .fault f => .fault f
    | .refused r => .refused r

/-- The filtered samples of a run of the pipeline over decimated values (R203), with the unit after it. -/
def filterRun (rnd : Config.Rounding) : List Int → Tf → List Int × Tf
  | [], tf => ([], tf)
  | v :: vs, tf =>
    let now := filterStep rnd v tf
    let later := filterRun rnd vs now.2
    (now.1 :: later.1, later.2)

/-- The values ejected by pushing a list of values on a delay line, in order, with the line after it (R197, R198). -/
def pushRun : List Int → DelayLine → List Int × DelayLine
  | [], d => ([], d)
  | v :: vs, d =>
    let now := push d v
    let later := pushRun vs now.2
    (now.1 :: later.1, later.2)

end Sys2Proof.Machine
end

