-- ==== Sys2Proof/Certificates/Slice0/Obligations.lean ====
section
/-! DEFINITION. The statements for the provers. -/

open Sys2Proof Sys2Proof.Machine

/-! ### Encodings -/

/-- Words the spec writes out, with the instruction or the refusal each stands for (R63, R64, R77). A sanity statement. -/
def Obligations.SpecWordsDecode : Prop :=
  decodeCommand 0x000000000000000000#72 = .instr .nop ∧
  decodeCommand 0x100000000000000271#72 = .instr (.setpRise 625#32) ∧
  decodeCommand 0x1900000000FFFFFFFF#72 = .instr (.setpShift 0xFFFFFFFF#32) ∧
  decodeCommand 0x21000000000000FFFB#72 = .instr (.ckPush 65531#16) ∧
  decodeCommand 0x310000000000000000#72 = .instr .kgTrap2 ∧
  decodeCommand 0x420000000000000000#72 = .instr .reFlush ∧
  decodeCommand 0x51000000004B40200C#72 = .instr (.rdWord 0x4B40200C#32) ∧
  decodeCommand 0x614010000000000000#72 = .instr (.txLoad 0x4010000000000000#64) ∧
  decodeCommand 0x710000000000000003#72 = .instr (.tfPush 3#16) ∧
  decodeCommand 0x81FFFFFFFFFFFFF830#72 = .instr (.tdPush 0xFFFFFFFFFFFFF830#64) ∧
  decodeCommand 0x320000000000000000#72 = .illegalOpcode 0x32#8 ∧
  decodeCommand 0x410000000000010000#72 = .operandError 0x41#8 ∧
  decodeStream 2 [false, true, false, false, true] = some (.cwQ1 2 false 1)

/-- DECODE AND ENCODE AGREE on the commands, both ways: the command word the encoder writes decodes to its instruction, with every
operand at every value, and a word that decodes to an instruction is the word the encoder writes for it, so that no bit of it is
dropped. Its opcode byte is the instruction's. -/
def Obligations.CommandsDecodeAndEncodeAgree : Prop :=
  ∀ (i : Instr) (c : CommandWord),
    (encode i = .command c ↔ decodeCommand c = .instr i) ∧ (decodeCommand c = .instr i → i.opcode = some (opcodeOf c))

/-- DECODE AND ENCODE AGREE on the codewords: a well-formed codeword instruction, followed by any bits, is read back, and the
bits after it are what is left. `k` is the remainder width of the stream; an escape is read the same under every `k`. -/
def Obligations.EncodedCodewordsReadBack : Prop :=
  ∀ (cw : Codeword) (k : Nat) (rest : Bits), cw.wellFormed = true → (∀ q k' sign r, cw = .rice q k' sign r → k' = k) →
    encode cw.toInstr = .codeword cw.bits ∧ cw.toInstr.wellFormed = true ∧
    readCodeword k (cw.bits ++ rest) = some (cw, rest) ∧ decodeStream k (cw.bits ++ rest) = some cw.toInstr

/-- Which command words are refused by the decoder, and how (R244, R245 but for its Num clause). -/
def Obligations.DecoderRefusesExactlyTheIllegal : Prop :=
  ∀ c : CommandWord,
    ((∃ opc, decodeCommand c = .illegalOpcode opc) ↔ opcodeOf c ∉ legalOpcodes) ∧
    (∀ opc, decodeCommand c = .illegalOpcode opc ∨ decodeCommand c = .operandError opc → opc = opcodeOf c) ∧
    ((∃ i, decodeCommand c = .instr i) ↔ ∃ i, encode i = .command c)

/-- The codeword of a sample (R72, R73, R74, R138). -/
def Obligations.CodewordOfSample : Prop :=
  ∀ (v : Int) (k : Nat), -32768 ≤ v → v ≤ 32767 → k ≤ 31 →
    (v.natAbs / 2 ^ k < 8 →
      code v k = zeros (v.natAbs / 2 ^ k) ++ [true] ++ [decide (v < 0)] ++ bin k (v.natAbs % 2 ^ k) ∧
      (code v k).length = v.natAbs / 2 ^ k + 2 + k) ∧
    (8 ≤ v.natAbs / 2 ^ k →
      code v k = zeros 8 ++ [true] ++ bin 16 (if 0 ≤ v then v else v + 32768).toNat ∧ (code v k).length = 25 ∧ k ≤ 12)

/-! ### The step -/

/-- A STEP RUNS THE DECODED INSTRUCTION: when the next command presented decodes to `i`, the step is `exec i` in the state
whose port has accepted that command (R50). -/
def Obligations.StepRunsTheDecodedCommand : Prop :=
  ∀ (s : State) (c : CommandWord) (rest : List CommandWord) (i : Instr),
    s.commands = c :: rest → decodeCommand c = .instr i → step s = exec i { s with commands := rest }

/-- A word that is no instruction is refused before anything else is checked (R62, R64, R242, R244, R245, R246 items 1 and 2), in every
state: an illegal opcode byte, whatever its operand, raises IllegalOpcode, and a word with a legal opcode byte that no
instruction is encoded as raises OperandError. -/
def Obligations.UndecodableWordsAreRefusedFirst : Prop :=
  ∀ (s : State) (opc : OpcodeByte) (op : BitVec 64) (rest : List CommandWord), s.commands = commandWord opc op :: rest →
    (opc ∉ legalOpcodes → step s = .next (refuse opc 3 { s with commands := rest })) ∧
    (opc ∈ legalOpcodes → (∀ i, encode i ≠ .command (commandWord opc op)) →
      step s = .next (refuse opc 4 { s with commands := rest }))

/-- While no command is presented the core holds its state (R261, R265). The model's reading of waiting: log entry 13. -/
def Obligations.IdleCoreHoldsItsState : Prop :=
  ∀ s : State, s.commands = [] → step s = .next s

/-! ### System commands and parameter writes -/

/-- NOP (R91). -/
def Obligations.NopChangesNothing : Prop :=
  Encodes 0x00#8 0 (fun _ => .nop) ∧ ∀ s : State, exec .nop s = .next s ∧ CellsKept s s

/-- RESET (R92, R28): it completes, emits nothing, and the records already emitted stay; every field to which R28 gives a value
has it, after RESET as in the reset state itself, which has no record pending. The fields R28 leaves unspecified are not spoken
of. -/
def Obligations.ResetRestoresTheResetValues : Prop :=
  Encodes 0x01#8 0 (fun _ => .reset) ∧
  (∀ s : State, ∃ t, exec .reset s = .next t ∧ t.responses = s.responses) ∧ State.reset.responses = [] ∧
  ∀ t : State, (t = State.reset ∨ ∃ s, exec .reset s = .next t) →
    t.p.rise = 0#32 ∧ t.p.top = 0#32 ∧ t.p.tau = 0x0000000000000000#64 ∧ t.p.len = 0#32 ∧ t.p.m = 0#32 ∧
    t.p.count = 0#32 ∧ t.p.scale = 0#24 ∧ t.p.thr = 0#32 ∧ t.p.pct = 0x3FE999999999999A#64 ∧
    rat t.p.pct = mkRat 3602879701896397 4503599627370496 ∧ t.p.shift = 0#32 ∧ t.p.mean = 0#32 ∧ t.errlog = 0#8 ∧
    t.ck = { active := false, sum1 := 0, sum2 := 0 } ∧ t.re = { active := false, k := 0, acc := [] } ∧
    t.rd = { active := false, k := 0, remaining := 0, buf := [] } ∧ t.tx.wlen = 0 ∧
    t.tf.active = false ∧ t.tf.holdValid = false ∧ t.td.active = false ∧ t.td.st = .idle

/-- STAT (R93) with the bits of its payload (R16, R67): one record, whose payload is the STATUS image, and no other effect. -/
def Obligations.StatReportsTheStatusRegister : Prop :=
  Encodes 0x02#8 0 (fun _ => .stat) ∧
  ∀ s : State, ∃ image : BitVec 64,
    exec .stat s = .next { s with responses := s.responses ++ [record 0x02#8 image] } ∧
    (∀ b, 1 ≤ b → b ≤ 5 → image.getLsbD b = s.errlog.getLsbD b) ∧
    image.getLsbD 0 = false ∧ image.getLsbD 6 = false ∧ image.getLsbD 7 = false ∧
    image.getLsbD 8 = s.ck.active ∧ image.getLsbD 9 = s.re.active ∧ image.getLsbD 10 = s.rd.active ∧
    image.getLsbD 11 = s.tf.active ∧ image.getLsbD 12 = s.td.active ∧ image.getLsbD 13 = s.tf.holdValid ∧
    image.getLsbD 14 = false ∧ image.getLsbD 15 = false ∧
    (image.toNat / 2 ^ 16 = match s.td.st with | .idle => 0 | .waitZeroCross => 1 | .waitDelay => 2 | .armed => 3)

/-- SETP.* (R94 to R104): each writes its own register with its operand and does nothing else; of SETP.TAU and SETP.PCT a
pattern that is a NaN or an infinity raises OperandError (codes 0x12 and 0x18). -/
def Obligations.SetpWritesItsRegister : Prop :=
  Encodes 0x10#8 32 (fun op => .setpRise (op.setWidth 32)) ∧ Encodes 0x11#8 32 (fun op => .setpTop (op.setWidth 32)) ∧
  Encodes 0x12#8 64 .setpTau ∧ Encodes 0x13#8 32 (fun op => .setpLen (op.setWidth 32)) ∧
  Encodes 0x14#8 32 (fun op => .setpM (op.setWidth 32)) ∧ Encodes 0x15#8 32 (fun op => .setpCount (op.setWidth 32)) ∧
  Encodes 0x16#8 24 (fun op => .setpScale (op.setWidth 24)) ∧ Encodes 0x17#8 32 (fun op => .setpThr (op.setWidth 32)) ∧
  Encodes 0x18#8 64 .setpPct ∧ Encodes 0x19#8 32 (fun op => .setpShift (op.setWidth 32)) ∧
  Encodes 0x1A#8 32 (fun op => .setpMean (op.setWidth 32)) ∧
  ∀ (s : State) (v : BitVec 32) (v24 : BitVec 24) (x : Num64),
    exec (.setpRise v) s = .next { s with p := { s.p with rise := v } } ∧
    exec (.setpTop v) s = .next { s with p := { s.p with top := v } } ∧
    (x.extractLsb' 52 11 ≠ 0x7FF#11 → exec (.setpTau x) s = .next { s with p := { s.p with tau := x } }) ∧
    (x.extractLsb' 52 11 = 0x7FF#11 → exec (.setpTau x) s = .next (refuse 0x12#8 4 s)) ∧
    exec (.setpLen v) s = .next { s with p := { s.p with len := v } } ∧
    exec (.setpM v) s = .next { s with p := { s.p with m := v } } ∧
    exec (.setpCount v) s = .next { s with p := { s.p with count := v } } ∧
    exec (.setpScale v24) s = .next { s with p := { s.p with scale := v24 } } ∧
    exec (.setpThr v) s = .next { s with p := { s.p with thr := v } } ∧
    (x.extractLsb' 52 11 ≠ 0x7FF#11 → exec (.setpPct x) s = .next { s with p := { s.p with pct := x } }) ∧
    (x.extractLsb' 52 11 = 0x7FF#11 → exec (.setpPct x) s = .next (refuse 0x18#8 4 s)) ∧
    exec (.setpShift v) s = .next { s with p := { s.p with shift := v } } ∧
    exec (.setpMean v) s = .next { s with p := { s.p with mean := v } }

/-! ### CK -/

/-- CK.START (R111): also with a job open. -/
def Obligations.CkStartOpensAJob : Prop :=
  Encodes 0x20#8 0 (fun _ => .ckStart) ∧
  ∀ s : State, ∃ t, exec .ckStart s = .next t ∧ CellsKept s t ∧
    t = { s with ck := { active := true, sum1 := 0, sum2 := 0 } }

/-- CK.PUSH (R112): the sums in an open job, SeqError with none. -/
def Obligations.CkPushAddsTheSample : Prop :=
  Encodes 0x21#8 16 (fun op => .ckPush (op.setWidth 16)) ∧
  ∀ (h : BitVec 16) (s : State),
    (s.ck.active = true → ∃ t, exec (.ckPush h) s = .next t ∧ CellsKept s t ∧
      t = { s with ck := { active := true, sum1 := s.ck.sum1 + h.toNat, sum2 := s.ck.sum2 + (s.ck.sum1 + h.toNat) } }) ∧
    (s.ck.active = false → exec (.ckPush h) s = .next (refuse 0x21#8 2 s))

/-- CK.FIN (R78, R114): `(b << 16) | a` of the reduced sums, the job closed; SeqError with no job. -/
def Obligations.CkFinReportsTheSums : Prop :=
  Encodes 0x22#8 0 (fun _ => .ckFin) ∧
  ∀ s : State,
    (s.ck.active = true → ∃ t, exec .ckFin s = .next t ∧ CellsKept s t ∧
      t = { s with
        ck := { active := false, sum1 := s.ck.sum1, sum2 := s.ck.sum2 },
        responses := s.responses ++
          [record 0x22#8 (BitVec.ofNat 64 ((s.ck.sum2 % 65535) * 2 ^ 16 + s.ck.sum1 % 65535))] }) ∧
    (s.ck.active = false → exec .ckFin s = .next (refuse 0x22#8 2 s))

/-- The whole job (R115): CHECKSUM S emits the one SUM `((B mod 65535) << 16) | (A mod 65535)` with `A` the sum of the samples
and `B` the sum of `(n - i) * s_i`. -/
def Obligations.ChecksumJobIsFletcher : Prop :=
  ∀ (samples : List (BitVec 16)) (s : State),
    ∃ t, execAll (.ckStart :: samples.map .ckPush ++ [.ckFin]) s = .next t ∧ t.ck.active = false ∧
      t.responses = s.responses ++
        [record 0x22#8 (BitVec.ofNat 64
          ((((List.range samples.length).map fun i => (samples.length - i) * (samples.getD i 0).toNat).sum % 65535) * 2 ^ 16 +
            (samples.map BitVec.toNat).sum % 65535))]

/-! ### KG -/

/-- KG.TRAP1 (R122 to R124): with legal arguments the kernel's weights in index order, each rounded once, else ConfigError and
no weight. -/
def Obligations.Trap1EmitsTheSingleTrapezoid : Prop :=
  Encodes 0x30#8 0 (fun _ => .kgTrap1) ∧
  ∀ s : State,
    let rise := s.p.rise.toNat
    let top := s.p.top.toNat
    let tau := rat s.p.tau
    let length := s.p.len.toNat
    let weight : Nat → Rat := fun n =>
      (if n < rise then (n : Rat) + tau else if n < rise + top then (rise : Rat)
        else if n < 2 * rise + top then (rise : Rat) - tau - ((n : Rat) - rise - top) else 0) / ((rise : Rat) * tau)
    ((length = 0 ∨ 2 * rise + top ≤ length) ∧ 0 < rise ∧ tau ≠ 0 →
      ∃ t, exec .kgTrap1 s = .next t ∧ CellsKept s t ∧
        t = { s with responses := s.responses ++
          (List.range (max length (2 * rise + top))).map fun n => record 0x30#8 (fl (weight n)) }) ∧
    ((length ≠ 0 ∧ length < 2 * rise + top) ∨ rise = 0 ∨ tau = 0 → exec .kgTrap1 s = .next (refuse 0x30#8 1 s))

/-- KG.TRAP2 (R122, R126, R127), in the same way. -/
def Obligations.Trap2EmitsTheDoubleTrapezoid : Prop :=
  Encodes 0x31#8 0 (fun _ => .kgTrap2) ∧
  ∀ s : State,
    let rise := s.p.rise.toNat
    let top := s.p.top.toNat
    let tau := rat s.p.tau
    let length := s.p.len.toNat
    let weight : Nat → Rat := fun n =>
      if n < 3 * rise + 2 * top then
        -s1 rise top tau n + (if n < rise + top then 0 else s1 rise top tau (n - (rise + top)))
      else 0
    ((length = 0 ∨ 4 * rise + 2 * top ≤ length) ∧ 0 < rise ∧ tau ≠ 0 →
      ∃ t, exec .kgTrap2 s = .next t ∧ CellsKept s t ∧
        t = { s with responses := s.responses ++
          (List.range (max length (4 * rise + 2 * top))).map fun n => record 0x30#8 (fl (weight n)) }) ∧
    ((length ≠ 0 ∧ length < 4 * rise + 2 * top) ∨ rise = 0 ∨ tau = 0 → exec .kgTrap2 s = .next (refuse 0x31#8 1 s))

/-- The shape of the single trapezoid (R125): it rises on `[0,rise)` and falls on `[rise+top, 2*rise+top)` for `tau > 0`, the
other way for `tau < 0`, and its weights sum to `(rise + top) / tau`. -/
def Obligations.SingleTrapezoidShape : Prop :=
  ∀ (rise top : Nat) (tau : Rat), 1 ≤ rise → tau ≠ 0 →
    (∀ n, n + 1 < rise → s1 rise top tau (n + 1) - s1 rise top tau n = 1 / ((rise : Rat) * tau)) ∧
    (∀ n, rise + top ≤ n → n + 1 < 2 * rise + top →
      s1 rise top tau n - s1 rise top tau (n + 1) = 1 / ((rise : Rat) * tau)) ∧
    ((List.range (2 * rise + top)).map (s1 rise top tau)).sum = ((rise : Rat) + top) / tau

/-- The double trapezoid is the single one convolved with the differencer `[-1 at offset 0, +1 at offset rise+top]` (R127), at
every index, the padding included. -/
def Obligations.DoubleTrapezoidIsTheConvolution : Prop :=
  ∀ (rise top : Nat) (tau : Rat), 1 ≤ rise → tau ≠ 0 → ∀ n,
    d2 rise top tau n =
      ((List.range (n + 1)).map fun j => s1 rise top tau j *
        (if n - j = 0 then -1 else if n - j = rise + top then 1 else 0)).sum

/-! ### RE -/

/-- RE.START (R137): also with a job open; ConfigError for an `M` that is no power of two, an open job left as it was. -/
def Obligations.ReStartLatchesM : Prop :=
  Encodes 0x40#8 0 (fun _ => .reStart) ∧
  ∀ s : State,
    (∀ k, s.p.m.toNat = 2 ^ k → k ≤ 31 ∧ ∃ t, exec .reStart s = .next t ∧ CellsKept s t ∧
      t = { s with re := { active := true, k := k, acc := [] } }) ∧
    ((∀ k, s.p.m.toNat ≠ 2 ^ k) → exec .reStart s = .next (refuse 0x40#8 1 s))

/-- RE.PUSH (R139, R140): the words released and the bits left pending are, in order, the bits that were pending and the
sample's codeword, and fewer than 32 stay. -/
def Obligations.RePushReleasesWholeWords : Prop :=
  Encodes 0x41#8 16 (fun op => .rePush (op.setWidth 16)) ∧
  ∀ (h : BitVec 16) (s : State),
    (s.re.active = true → ∃ (t : State) (words : List (BitVec 32)) (acc : Bits),
      exec (.rePush h) s = .next t ∧ CellsKept s t ∧
      t = { s with
        re := { active := true, k := s.re.k, acc := acc },
        responses := s.responses ++ words.map fun w => record 0x41#8 (w.setWidth 64) } ∧
      words.flatMap (fun w => bin 32 w.toNat) ++ acc = s.re.acc ++ code h.toInt s.re.k ∧ acc.length < 32) ∧
    (s.re.active = false → exec (.rePush h) s = .next (refuse 0x41#8 2 s))

/-- RE.FLUSH (R142): at most one word, the pending bits left-justified and padded with zeros; the job closed. -/
def Obligations.ReFlushPadsTheLastWord : Prop :=
  Encodes 0x42#8 0 (fun _ => .reFlush) ∧
  ∀ s : State,
    (s.re.active = true → s.re.acc.length ≤ 31 → ∃ (t : State) (words : List (BitVec 32)),
      exec .reFlush s = .next t ∧ CellsKept s t ∧
      t = { s with
        re := { active := false, k := s.re.k, acc := [] },
        responses := s.responses ++ words.map fun w => record 0x41#8 (w.setWidth 64) } ∧
      (s.re.acc = [] → words = []) ∧
      (s.re.acc ≠ [] → ∃ w, words = [w] ∧ bin 32 w.toNat = s.re.acc ++ zeros (32 - s.re.acc.length))) ∧
    (s.re.active = false → exec .reFlush s = .next (refuse 0x42#8 2 s))

/-- The whole job (R143): the words of ENCODE are the concatenated codewords cut into 32-bit words, "the last one zero-padded on
the right if short". -/
def Obligations.EncodeJobPacksTheCodewords : Prop :=
  ∀ (samples : List (BitVec 16)) (k : Nat) (s : State), s.p.m.toNat = 2 ^ k →
    ∃ (t : State) (words : List (BitVec 32)) (pad : Nat),
      execAll (.reStart :: samples.map .rePush ++ [.reFlush]) s = .next t ∧ t.re.active = false ∧ pad < 32 ∧
      t.responses = s.responses ++ words.map (fun w => record 0x41#8 (w.setWidth 64)) ∧
      words.flatMap (fun w => bin 32 w.toNat) = samples.flatMap (fun h => code h.toInt k) ++ zeros pad

/-! ### RD and the codewords -/

/-- RD.START (R152). -/
def Obligations.RdStartLatchesMAndCount : Prop :=
  Encodes 0x50#8 0 (fun _ => .rdStart) ∧
  ∀ s : State,
    (∀ k, s.p.m.toNat = 2 ^ k → k ≤ 31 ∧ ∃ t, exec .rdStart s = .next t ∧ CellsKept s t ∧
      t = { s with rd := {
        active := decide (0 < s.p.count.toNat), k := k, remaining := s.p.count.toNat, buf := [] } }) ∧
    ((∀ k, s.p.m.toNat ≠ 2 ^ k) → exec .rdStart s = .next (refuse 0x50#8 1 s))

/-- RD.WORD with no codeword completed (R153, R154, R155): the bits are kept, nothing is emitted; SeqError with no job. A string
is incomplete as R153 says: it has no 1 bit, or fewer than 16 bits after the stop bit of an escape, or fewer than the sign bit
and `k` remainder bits after any other stop bit. So it is incomplete exactly when no well-formed codeword of width `k` begins
it. -/
def Obligations.RdWordBuffersAnIncompleteCodeword : Prop :=
  Encodes 0x51#8 32 (fun op => .rdWord (op.setWidth 32)) ∧
  (∀ (w : BitVec 32) (s : State),
    (s.rd.active = true → 0 < s.rd.remaining → readCodeword s.rd.k (s.rd.buf ++ bin 32 w.toNat) = none →
      exec (.rdWord w) s = .next { s with rd := { s.rd with buf := s.rd.buf ++ bin 32 w.toNat } }) ∧
    (s.rd.active = false → exec (.rdWord w) s = .next (refuse 0x51#8 2 s))) ∧
  (∀ (k : Nat) (buf : Bits), readCodeword k buf = none ↔
    ∀ (q : Nat) (body : Bits), buf = zeros q ++ true :: body → body.length < if q = 8 then 16 else 1 + k) ∧
  ∀ (k : Nat) (buf : Bits), k ≤ 31 → (readCodeword k buf = none ↔
    ∀ cw : Codeword, cw.wellFormed = true → (∀ q k' sign r, cw = .rice q k' sign r → k' = k) → ¬ cw.bits <+: buf)

/-- RD.WORD RUNS THE CODEWORDS (R154, R155, R77): with a codeword complete at the front of the buffer and the new word's bits,
RD.WORD is the codeword's instruction executed on that buffer, and then the rest of the loop. That a codeword is an instruction
whose meaning is one pass of the loop is the model's reading, log entry 16; `drain` carries the bound of log entry 21. -/
def Obligations.RdWordRunsItsCodewords : Prop :=
  ∀ (w : BitVec 32) (s : State) (cw : Codeword) (rest : Bits),
    s.rd.active = true → 0 < s.rd.remaining → readCodeword s.rd.k (s.rd.buf ++ bin 32 w.toNat) = some (cw, rest) →
    ∃ t, exec cw.toInstr { s with rd := { s.rd with buf := s.rd.buf ++ bin 32 w.toNat } } = .next t ∧
      exec (.rdWord w) s = .next (drain t) ∧ (0 < t.rd.remaining → t.rd.buf = rest) ∧
      t.rd.remaining = s.rd.remaining - 1

/-- The codeword table (R77) with the decoder's loop (R155) and `out16` (R156): the ten codewords, each executed in an open job
that expects a sample. That a codeword can be executed as an instruction, also where the buffer does not begin with it or its
width is not RD.k, is the model's choice, log entry 16: the spec reads codewords only off the buffer, as RdWordRunsItsCodewords
says. -/
def Obligations.CodewordsDecodeToTheirValues : Prop :=
  ∀ (s : State) (k : Nat) (sign : Bool) (r : Nat) (raw : BitVec 16), s.rd.active = true → 0 < s.rd.remaining →
    DecodesTo (.cwQ0 k sign r) (signed sign (0 * 2 ^ k + r)) (2 + k) s ∧
    DecodesTo (.cwQ1 k sign r) (signed sign (1 * 2 ^ k + r)) (3 + k) s ∧
    DecodesTo (.cwQ2 k sign r) (signed sign (2 * 2 ^ k + r)) (4 + k) s ∧
    DecodesTo (.cwQ3 k sign r) (signed sign (3 * 2 ^ k + r)) (5 + k) s ∧
    DecodesTo (.cwQ4 k sign r) (signed sign (4 * 2 ^ k + r)) (6 + k) s ∧
    DecodesTo (.cwQ5 k sign r) (signed sign (5 * 2 ^ k + r)) (7 + k) s ∧
    DecodesTo (.cwQ6 k sign r) (signed sign (6 * 2 ^ k + r)) (8 + k) s ∧
    DecodesTo (.cwQ7 k sign r) (signed sign (7 * 2 ^ k + r)) (9 + k) s ∧
    DecodesTo (.cwEsc raw) (if 16383 < raw.toNat then (raw.toNat : Int) - 32768 else raw.toNat) 25 s ∧
    (∀ q, 8 < q → DecodesTo (.cwQN q k sign r) (signed sign (q * 2 ^ k + r)) (q + 2 + k) s)

/-- The true domain of the round trip (R157): a sample's codeword reads back as the sample exactly when
`-16384 <= v <= 16383` or `|v| < 8 * M`, and otherwise "comes back wrong by exactly 32768". -/
def Obligations.RoundTripDomain : Prop :=
  ∀ (v : Int) (k : Nat) (rest : Bits), -32768 ≤ v → v ≤ 32767 → k ≤ 31 →
    ∃ cw, readCodeword k (code v k ++ rest) = some (cw, rest) ∧
      ((-16384 ≤ v ∧ v ≤ 16383) ∨ v.natAbs < 8 * 2 ^ k → valueOf cw = v) ∧
      (16384 ≤ v → 8 * 2 ^ k ≤ v.natAbs → valueOf cw = v - 32768) ∧
      (v ≤ -16385 → 8 * 2 ^ k ≤ v.natAbs → valueOf cw = v + 32768)

/-- Decoding inverts encoding, job by job (R157, R158): the words that pack the codewords of the samples, each sample in the
domain of R157, are all accepted in a fresh decode job, release the samples in order, and the last word closes the job. -/
def Obligations.DecodeJobInvertsEncodeJob : Prop :=
  ∀ (samples : List (BitVec 16)) (k : Nat) (words : List (BitVec 32)) (pad : Nat) (s : State),
    samples ≠ [] → k ≤ 31 → pad < 32 →
    (∀ h ∈ samples, (-16384 ≤ h.toInt ∧ h.toInt ≤ 16383) ∨ h.toInt.natAbs < 8 * 2 ^ k) →
    words.flatMap (fun w => bin 32 w.toNat) = samples.flatMap (fun h => code h.toInt k) ++ zeros pad →
    s.rd = { active := true, k := k, remaining := samples.length, buf := [] } →
    ∃ t, execAll (words.map .rdWord) s = .next t ∧
      t.responses = s.responses ++ samples.map (fun h => record 0x51#8 (h.setWidth 64)) ∧
      t.rd = { active := false, k := k, remaining := 0, buf := [] } ∧ t.errlog = s.errlog

/-! ### TX -/

/-- TX.CLEAR (R172): the fill count only, every cell reads as before. -/
def Obligations.TxClearKeepsTheCells : Prop :=
  Encodes 0x60#8 0 (fun _ => .txClear) ∧
  ∀ s : State, ∃ t, exec .txClear s = .next t ∧ t.tx.wlen = 0 ∧ CellsKept s t ∧ t = { s with tx := t.tx }

/-- TX.LOAD (R173, R245, R248): the store at the fill count, every other cell as before; RangeError in a full buffer;
OperandError, whether the buffer is full or not, for a NaN or an infinity. -/
def Obligations.TxLoadAppendsTheSample : Prop :=
  Encodes 0x61#8 64 .txLoad ∧
  ∀ (x : Num64) (s : State),
    (x.extractLsb' 52 11 ≠ 0x7FF#11 → s.tx.wlen < Config.wbufCap → ∃ t, exec (.txLoad x) s = .next t ∧
      t.tx.wlen = s.tx.wlen + 1 ∧ Memory.read t.tx.wbuf s.tx.wlen = some x ∧
      (∀ i, i ≠ s.tx.wlen → Memory.read t.tx.wbuf i = Memory.read s.tx.wbuf i) ∧ t = { s with tx := t.tx }) ∧
    (x.extractLsb' 52 11 ≠ 0x7FF#11 → s.tx.wlen = Config.wbufCap → exec (.txLoad x) s = .next (refuse 0x61#8 5 s)) ∧
    (x.extractLsb' 52 11 = 0x7FF#11 → exec (.txLoad x) s = .next (refuse 0x61#8 4 s))

/-- TX.RUN1 and TX.RUN2 (R174, R175, R176, R186): ConfigError for a percentage outside (0,1); else, on a filled buffer, the three
records of the extraction's result, XVALID, XENERGY, XTIME in this order, and no other effect but the model's count of draws. Of
an invalid result the payloads are some NaN patterns. Where the peak is zero, R174's corner case is not followed: log entry 27. -/
def Obligations.RunCommandsReportTheExtraction : Prop :=
  Encodes 0x62#8 0 (fun _ => .txRun1) ∧ Encodes 0x63#8 0 (fun _ => .txRun2) ∧
  ∀ s : State, ∀ run ∈ [(Instr.txRun1, 0x62#8, Variant.single), (Instr.txRun2, 0x63#8, Variant.double)],
    (rat s.p.pct ≤ 0 ∨ 1 ≤ rat s.p.pct → exec run.1 s = .next (refuse run.2.1 1 s)) ∧
    (0 < rat s.p.pct → rat s.p.pct < 1 → Filled s →
      ∃ (t : State) (cells : List Num64) (valid : Bool) (e x : Num64),
        exec run.1 s = .next t ∧ CellsKept s t ∧ cells.length = s.tx.wlen ∧
        (∀ i (h : i < cells.length), Memory.read s.tx.wbuf i = some cells[i]) ∧
        t = { s with draws := t.draws, responses := s.responses ++
          [record 0x62#8 (if valid then 1#64 else 0#64), record 0x63#8 e, record 0x64#8 x] } ∧
        (∀ energy ts, extract run.2.2 (extractArgs s.p) cells = some (energy, ts) → valid = true ∧ e = energy ∧ x = fl ts) ∧
        (extract run.2.2 (extractArgs s.p) cells = none →
          valid = false ∧ Num64.isNan e = true ∧ Num64.isNan x = true))

/-- The extremes (R177): none of an empty waveform; else the greatest and the least value, each at the lowest index where it occurs. -/
def Obligations.ExtremesAreFirstOccurrences : Prop :=
  extremes [] = none ∧
  ∀ w : List Rat, w ≠ [] → ∃ mx mn : Peak, extremes w = some (mx, mn) ∧
    w[mx.1]? = some mx.2 ∧ w[mn.1]? = some mn.2 ∧
    ∀ (i : Nat) (x : Rat), w[i]? = some x →
      x ≤ mx.2 ∧ (i < mx.1 → x < mx.2) ∧ mn.2 ≤ x ∧ (i < mn.1 → mn.2 < x)

/-- The crosses (R180, R181): the nearest pair on the pivot's left, within the window and the buffer, that straddles the threshold,
by its later index; and the nearest on its right, by its earlier index. That a value at the threshold straddles also at a peak of
zero is the model's choice, log entry 27. -/
def Obligations.CrossesAreTheNearestStraddles : Prop :=
  ∀ (u : Nat → Rat) (t : Rat) (pairs p window i : Nat),
    (leftCross u t p window = some i ↔
      0 < i ∧ i ≤ p ∧ p - i < window ∧ u (i - 1) < t ∧ t ≤ u i ∧
        ∀ b, i < b → b ≤ p → ¬(u (b - 1) < t ∧ t ≤ u b)) ∧
    (rightCross u t pairs p window = some i ↔
      p ≤ i ∧ i - p < pairs ∧ i - p < window ∧ t ≤ u i ∧ u (i + 1) < t ∧
        ∀ a, p ≤ a → a < i → ¬(t ≤ u a ∧ u (a + 1) < t))

/-- When an extraction is valid and what it then reports (R177 to R185, and R186's choice of the pattern): the pivot and direction
of the variant, the once rounded threshold, both crosses found from that pivot within `rise + top` pairs, the timestamp from
their midpoint, and a readout window inside the buffer, whose energy is the stored pattern of a single cell and the rounded mean
of several. The crosses enclose the pivot and lie in the buffer. `leftCross` and `rightCross` are what
CrossesAreTheNearestStraddles says, `extremes` what ExtremesAreFirstOccurrences says. Where the peak is zero or the threshold
rounds to the peak, this follows the pseudocode against R174's corner case: the model's choice, log entry 27. -/
def Obligations.ValidExtractionReadsAroundTheMidpoint : Prop :=
  ∀ (v : Variant) (a : ExtractArgs) (cells : List Num64) (e : Num64) (ts : Rat),
    extract v a cells = some (e, ts) ↔
      ∃ (mx mn : Peak) (left right : Nat), extremes (cells.map rat) = some (mx, mn) ∧
        let neg : Bool := match v with
          | .single => decide (|mx.2| < |mn.2|)
          | .double => decide (mx.1 < mn.1)
        let p := if neg then mn.1 else mx.1
        let peakVal := if neg then mn.2 else mx.2
        let d : Rat := if neg then -1 else 1
        let T := d * rat (fl (peakVal * a.pct))
        let u := fun i => d * (cells.map rat).getD i 0
        let mid : Rat := ((left : Rat) + right) / 2
        let i0 := mid.floor + a.shift
        let lo := if a.mean < 0 then i0 + a.mean + 1 else i0
        let hi := if 0 < a.mean then i0 + a.mean - 1 else i0
        leftCross u T p (a.rise + a.top) = some left ∧
        rightCross u T (cells.length - 1 - p) p (a.rise + a.top) = some right ∧
        left ≤ p ∧ p ≤ right ∧ right < cells.length ∧
        ts = (match v with
          | .single => mid - (a.top : Rat) / 2 - a.rise
          | .double => mid - 7 * (a.top : Rat) / 4 - 2 * a.rise) ∧
        0 ≤ lo ∧ hi ≤ (cells.length : Int) - 1 ∧
        (lo = hi → cells[lo.toNat]? = some e) ∧
        (lo ≠ hi → e = fl (((List.range (hi - lo + 1).toNat).map fun j => rat (cells.getD (lo.toNat + j) 0#64)).sum /
          ((hi - lo + 1 : Int) : Rat)))

/-- "Extraction failure boundary" (R187): a constant waveform gives no valid result, in either variant. -/
def Obligations.FlatWaveformIsInvalid : Prop :=
  ∀ (v : Variant) (a : ExtractArgs) (cells : List Num64) (c : Rat), (∀ x ∈ cells, rat x = c) → extract v a cells = none

/-! ### TF -/

/-- TF.START (R200): a fresh job, every slot and accumulator 0; ConfigError for `rise = 0`, `top = 0` or `tau = 0`, an open job
left as it was. -/
def Obligations.TfStartBuildsAFreshFilter : Prop :=
  Encodes 0x70#8 0 (fun _ => .tfStart) ∧
  ∀ s : State,
    (s.p.rise.toNat ≠ 0 → s.p.top.toNat ≠ 0 → rat s.p.tau ≠ 0 → ∃ t, exec .tfStart s = .next t ∧ CellsKept s t ∧
      t = { s with tf := {
        active := true, rise := s.p.rise, top := s.p.top, tau := rat s.p.tau,
        sf := (s.p.scale.toNat : Rat) / 8388608, holdValid := false, hold := t.tf.hold,
        dB := List.replicate s.p.rise.toNat 0, dD := List.replicate s.p.rise.toNat 0,
        dC := List.replicate s.p.top.toNat 0, dF := [0], dK := [0], dL := [0, 0], dN := [0], dQ := [0],
        dS := List.replicate (s.p.rise.toNat + s.p.top.toNat) 0, dU := [0], dY := [0], dZ := [0],
        acc1 := 0, acc2 := 0, acc3 := 0 } }) ∧
    (s.p.rise.toNat = 0 ∨ s.p.top.toNat = 0 ∨ rat s.p.tau = 0 → exec .tfStart s = .next (refuse 0x70#8 1 s))

/-- TF.PUSH (R201, R202): the first of a pair is held; the second runs one step on the clamped and halved pair sum and emits the
sample that was in `dZ.slot[0]`; a sample that does not fit 64 bits is RangeError, the held sample staying held; SeqError with
no job. The halving is toward minus infinity or toward zero, as DIV2 says; its default is floor (log entry 10). -/
def Obligations.TfPushFiltersPairs : Prop :=
  Encodes 0x71#8 16 (fun op => .tfPush (op.setWidth 16)) ∧ State.reset.settings.div2 = .floor ∧
  ∀ (h : BitVec 16) (s : State),
    let half : Int → Int := fun x => match s.settings.div2 with
      | .floor => x / 2
      | .truncate => x.tdiv 2
    (s.tf.active = true → s.tf.holdValid = false → ∃ t, exec (.tfPush h) s = .next t ∧ CellsKept s t ∧
      t = { s with tf := { s.tf with hold := h, holdValid := true } }) ∧
    (∀ z : Int, s.tf.active = true → s.tf.holdValid = true → s.tf.dZ = [z] → -2 ^ 63 ≤ z → z ≤ 2 ^ 63 - 1 →
      ∃ t, exec (.tfPush h) s = .next t ∧ CellsKept s t ∧
        t = { s with
          tf := (filterStep s.settings.rnd (half (max (-16384) (min 16382 (s.tf.hold.toInt + h.toInt))))
            { s.tf with holdValid := false }).2,
          responses := s.responses ++ [record 0x71#8 (BitVec.ofInt 64 z)] } ∧ t.tf.holdValid = false) ∧
    (∀ z : Int, s.tf.active = true → s.tf.holdValid = true → s.tf.dZ = [z] → (z < -2 ^ 63 ∨ 2 ^ 63 - 1 < z) →
      exec (.tfPush h) s = .next (refuse 0x71#8 5 s)) ∧
    (s.tf.active = false → exec (.tfPush h) s = .next (refuse 0x71#8 2 s))

/-- One pipeline step (R203), line by line: with the tails of the twelve lines named, what is ejected, what is pushed where, and
the accumulators. -/
def Obligations.PipelineStepIsTheFiveLines : Prop :=
  ∀ (rnd : Config.Rounding) (v : Int) (tf : Tf) (xB xC xD xF xK xL xN xQ xS xU xY xZ : List Int) (b c d f k l n q s u y z : Int),
    tf.dB = xB ++ [b] → tf.dC = xC ++ [c] → tf.dD = xD ++ [d] → tf.dF = xF ++ [f] → tf.dK = xK ++ [k] → tf.dL = xL ++ [l] →
    tf.dN = xN ++ [n] → tf.dQ = xQ ++ [q] → tf.dS = xS ++ [s] → tf.dU = xU ++ [u] → tf.dY = xY ++ [y] → tf.dZ = xZ ++ [z] →
    filterStep rnd v tf = (z, { tf with
      dB := v :: xB, dC := b :: xC, dD := c :: xD, dF := (v - b - c + d) :: xF,
      acc1 := tf.acc1 + f, dK := (tf.acc1 + f) :: xK, dL := ((f : Rat) * tf.tau).floor :: xL, dN := (k + l) :: xN,
      acc2 := tf.acc2 + n, dQ := (tf.acc2 + n) :: xQ, dS := (tf.acc2 + n) :: xS, dU := s :: xU,
      acc3 := tf.acc3 + (q - (tf.acc2 + n) + s - u), dY := (tf.acc3 + (q - (tf.acc2 + n) + s - u)) :: xY,
      dZ := roundWith rnd ((y : Rat) * tf.sf) :: xZ })

/-- A delay line delays by its capacity (R198): push `m` returns the value given `cap` pushes earlier, and before that the
initial content, tail first. -/
def Obligations.DelayLineDelaysByItsCapacity : Prop :=
  ∀ (d : DelayLine) (vs : List Int) (m : Nat), d ≠ [] → m < vs.length →
    (pushRun vs d).1[m]? = (if m < d.length then d[d.length - 1 - m]? else vs[m - d.length]?) ∧
    (pushRun vs d).2.length = d.length

/-- `round` (R204) under each setting of RND that the spec names (N5, log entry 9): the nearest integer, a tie going to the even
integer, away from zero, or up. The default, which the reset state has, is to the even one. -/
def Obligations.RoundIsNearestTiesToEven : Prop :=
  State.reset.settings.rnd = .halfEven ∧
  ∀ (rnd : Config.Rounding) (x : Rat), |(roundWith rnd x : Rat) - x| ≤ 1 / 2 ∧
    (|(roundWith rnd x : Rat) - x| = 1 / 2 → match rnd with
      | .halfEven => roundWith rnd x % 2 = 0
      | .halfAway => |x| < |(roundWith rnd x : Rat)|
      | .halfUp => x < roundWith rnd x)

/-- The closed form (R207): from a fresh start the filtered sample of step `n` is `round(acc3[n-2] * sf)`; so the first two are
0. It holds for every setting of RND. -/
def Obligations.FilterHasItsClosedForm : Prop :=
  ∀ (rnd : Config.Rounding) (rise top : BitVec 32) (tau sf : Rat) (hold : BitVec 16) (vs : List Int) (n : Nat),
    0 < rise.toNat → 0 < top.toNat → n < vs.length →
    (filterRun rnd vs (freshFilter rise top tau sf hold)).1[n]? =
      some (roundWith rnd ((closedAcc3 rise.toNat top.toNat tau vs ((n : Int) - 2) : Rat) * sf))

/-! ### TD -/

/-- TD.START (R222): no parameter value is refused. -/
def Obligations.TdStartOpensAnIdleMachine : Prop :=
  Encodes 0x80#8 0 (fun _ => .tdStart) ∧
  ∀ s : State, ∃ t, exec .tdStart s = .next t ∧ CellsKept s t ∧
    t = { s with td := {
      active := true, rise := s.p.rise, top := s.p.top, thr := s.p.thr,
      wait := s.p.rise.toNat / 2 + (3 * s.p.top.toNat) / 4, off := 3 * s.p.rise.toNat + 2 * s.p.top.toNat,
      idx := 0, st := .idle, prev := 0, cross := 0 } }

/-- TD.PUSH by the table of R225 (R224): exactly one row, that of the state on arrival, from index `off` on; the sample is
recorded and counted in any case. `sign(0)` is what SGN0 says, 0 by default (log entry 11). -/
def Obligations.TdPushFollowsTheTable : Prop :=
  Encodes 0x81#8 64 .tdPush ∧ State.reset.settings.sgn0 = 0 ∧
  ∀ (w : BitVec 64) (s : State),
    let y := w.toInt
    let td := s.td
    let sgn : Int → Int := fun x => if x = 0 then s.settings.sgn0 else x.sign
    (td.active = true → td.idx < 2 ^ 62 →
      ∃ (t : State) (st : TdState) (cross : Nat) (rs : List Record),
        exec (.tdPush w) s = .next t ∧ CellsKept s t ∧
        t = { s with td := { td with st := st, cross := cross, prev := y, idx := td.idx + 1 }, responses := s.responses ++ rs } ∧
        (td.st = .waitZeroCross ∧ td.off ≤ td.idx ∧ sgn y ≠ sgn td.prev → cross = td.idx) ∧
        (¬(td.st = .waitZeroCross ∧ td.off ≤ td.idx ∧ sgn y ≠ sgn td.prev) → cross = td.cross) ∧
        (td.st = .waitDelay ∧ td.off ≤ td.idx ∧ td.idx > td.cross + td.wait →
          rs = [record 0x81#8 w, record 0x82#8 (BitVec.ofInt 64
            (2 * ((td.idx : Int) - td.rise.toNat - (3 * td.top.toNat / 4 : Nat) - td.top.toNat - td.rise.toNat)))]) ∧
        (¬(td.st = .waitDelay ∧ td.off ≤ td.idx ∧ td.idx > td.cross + td.wait) → rs = []) ∧
        (td.idx < td.off → st = td.st) ∧
        (td.off ≤ td.idx → st = match td.st with
          | .idle => if (td.thr.toNat : Int) ≤ |y| then .waitZeroCross else .idle
          | .waitZeroCross => if sgn y ≠ sgn td.prev then .waitDelay else .waitZeroCross
          | .waitDelay => if td.idx > td.cross + td.wait then .armed else .waitDelay
          | .armed => if |y| < (td.thr.toNat : Int) then .idle else .armed)) ∧
    (td.active = true → td.idx = 2 ^ 62 → exec (.tdPush w) s = .next (refuse 0x81#8 5 s)) ∧
    (td.active = false → exec (.tdPush w) s = .next (refuse 0x81#8 2 s))

/-- The event (R226): in a state of the machine's invariant, an event comes at `idx = cross + wait + 1` and no other index, and
its offset is `2 * (cross + 1 + floor(rise/2) - 2*rise - top)`, never negative. -/
def Obligations.EventComesWaitPlusOneAfterTheCrossing : Prop :=
  ∀ (w : BitVec 64) (s t : State), TdInv s.td → s.td.active = true → exec (.tdPush w) s = .next t →
    s.td.st = .waitDelay → s.td.idx < 2 ^ 62 →
    (t.responses ≠ s.responses ↔ s.td.idx = s.td.cross + s.td.wait + 1) ∧
    (s.td.idx = s.td.cross + s.td.wait + 1 → ∃ offset : Int, 0 ≤ offset ∧
      offset = 2 * ((s.td.cross : Int) + 1 + (s.td.rise.toNat / 2 : Nat) - 2 * s.td.rise.toNat - s.td.top.toNat) ∧
      t.responses = s.responses ++ [record 0x81#8 w, record 0x82#8 (BitVec.ofInt 64 offset)])

/-- Short streams (R230): "a job that receives at most `off` samples evaluates no state and emits nothing". -/
def Obligations.ShortStreamsTriggerNothing : Prop :=
  ∀ (ys : List (BitVec 64)) (s : State), ys.length ≤ 3 * s.p.rise.toNat + 2 * s.p.top.toNat →
    ∃ t, execAll (.tdStart :: ys.map .tdPush) s = .next t ∧ t.responses = s.responses ∧ t.td.st = .idle

/-- A zero threshold (R229): such a job emits at most one event, that is at most two records. -/
def Obligations.ZeroThresholdTriggersOnce : Prop :=
  ∀ (ys : List (BitVec 64)) (s : State), s.p.thr.toNat = 0 → ys.length ≤ 2 ^ 62 →
    ∃ t, execAll (.tdStart :: ys.map .tdPush) s = .next t ∧ t.responses.length ≤ s.responses.length + 2

/-! ### Numbers -/

/-- `fl` (R7, R70): it is finite everywhere and exact on what a finite pattern represents, with +0.0 for 0; `fl` elsewhere is open
and nothing is said of it. A drawn pattern of `NANPAT` is a NaN. -/
def Obligations.RoundingIsFiniteAndExact : Prop :=
  (∀ x : Rat, Num64.isFinite (fl x) = true) ∧ (∀ p : Num64, Num64.isFinite p = true → rat (fl (rat p)) = rat p) ∧
  fl 0 = 0#64 ∧ ∀ n, Num64.isNan (nanPattern n) = true

/-! ### The whole machine -/

/-- The error action is precise (R242): an instruction other than RESET either has as its whole effect one bit of ERRLOG and one
ERR record with its own opcode byte, or it leaves ERRLOG as it was and emits no ERR record (tag 0x0F). -/
def Obligations.RefusedCommandsChangeNothingElse : Prop :=
  ∀ (i : Instr) (s t : State), exec i s = .next t → i ≠ .reset →
    (∃ opc code, i.opcode = some opc ∧ code ∈ [1, 2, 4, 5] ∧ t = refuse opc code s) ∨
    (t.errlog = s.errlog ∧ ∃ rs : List Record, t.responses = s.responses ++ rs ∧ ∀ r ∈ rs, r.extractLsb' 64 8 ≠ 0x0F#8)

/-- ERRLOG is sticky (R17): only an accepted RESET clears a bit of it. -/
def Obligations.ErrlogIsSticky : Prop :=
  ∀ s t : State, step s = .next t → s.commands.head?.map decodeCommand ≠ some (.instr .reset) →
    ∀ b, s.errlog.getLsbD b = true → t.errlog.getLsbD b = true

/-- The response sequence is append-only (R51). -/
def Obligations.ResponsesAreAppendOnly : Prop :=
  ∀ s t : State, step s = .next t → ∃ rs, t.responses = s.responses ++ rs

/-- Units own their state (R56): an instruction of one unit leaves the state of every other as it was. RESET is the exception.
The parameter registers are written by the SETP commands alone (R14). The model's settings are no state of the core (R29): not
even RESET changes them. -/
def Obligations.UnitsOwnTheirState : Prop :=
  ∀ (i : Instr) (s t : State), exec i s = .next t →
    t.settings = s.settings ∧ t.commands = s.commands ∧
    (i ≠ .reset →
      (owner i ≠ .param → t.p = s.p) ∧ (owner i ≠ .ck → t.ck = s.ck) ∧ (owner i ≠ .re → t.re = s.re) ∧
      (owner i ≠ .rd → t.rd = s.rd) ∧ (owner i ≠ .tx → t.tx = s.tx) ∧ (owner i ≠ .tf → t.tf = s.tf) ∧
      (owner i ≠ .td → t.td = s.td))

/-- "Two commands of different units commute in their effect on unit state" (R56), for the commands of the functional units: the
parameters, ERRLOG, every unit's state, the model's count of draws and its settings. The records are not spoken of, and neither
is a SETP against another unit. -/
def Obligations.UnitsCommute : Prop :=
  ∀ (i j : Instr) (s si sij sj sji : State), owner i ≠ owner j → owner i ∉ [Owner.sys, Owner.param] →
    owner j ∉ [Owner.sys, Owner.param] →
    exec i s = .next si → exec j si = .next sij → exec j s = .next sj → exec i sj = .next sji →
    sij.p = sji.p ∧ sij.errlog = sji.errlog ∧ sij.ck = sji.ck ∧ sij.re = sji.re ∧ sij.rd = sji.rd ∧ sij.tx = sji.tx ∧
    sij.tf = sji.tf ∧ sij.td = sji.td ∧ sij.draws = sji.draws ∧ sij.settings = sji.settings

/-- The invariant holds after reset. -/
def Obligations.ResetMeetsTheInvariant : Prop := Inv State.reset

/-- Every step keeps TAU and PCT finite (R13), the hardwired bits of ERRLOG zero (R16), the encoder's accumulator short (R20,
R136), and the filter's latched parameters legal and its capacities as they were built (R24, R196: a capacity "never
changes"). -/
def Obligations.StepKeepsRegistersEncoderAndFilter : Prop :=
  ∀ s t : State, step s = .next t →
    (ParamsInv s.p → ParamsInv t.p) ∧ (ErrlogInv s.errlog → ErrlogInv t.errlog) ∧ (ReInv s.re → ReInv t.re) ∧
    (TfInv s.tf → TfInv t.tf)

/-- Every step keeps the decoder's invariant (R151): between commands no complete codeword is buffered. -/
def Obligations.StepKeepsTheDecoder : Prop :=
  ∀ s t : State, RdInv s.rd → step s = .next t → RdInv t.rd

/-- Every step keeps the buffer's invariant (R41, R264): the memory canonical, every filled cell written, none beyond the
capacity. -/
def Obligations.StepKeepsTheBuffer : Prop :=
  ∀ s t : State, TxInv s.tx → step s = .next t → TxInv t.tx

/-- Every step keeps the trigger machine's invariant (R225, R226). -/
def Obligations.StepKeepsTheTrigger : Prop :=
  ∀ s t : State, TdInv s.td → step s = .next t → TdInv t.td

/-- NO STUCK STATE (R50): from every state of the invariant, whatever the host presents, the step completes, in a state of the
invariant. -/
def Obligations.EveryStepCompletes : Prop :=
  ∀ s : State, Inv s → ∃ t, step s = .next t ∧ Inv t
end

