-- ==== Sys2Proof/Laws/Bits.lean ====
section
/-! SUPPORT. Lemmas of bit strings: lengths, and `val` against `bin`. -/

namespace Sys2Proof

@[simp] theorem length_zeros (n : Nat) : (zeros n).length = n := by simp [zeros]

@[simp] theorem length_bin (n x : Nat) : (bin n x).length = n := by
  induction n with
  | zero => rfl
  | succ n ih => simp [bin, ih]

theorem val_lt (s : Bits) : val s < 2 ^ s.length := by
  induction s with
  | nil => simp [val]
  | cons b s ih =>
    cases b <;> simp [val, Nat.pow_succ] <;> omega

theorem val_append (s t : Bits) : val (s ++ t) = val s * 2 ^ t.length + val t := by
  induction s with
  | nil => simp [val]
  | cons b s ih =>
    simp only [List.cons_append, val, ih, List.length_append, Nat.pow_add]
    ring

@[simp] theorem val_zeros (n : Nat) : val (zeros n) = 0 := by
  induction n with
  | zero => rfl
  | succ n ih => simpa [zeros, val, List.replicate_succ] using ih

/-- Taking one more low bit of a number. -/
theorem mod_two_pow_succ (x n : Nat) : x % 2 ^ (n + 1) = (x.testBit n).toNat * 2 ^ n + x % 2 ^ n := by
  rw [Nat.pow_succ, Nat.mod_mul, Nat.testBit_eq_decide_div_mod_eq]
  rcases Nat.mod_two_eq_zero_or_one (x / 2 ^ n) with h | h <;> simp [h, Nat.add_comm]

/-- The number that the `n` low bits of `x` spell is `x mod 2^n`. -/
theorem val_bin (n x : Nat) : val (bin n x) = x % 2 ^ n := by
  induction n with
  | zero => simp [bin, val, Nat.mod_one]
  | succ n ih =>
    rw [bin, val, length_bin, ih, mod_two_pow_succ]

/-- Testing a bit of the number that a string spells. -/
theorem bin_val (s : Bits) : bin s.length (val s) = s := by
  suffices h : ∀ x, x % 2 ^ s.length = val s → bin s.length x = s from h _ (Nat.mod_eq_of_lt (val_lt s))
  induction s with
  | nil => intro x _; rfl
  | cons b s ih =>
    intro x hx
    have hlt := val_lt s
    have hlow : x % 2 ^ s.length = val s := by
      have h := congrArg (· % 2 ^ s.length) hx
      simp only [List.length_cons, val] at h
      rw [Nat.mod_mod_of_dvd _ (Nat.pow_dvd_pow 2 (Nat.le_succ _)), Nat.mul_comm, Nat.mul_add_mod] at h
      rw [h, Nat.mod_eq_of_lt hlt]
    have hbit : x.testBit s.length = b := by
      rw [List.length_cons, mod_two_pow_succ, hlow, val] at hx
      cases b <;> cases h : x.testBit s.length <;> simp_all
    rw [List.length_cons, bin, hbit, ih x hlow]

theorem leadingZeros_zeros_append (n : Nat) (s : Bits) : leadingZeros (zeros n ++ true :: s) = n := by
  induction n with
  | zero => simp [zeros, leadingZeros]
  | succ n ih =>
    rw [zeros, List.replicate_succ, List.cons_append, leadingZeros]
    exact congrArg (· + 1) ih

/-- A bit string is its leading zeros and then either nothing or a 1 bit. -/
theorem leadingZeros_spec (s : Bits) :
    s = zeros (leadingZeros s) ∨ ∃ t, s = zeros (leadingZeros s) ++ true :: t := by
  induction s with
  | nil => left; rfl
  | cons b s ih =>
    cases b with
    | true => right; exact ⟨s, by simp [leadingZeros, zeros]⟩
    | false =>
      rcases ih with h | ⟨t, h⟩
      · left; simpa [leadingZeros, zeros, List.replicate_succ] using h
      · right; exact ⟨t, by simpa [leadingZeros, zeros, List.replicate_succ] using h⟩

end Sys2Proof
end

