-- ==== Sys2Proof/Laws/Decode.lean ====
section
/-! SUPPORT. Lemmas of the decoder: the fields of a command word, the operand formats, and what reading a codeword gives. -/

namespace Sys2Proof

@[simp] theorem opcodeOf_commandWord (opc : OpcodeByte) (op : BitVec 64) : opcodeOf (commandWord opc op) = opc := by
  apply BitVec.eq_of_getLsbD_eq
  intro i hi
  simp only [opcodeOf, commandWord, BitVec.getLsbD_extractLsb', hi, decide_true, Bool.true_and, BitVec.getLsbD_append]
  rw [if_neg (by omega)]
  congr 1
  omega

@[simp] theorem operandOf_commandWord (opc : OpcodeByte) (op : BitVec 64) : operandOf (commandWord opc op) = op := by
  apply BitVec.eq_of_getLsbD_eq
  intro i hi
  simp only [operandOf, commandWord, BitVec.getLsbD_extractLsb', hi, decide_true, Bool.true_and, BitVec.getLsbD_append,
    Nat.zero_add, if_true]

/-- A command word is its opcode byte and its operand. -/
theorem commandWord_fields (c : CommandWord) : commandWord (opcodeOf c) (operandOf c) = c := by
  apply BitVec.eq_of_getLsbD_eq
  intro i hi
  simp only [opcodeOf, operandOf, commandWord, BitVec.getLsbD_append, BitVec.getLsbD_extractLsb', Nat.zero_add]
  split
  · simp [*]
  · rw [show 64 + (i - 64) = i by omega]
    simp [show i - 64 < 8 by omega]

/-- The reserved operand bits are zero exactly when the operand is the extension of its used bits. -/
theorem reservedZero_iff (f : Format) (op : BitVec 64) : f.reservedZero op = true ↔ op.toNat < 2 ^ f.usedBits := by
  simp [Format.reservedZero]

theorem reservedZero_setWidth (f : Format) {n : Nat} (v : BitVec n) (h : n ≤ f.usedBits) :
    f.reservedZero (v.setWidth 64) = true := by
  rw [reservedZero_iff, BitVec.toNat_setWidth]
  have h1 := v.isLt
  have h2 : 2 ^ n ≤ 2 ^ f.usedBits := Nat.pow_le_pow_right (by omega) h
  have h3 := Nat.mod_le v.toNat (2 ^ 64)
  omega

@[simp] theorem setWidth_setWidth_of_le {n : Nat} (v : BitVec n) (h : n ≤ 64) : (v.setWidth 64).setWidth n = v := by
  apply BitVec.eq_of_toNat_eq
  have h1 := v.isLt
  have h2 : 2 ^ n ≤ 2 ^ 64 := Nat.pow_le_pow_right (by omega) h
  rw [BitVec.toNat_setWidth, BitVec.toNat_setWidth, Nat.mod_eq_of_lt (a := v.toNat) (by omega), Nat.mod_eq_of_lt h1]

/-- What `withFormat` answers, once and for all (R62). -/
theorem withFormat_cases (f : Format) (opc : OpcodeByte) (op : BitVec 64) (i : Instr) :
    (op.toNat < 2 ^ f.usedBits ∧ withFormat f opc op i = .instr i) ∨
      (2 ^ f.usedBits ≤ op.toNat ∧ withFormat f opc op i = .operandError opc) := by
  rw [withFormat]
  split
  · next h => exact .inl ⟨(reservedZero_iff f op).mp h, rfl⟩
  · next h => exact .inr ⟨Nat.le_of_not_lt fun h' => h ((reservedZero_iff f op).mpr h'), rfl⟩

/-- With its prefix known, what reading a codeword does with the rest (R153). -/
theorem readCodeword_prefix (k q : Nat) (body : Bits) :
    readCodeword k (zeros q ++ true :: body) =
      if q = 8 then
        if body.length < 16 then none else some (.esc (BitVec.ofNat 16 (val (body.take 16))), body.drop 16)
      else
        match body with
        | [] => none
        | sign :: field =>
          if field.length < k then none else some (.rice q k sign (val (field.take k)), field.drop k) := by
  have hdrop : (zeros q ++ true :: body).drop q = true :: body := by
    rw [List.drop_append_of_le_length (by simp)]
    simp [zeros]
  unfold readCodeword
  simp only [leadingZeros_zeros_append, hdrop]
  rfl

/-- A bit string without a 1 bit holds no codeword (R153, R156 item 5). -/
theorem readCodeword_zeros (k n : Nat) : readCodeword k (zeros n) = none := by
  have h : leadingZeros (zeros n) = n := by
    induction n with
    | zero => rfl
    | succ n ih => rw [zeros, List.replicate_succ, leadingZeros]; exact congrArg (· + 1) ih
  have hd : (zeros n).drop n = [] := by simp [zeros]
  simp only [readCodeword, h, hd]

end Sys2Proof
end

