-- ==== Sys2Proof/Laws/Memory.lean ====
section
/-! SUPPORT. The laws of WBUF's memory: read after write, and every write keeps the canonical form. -/

namespace Sys2Proof.Machine

@[simp] theorem read_nil (i : Nat) : Memory.read [] i = none := rfl

theorem wf_tail {c : Nat × Num64} {m : Memory} (h : Memory.wf (c :: m) = true) : Memory.wf m = true := by
  cases m with
  | nil => rfl
  | cons d m => simp only [Memory.wf, Bool.and_eq_true] at h; exact h.2

theorem wf_head_lt {c d : Nat × Num64} {m : Memory} (h : Memory.wf (c :: d :: m) = true) : c.1 < d.1 := by
  simp only [Memory.wf, Bool.and_eq_true, decide_eq_true_eq] at h; exact h.1

/-- Below its first index a canonical memory lists nothing. -/
theorem read_below {m : Memory} {i : Nat} (h : Memory.wf m = true) (hi : ∀ c ∈ m.head?, i < c.1) :
    Memory.read m i = none := by
  induction m with
  | nil => rfl
  | cons c m ih =>
    have hc : i < c.1 := hi c (by simp)
    rw [Memory.read, if_neg (by omega)]
    refine ih (wf_tail h) fun d hd => ?_
    cases m with
    | nil => simp at hd
    | cons e m =>
      simp only [List.head?_cons, Option.mem_some_iff] at hd
      subst hd
      exact Nat.lt_trans hc (wf_head_lt h)

/-- Reading the written cell gives the written value. -/
theorem read_write_same (m : Memory) (i : Nat) (x : Num64) : Memory.read (Memory.write m i x) i = some x := by
  induction m with
  | nil => simp [Memory.write, Memory.read]
  | cons c m ih =>
    rw [Memory.write]
    split
    · simp [Memory.read]
    · split
      · simp [Memory.read]
      · rw [Memory.read, if_neg (by omega), ih]

/-- A write leaves every other cell as it was. -/
theorem read_write_other (m : Memory) {i j : Nat} (x : Num64) (h : j ≠ i) :
    Memory.read (Memory.write m i x) j = Memory.read m j := by
  induction m with
  | nil => simp [Memory.write, Memory.read, Ne.symm h]
  | cons c m ih =>
    rw [Memory.write]
    split
    · rw [Memory.read, if_neg (Ne.symm h)]
    · split
      · next hc => rw [Memory.read, if_neg (Ne.symm h), Memory.read, if_neg (by omega)]
      · rw [Memory.read, Memory.read, ih]

theorem head_write (m : Memory) (i : Nat) (x : Num64) :
    ∀ c ∈ (Memory.write m i x).head?, c.1 = i ∨ ∃ d ∈ m.head?, c.1 = d.1 := by
  intro c hc
  cases m with
  | nil => simp only [Memory.write, List.head?_cons, Option.mem_some_iff] at hc; subst hc; exact .inl rfl
  | cons d m =>
    rw [Memory.write] at hc
    split at hc
    · simp only [List.head?_cons, Option.mem_some_iff] at hc; subst hc; exact .inl rfl
    · split at hc
      · simp only [List.head?_cons, Option.mem_some_iff] at hc; subst hc; exact .inl rfl
      · simp only [List.head?_cons, Option.mem_some_iff] at hc; subst hc; exact .inr ⟨d, by simp, rfl⟩

theorem wf_cons {c : Nat × Num64} {m : Memory} (h : Memory.wf m = true) (hc : ∀ d ∈ m.head?, c.1 < d.1) :
    Memory.wf (c :: m) = true := by
  cases m with
  | nil => rfl
  | cons d m => simp only [Memory.wf, Bool.and_eq_true, decide_eq_true_eq]; exact ⟨hc d (by simp), h⟩

/-- A write keeps the canonical form. -/
theorem wf_write {m : Memory} (i : Nat) (x : Num64) (h : Memory.wf m = true) : Memory.wf (Memory.write m i x) = true := by
  induction m with
  | nil => rfl
  | cons c m ih =>
    rw [Memory.write]
    split
    · next hi => exact wf_cons h (by simpa using hi)
    · split
      · next hi =>
        refine wf_cons (wf_tail h) fun d hd => ?_
        cases m with
        | nil => simp at hd
        | cons e m =>
          simp only [List.head?_cons, Option.mem_some_iff] at hd
          subst hd
          subst hi
          exact wf_head_lt h
      · next hlt hne =>
        refine wf_cons (ih (wf_tail h)) fun d hd => ?_
        rcases head_write m i x d hd with hd | ⟨e, he, hd⟩
        · omega
        · rw [hd]
          cases m with
          | nil => simp at he
          | cons e' m =>
            simp only [List.head?_cons, Option.mem_some_iff] at he
            subst he
            exact wf_head_lt h

/-- Reading `n` cells answers exactly when each was written, with their values in order. -/
theorem readFrom_eq_some_iff (m : Memory) (i n : Nat) (xs : List Num64) :
    Memory.readFrom m i n = some xs ↔ xs.length = n ∧ ∀ j (h : j < xs.length), Memory.read m (i + j) = some xs[j] := by
  induction n generalizing i xs with
  | zero =>
    simp only [Memory.readFrom, Option.some.injEq]
    constructor
    · rintro rfl; simp
    · rintro ⟨h, -⟩; exact (List.length_eq_zero_iff.mp h).symm
  | succ n ih =>
    rw [Memory.readFrom]
    cases hx : Memory.read m i with
    | none =>
      simp only [reduceCtorEq, false_iff]
      rintro ⟨hl, hr⟩
      have := hr 0 (by omega)
      simp [hx] at this
    | some x =>
      cases hr : Memory.readFrom m (i + 1) n with
      | none =>
        simp only [reduceCtorEq, false_iff]
        rintro ⟨hl, h⟩
        cases xs with
        | nil => simp at hl
        | cons y ys =>
          have : Memory.readFrom m (i + 1) n = some ys := (ih (i + 1) ys).mpr
            ⟨by simpa using hl, fun j hj => by
              have := h (j + 1) (by simpa using hj)
              simpa [Nat.add_assoc, Nat.add_comm 1 j] using this⟩
          simp [hr] at this
      | some ys =>
        have hys := (ih (i + 1) ys).mp hr
        simp only [Option.some.injEq]
        constructor
        · rintro rfl
          refine ⟨by simp [hys.1], fun j hj => ?_⟩
          cases j with
          | zero => simpa using hx
          | succ j =>
            have := hys.2 j (by simpa using hj)
            simpa [Nat.add_assoc, Nat.add_comm 1 j] using this
        · rintro ⟨hl, h⟩
          cases xs with
          | nil => simp at hl
          | cons z zs =>
            have h0 := h 0 (by simp)
            simp only [Nat.add_zero, hx, List.getElem_cons_zero, Option.some.injEq] at h0
            have : Memory.readFrom m (i + 1) n = some zs := (ih (i + 1) zs).mpr
              ⟨by simpa using hl, fun j hj => by
                have := h (j + 1) (by simpa using hj)
                simpa [Nat.add_assoc, Nat.add_comm 1 j] using this⟩
            rw [hr] at this
            simp only [Option.some.injEq] at this
            rw [h0, this]

/-- Cells that are all written can be read. -/
theorem readFrom_isSome (m : Memory) (i n : Nat) (h : ∀ j, j < n → (Memory.read m (i + j)).isSome = true) :
    ∃ xs, Memory.readFrom m i n = some xs := by
  induction n generalizing i with
  | zero => exact ⟨[], rfl⟩
  | succ n ih =>
    obtain ⟨xs, hxs⟩ := ih (i + 1) fun j hj => by
      have := h (j + 1) (by omega)
      simpa [Nat.add_assoc, Nat.add_comm 1 j] using this
    obtain ⟨x, hx⟩ := Option.isSome_iff_exists.mp (h 0 (by omega))
    exact ⟨x :: xs, by rw [Memory.readFrom, hxs]; simp only [Nat.add_zero] at hx; rw [hx]⟩

end Sys2Proof.Machine
end

