-- ==== Sys2Proof/Laws/State.lean ====
section
/-! SUPPORT. One lemma per field per update: what each named operation leaves in each field of the state. -/

namespace Sys2Proof.Machine

section
variable (s : State) (rs : List Response) (r : Response) (opc : OpcodeByte) (e : ErrCode) (c : CommandWord) (bits : Bits)

@[simp] theorem emitAll_p : (emitAll rs s).p = s.p := rfl
@[simp] theorem emitAll_errlog : (emitAll rs s).errlog = s.errlog := rfl
@[simp] theorem emitAll_ck : (emitAll rs s).ck = s.ck := rfl
@[simp] theorem emitAll_re : (emitAll rs s).re = s.re := rfl
@[simp] theorem emitAll_rd : (emitAll rs s).rd = s.rd := rfl
@[simp] theorem emitAll_tx : (emitAll rs s).tx = s.tx := rfl
@[simp] theorem emitAll_tf : (emitAll rs s).tf = s.tf := rfl
@[simp] theorem emitAll_td : (emitAll rs s).td = s.td := rfl
@[simp] theorem emitAll_commands : (emitAll rs s).commands = s.commands := rfl
@[simp] theorem emitAll_responses : (emitAll rs s).responses = s.responses ++ rs.map Response.record := rfl
@[simp] theorem emitAll_draws : (emitAll rs s).draws = s.draws := rfl
@[simp] theorem emitAll_settings : (emitAll rs s).settings = s.settings := rfl

@[simp] theorem emit_p : (emit r s).p = s.p := rfl
@[simp] theorem emit_errlog : (emit r s).errlog = s.errlog := rfl
@[simp] theorem emit_ck : (emit r s).ck = s.ck := rfl
@[simp] theorem emit_re : (emit r s).re = s.re := rfl
@[simp] theorem emit_rd : (emit r s).rd = s.rd := rfl
@[simp] theorem emit_tx : (emit r s).tx = s.tx := rfl
@[simp] theorem emit_tf : (emit r s).tf = s.tf := rfl
@[simp] theorem emit_td : (emit r s).td = s.td := rfl
@[simp] theorem emit_commands : (emit r s).commands = s.commands := rfl
@[simp] theorem emit_responses : (emit r s).responses = s.responses ++ [r.record] := rfl
@[simp] theorem emit_draws : (emit r s).draws = s.draws := rfl
@[simp] theorem emit_settings : (emit r s).settings = s.settings := rfl

@[simp] theorem raise_p : (raise opc e s).p = s.p := rfl
@[simp] theorem raise_errlog : (raise opc e s).errlog = s.errlog ||| e.bit := rfl
@[simp] theorem raise_ck : (raise opc e s).ck = s.ck := rfl
@[simp] theorem raise_re : (raise opc e s).re = s.re := rfl
@[simp] theorem raise_rd : (raise opc e s).rd = s.rd := rfl
@[simp] theorem raise_tx : (raise opc e s).tx = s.tx := rfl
@[simp] theorem raise_tf : (raise opc e s).tf = s.tf := rfl
@[simp] theorem raise_td : (raise opc e s).td = s.td := rfl
@[simp] theorem raise_commands : (raise opc e s).commands = s.commands := rfl
@[simp] theorem raise_responses : (raise opc e s).responses = s.responses ++ [(Response.err e opc).record] := rfl
@[simp] theorem raise_draws : (raise opc e s).draws = s.draws := rfl
@[simp] theorem raise_settings : (raise opc e s).settings = s.settings := rfl

@[simp] theorem present_p : (present c s).p = s.p := rfl
@[simp] theorem present_errlog : (present c s).errlog = s.errlog := rfl
@[simp] theorem present_ck : (present c s).ck = s.ck := rfl
@[simp] theorem present_re : (present c s).re = s.re := rfl
@[simp] theorem present_rd : (present c s).rd = s.rd := rfl
@[simp] theorem present_tx : (present c s).tx = s.tx := rfl
@[simp] theorem present_tf : (present c s).tf = s.tf := rfl
@[simp] theorem present_td : (present c s).td = s.td := rfl
@[simp] theorem present_commands : (present c s).commands = c :: s.commands := rfl
@[simp] theorem present_responses : (present c s).responses = s.responses := rfl
@[simp] theorem present_draws : (present c s).draws = s.draws := rfl
@[simp] theorem present_settings : (present c s).settings = s.settings := rfl

@[simp] theorem append_p : (append bits s).p = s.p := rfl
@[simp] theorem append_errlog : (append bits s).errlog = s.errlog := rfl
@[simp] theorem append_ck : (append bits s).ck = s.ck := rfl
@[simp] theorem append_re : (append bits s).re = { s.re with acc := (cutWords ((s.re.acc ++ bits).length / 32) (s.re.acc ++ bits)).2 } := rfl
@[simp] theorem append_rd : (append bits s).rd = s.rd := rfl
@[simp] theorem append_tx : (append bits s).tx = s.tx := rfl
@[simp] theorem append_tf : (append bits s).tf = s.tf := rfl
@[simp] theorem append_td : (append bits s).td = s.td := rfl
@[simp] theorem append_commands : (append bits s).commands = s.commands := rfl
@[simp] theorem append_responses : (append bits s).responses = s.responses ++ ((cutWords ((s.re.acc ++ bits).length / 32) (s.re.acc ++ bits)).1.map Response.word).map Response.record := rfl
@[simp] theorem append_draws : (append bits s).draws = s.draws := rfl
@[simp] theorem append_settings : (append bits s).settings = s.settings := rfl

@[simp] theorem resetCore_p : (resetCore s).p = State.reset.p := rfl
@[simp] theorem resetCore_errlog : (resetCore s).errlog = State.reset.errlog := rfl
@[simp] theorem resetCore_ck : (resetCore s).ck = State.reset.ck := rfl
@[simp] theorem resetCore_re : (resetCore s).re = State.reset.re := rfl
@[simp] theorem resetCore_rd : (resetCore s).rd = State.reset.rd := rfl
@[simp] theorem resetCore_tx : (resetCore s).tx = State.reset.tx := rfl
@[simp] theorem resetCore_tf : (resetCore s).tf = State.reset.tf := rfl
@[simp] theorem resetCore_td : (resetCore s).td = State.reset.td := rfl
@[simp] theorem resetCore_commands : (resetCore s).commands = s.commands := rfl
@[simp] theorem resetCore_responses : (resetCore s).responses = s.responses := rfl
@[simp] theorem resetCore_draws : (resetCore s).draws = s.draws := rfl
@[simp] theorem resetCore_settings : (resetCore s).settings = s.settings := rfl

/-- The error action touches ERRLOG and the response port only (R242). -/
theorem raise_eq : raise opc e s =
    { s with errlog := s.errlog ||| e.bit, responses := s.responses ++ [(Response.err e opc).record] } := rfl

theorem emitAll_eq : emitAll rs s = { s with responses := s.responses ++ rs.map Response.record } := rfl

theorem emit_eq : emit r s = { s with responses := s.responses ++ [r.record] } := rfl

@[simp] theorem emitAll_nil : emitAll [] s = s := by simp [emitAll]

/-- Emitting two lists one after the other is emitting them in order (R51). -/
theorem emitAll_append (rs' : List Response) : emitAll rs' (emitAll rs s) = emitAll (rs ++ rs') s := by
  simp [emitAll]

end

end Sys2Proof.Machine
end

