-- ==== Sys2Proof/Laws/Ops.lean ====
section
/-! SUPPORT. For each shared operation, once, everything it can do. -/

namespace Sys2Proof.Machine

/-! ### Delay lines -/

@[simp] theorem push_length (d : DelayLine) (v : Int) : (push d v).2.length = d.length := by
  simp [push]

/-- On a list with no slot, which is no delay line (R196), `push` gives the value pushed (log entry 26). -/
theorem push_nil (v : Int) : push [] v = (v, []) := rfl

/-- On a line that has a tail, `push` gives the tail and shifts the rest (R197). -/
theorem push_concat (d : DelayLine) (t v : Int) : push (d ++ [t]) v = (t, v :: d) := by
  have h : v :: (d ++ [t]) = (v :: d) ++ [t] := rfl
  simp only [push, List.getLastD_concat, h, List.dropLast_concat]

@[simp] theorem freshLine_length (n : Nat) : (freshLine n).length = n := by simp [freshLine]

/-! ### The step -/

/-- Everything a step can do (R50, R242): wait, execute the decoded command, or take the error action. -/
theorem step_cases (s : State) :
    (s.commands = [] ∧ step s = .next s) ∨
    ∃ c rest, s.commands = c :: rest ∧
      ((∃ i, decodeCommand c = .instr i ∧ step s = exec i { s with commands := rest }) ∨
       (∃ opc, decodeCommand c = .illegalOpcode opc ∧ step s = .next (raise opc .illegalOpcode { s with commands := rest })) ∨
       (∃ opc, decodeCommand c = .operandError opc ∧ step s = .next (raise opc .operand { s with commands := rest }))) := by
  cases h : s.commands with
  | nil => left; exact ⟨rfl, by simp [step, accept, h]⟩
  | cons c rest =>
    right
    refine ⟨c, rest, rfl, ?_⟩
    cases hd : decodeCommand c with
    | instr i => left; exact ⟨i, rfl, by simp [step, accept, h, hd]⟩
    | illegalOpcode opc => right; left; exact ⟨opc, rfl, by simp [step, accept, h, hd]⟩
    | operandError opc => right; right; exact ⟨opc, rfl, by simp [step, accept, h, hd]⟩

/-! ### Shared meanings -/

/-- Everything `withFinite` can do (R62, R245). -/
theorem withFinite_cases (opc : OpcodeByte) (x : Num64) (s t : State) :
    (Num64.isFinite x = true ∧ withFinite opc x s t = .next t) ∨
      (Num64.isFinite x = false ∧ withFinite opc x s t = .next (raise opc .operand s)) := by
  cases h : Num64.isFinite x <;> simp [withFinite, h]

/-- Everything a kernel command can do (R122, R123, R126). -/
theorem runKernel_cases (opc : OpcodeByte) (minLen : Nat) (weight : Nat → Rat) (s : State) :
    (kernelRefused minLen s.p.rise.toNat s.p.len.toNat (rat s.p.tau) = true ∧
        runKernel opc minLen weight s = .next (raise opc .config s)) ∨
      (kernelRefused minLen s.p.rise.toNat s.p.len.toNat (rat s.p.tau) = false ∧
        runKernel opc minLen weight s = .next (emitAll (kernelRecords minLen s.p.len.toNat weight) s)) := by
  cases h : kernelRefused minLen s.p.rise.toNat s.p.len.toNat (rat s.p.tau) <;> simp [runKernel, h]

/-- Everything a readout can do (R184, R186). -/
theorem readout_cases (cells : List Num64) (lo hi : Int) :
    ((lo < 0 ∨ (cells.length : Int) - 1 < hi) ∧ readout cells lo hi = none) ∨
    (0 ≤ lo ∧ hi ≤ (cells.length : Int) - 1 ∧
      ((lo = hi ∧ readout cells lo hi = some (cells.getD lo.toNat 0#64)) ∨
        (lo ≠ hi ∧ readout cells lo hi = some (fl ((((cells.drop lo.toNat).take (hi - lo + 1).toNat).map rat).sum /
          ((hi - lo + 1 : Int) : Rat)))))) := by
  unfold readout
  split_ifs with h e
  · exact .inl ⟨h, rfl⟩
  · exact .inr ⟨by omega, by omega, .inl ⟨e, rfl⟩⟩
  · exact .inr ⟨by omega, by omega, .inr ⟨e, rfl⟩⟩

/-- Everything a run command can do (R174 to R176, R185, R186). -/
theorem runExtract_cases (opc : OpcodeByte) (v : Variant) (s : State) :
    ((rat s.p.pct ≤ 0 ∨ 1 ≤ rat s.p.pct) ∧ runExtract opc v s = .next (raise opc .config s)) ∨
    (0 < rat s.p.pct ∧ rat s.p.pct < 1 ∧
      ((Memory.readFrom s.tx.wbuf 0 s.tx.wlen = none ∧ runExtract opc v s = .fault .unwrittenCell) ∨
       ∃ cells, Memory.readFrom s.tx.wbuf 0 s.tx.wlen = some cells ∧
        runExtract opc v s = .next (emitExtraction (extract v (extractArgs s.p) cells) s))) := by
  by_cases h : rat s.p.pct ≤ 0 ∨ 1 ≤ rat s.p.pct
  · left
    refine ⟨h, ?_⟩
    have h' : (extractArgs s.p).pct ≤ 0 ∨ 1 ≤ (extractArgs s.p).pct := h
    simp only [runExtract, if_pos h']
  · right
    have h' : ¬((extractArgs s.p).pct ≤ 0 ∨ 1 ≤ (extractArgs s.p).pct) := h
    rw [not_or, not_le, not_le] at h
    refine ⟨h.1, h.2, ?_⟩
    cases hr : Memory.readFrom s.tx.wbuf 0 s.tx.wlen with
    | none => left; exact ⟨rfl, by simp only [runExtract, if_neg h', hr]⟩
    | some cells => right; exact ⟨cells, rfl, by simp only [runExtract, if_neg h', hr]⟩

/-- Cells that are all filled can be read. -/
theorem readFrom_of_filled {s : State} (h : Filled s) :
    ∃ cells, Memory.readFrom s.tx.wbuf 0 s.tx.wlen = some cells :=
  readFrom_isSome _ _ _ fun j hj => by simpa using h j hj

/-- Result emission touches the response port and the draws only (R186). -/
theorem emitExtraction_frame (r : Option (Num64 × Rat)) (s : State) :
    ∃ rs n, emitExtraction r s = { s with responses := s.responses ++ rs, draws := s.draws + n } := by
  cases r with
  | none => exact ⟨_, 2, rfl⟩
  | some r => exact ⟨_, 0, rfl⟩

/-! ### The decoder -/

/-- Emitting a sample touches the response port and the draws only (R156). -/
theorem emitSample_frame (v : Int) (s : State) :
    ∃ h n, emitSample v s = { s with responses := s.responses ++ [(Response.samp h).record], draws := s.draws + n } := by
  cases hf : fits16 v with
  | true => exact ⟨tc16 v, 0, by simp only [emitSample, hf]; rfl⟩
  | false => exact ⟨Config.freeSample s.draws, 1, by simp only [emitSample, hf]; rfl⟩

/-- Everything `takeCodeword` can do (R155). -/
theorem takeCodeword_cases (cw : Codeword) (s : State) :
    (¬(s.rd.active = true ∧ 0 < s.rd.remaining) ∧ takeCodeword cw s = s) ∨
    ((s.rd.active = true ∧ 0 < s.rd.remaining) ∧
      ∃ t, t = emitSample (valueOf cw)
          { s with rd := { s.rd with buf := s.rd.buf.drop (lengthOf cw), remaining := s.rd.remaining - 1 } } ∧
        takeCodeword cw s = closeIfDone t) := by
  by_cases h : s.rd.active = true ∧ 0 < s.rd.remaining
  · exact .inr ⟨h, _, rfl, by simp only [takeCodeword, if_pos h]⟩
  · exact .inl ⟨h, by simp only [takeCodeword, if_neg h]⟩

/-- Closing touches the decoder only (R155). -/
theorem closeIfDone_frame (s : State) : ∃ rd, closeIfDone s = { s with rd := rd } := by
  by_cases h : s.rd.remaining = 0
  · exact ⟨{ s.rd with buf := [], active := false }, by simp only [closeIfDone, if_pos h]⟩
  · exact ⟨s.rd, by simp only [closeIfDone, if_neg h]⟩

/-- Taking a codeword touches the decoder, the response port and the draws only. -/
theorem takeCodeword_frame (cw : Codeword) (s : State) :
    ∃ rd rs n, takeCodeword cw s = { s with rd := rd, responses := s.responses ++ rs, draws := s.draws + n } := by
  rcases takeCodeword_cases cw s with ⟨-, h⟩ | ⟨-, t, ht, h⟩
  · exact ⟨s.rd, [], 0, by simp [h]⟩
  · obtain ⟨hw, n, hs⟩ := emitSample_frame (valueOf cw)
      { s with rd := { s.rd with buf := s.rd.buf.drop (lengthOf cw), remaining := s.rd.remaining - 1 } }
    obtain ⟨rd, hc⟩ := closeIfDone_frame t
    exact ⟨rd, _, n, by rw [h, hc, ht, hs]⟩

/-- The decode loop touches the decoder, the response port and the draws only. -/
theorem drainUpTo_frame (n : Nat) (s : State) :
    ∃ rd rs m, drainUpTo n s = { s with rd := rd, responses := s.responses ++ rs, draws := s.draws + m } := by
  induction n generalizing s with
  | zero =>
    obtain ⟨rd, h⟩ := closeIfDone_frame s
    exact ⟨rd, [], 0, by simp [drainUpTo, h]⟩
  | succ n ih =>
    rw [drainUpTo]
    split
    · obtain ⟨rd, h⟩ := closeIfDone_frame s
      exact ⟨rd, [], 0, by simp [h]⟩
    · split
      · exact ⟨s.rd, [], 0, by simp⟩
      · next cw _ =>
        obtain ⟨rd, rs, m, h⟩ := takeCodeword_frame cw.1 s
        obtain ⟨rd', rs', m', h'⟩ := ih (takeCodeword cw.1 s)
        exact ⟨rd', rs ++ rs', m + m', by rw [h', h]; simp [Nat.add_assoc]⟩

/-! ### The encoder -/

@[simp] theorem cutWords_length (n : Nat) (bits : Bits) : (cutWords n bits).1.length = n := by
  induction n generalizing bits with
  | zero => rfl
  | succ n ih => simp [cutWords, ih]

/-- What is left after `n` words are cut off (R139). -/
theorem cutWords_rest (n : Nat) (bits : Bits) : (cutWords n bits).2 = bits.drop (32 * n) := by
  induction n generalizing bits with
  | zero => simp [cutWords]
  | succ n ih => rw [cutWords, ih, List.drop_drop, Nat.mul_succ, Nat.add_comm 32]

/-- At most 31 bits stay pending (R136). -/
theorem append_pending (bits : Bits) (s : State) : (append bits s).re.acc.length < 32 := by
  simp only [append_re, cutWords_rest, List.length_drop]
  omega

end Sys2Proof.Machine
end

