-- ==== Sys2Proof/Tests/Slice0.lean ====
section
/-! SUPPORT. Own tests: ill-formed terms refused, every instruction's decoding from a word written out from the spec, one-step
tests on the spec's worked examples, and for every statement with hypotheses a state and operands that meet them. -/

namespace Sys2Proof.Tests

open Sys2Proof Sys2Proof.Machine

/-! One theorem after another: elaborated side by side, so many kernel evaluations ask for more threads than memory holds. -/
set_option Elab.async false

/-! ### WellFormed refuses -/

/-- A NaN, an infinity and a negative infinity as Num operands (R62, R245). -/
theorem test_wf_tau_nan : (Instr.setpTau 0x7FF8000000000000#64).wellFormed = false := by decide
theorem test_wf_pct_inf : (Instr.setpPct 0x7FF0000000000000#64).wellFormed = false := by decide
theorem test_wf_load_neg_inf : (Instr.txLoad 0xFFF0000000000000#64).wellFormed = false := by decide
/-- A remainder width above 31 and a remainder of too many bits (R71, R72). -/
theorem test_wf_width : (Instr.cwQ0 32 false 0).wellFormed = false := by decide
theorem test_wf_remainder : (Instr.cwQ7 2 true 4).wellFormed = false := by decide
/-- A malformed-stream codeword has a count above 8 (R77); a count of 8 is an escape (R75). -/
theorem test_wf_qn_count : (Instr.cwQN 8 2 false 0).wellFormed = false := by decide
theorem test_wf_rice_count : (Codeword.rice 8 2 false 0).wellFormed = false := by decide
/-- A subnormal and a negative zero are accepted (R245). -/
theorem test_wf_subnormal : (Instr.txLoad 1#64).wellFormed = true ∧ (Instr.txLoad 0x8000000000000000#64).wellFormed = true := by
  decide

/-! ### Decoding: the words are written out from R61 to R63 -/

theorem test_decode_nop : decodeCommand 0x000000000000000000#72 = .instr (.nop) := by decide
theorem test_decode_reset : decodeCommand 0x010000000000000000#72 = .instr (.reset) := by decide
theorem test_decode_stat : decodeCommand 0x020000000000000000#72 = .instr (.stat) := by decide
theorem test_decode_setpRise : decodeCommand 0x100000000000000271#72 = .instr (.setpRise 625#32) := by decide
theorem test_decode_setpTop : decodeCommand 0x110000000000000064#72 = .instr (.setpTop 100#32) := by decide
theorem test_decode_setpTau : decodeCommand 0x124093880000000000#72 = .instr (.setpTau 0x4093880000000000#64) := by decide
theorem test_decode_setpLen : decodeCommand 0x130000000000000007#72 = .instr (.setpLen 7#32) := by decide
theorem test_decode_setpM : decodeCommand 0x140000000000000004#72 = .instr (.setpM 4#32) := by decide
theorem test_decode_setpCount : decodeCommand 0x15000000000000000C#72 = .instr (.setpCount 12#32) := by decide
theorem test_decode_setpScale : decodeCommand 0x160000000000200000#72 = .instr (.setpScale 0x200000#24) := by decide
theorem test_decode_setpThr : decodeCommand 0x1700000000000001F4#72 = .instr (.setpThr 500#32) := by decide
theorem test_decode_setpPct : decodeCommand 0x183FE0000000000000#72 = .instr (.setpPct 0x3FE0000000000000#64) := by decide
theorem test_decode_setpShift : decodeCommand 0x1900000000FFFFFFFF#72 = .instr (.setpShift (-1#32)) := by decide
theorem test_decode_setpMean : decodeCommand 0x1A00000000FFFFFFFD#72 = .instr (.setpMean (-3#32)) := by decide
theorem test_decode_ckStart : decodeCommand 0x200000000000000000#72 = .instr (.ckStart) := by decide
theorem test_decode_ckPush : decodeCommand 0x21000000000000FFFB#72 = .instr (.ckPush 65531#16) := by decide
theorem test_decode_ckFin : decodeCommand 0x220000000000000000#72 = .instr (.ckFin) := by decide
theorem test_decode_kgTrap1 : decodeCommand 0x300000000000000000#72 = .instr (.kgTrap1) := by decide
theorem test_decode_kgTrap2 : decodeCommand 0x310000000000000000#72 = .instr (.kgTrap2) := by decide
theorem test_decode_reStart : decodeCommand 0x400000000000000000#72 = .instr (.reStart) := by decide
theorem test_decode_rePush : decodeCommand 0x410000000000000005#72 = .instr (.rePush 5#16) := by decide
theorem test_decode_reFlush : decodeCommand 0x420000000000000000#72 = .instr (.reFlush) := by decide
theorem test_decode_rdStart : decodeCommand 0x500000000000000000#72 = .instr (.rdStart) := by decide
theorem test_decode_rdWord : decodeCommand 0x510000000048000000#72 = .instr (.rdWord 0x48000000#32) := by decide
theorem test_decode_txClear : decodeCommand 0x600000000000000000#72 = .instr (.txClear) := by decide
theorem test_decode_txLoad : decodeCommand 0x614010000000000000#72 = .instr (.txLoad 0x4010000000000000#64) := by decide
theorem test_decode_txRun1 : decodeCommand 0x620000000000000000#72 = .instr (.txRun1) := by decide
theorem test_decode_txRun2 : decodeCommand 0x630000000000000000#72 = .instr (.txRun2) := by decide
theorem test_decode_tfStart : decodeCommand 0x700000000000000000#72 = .instr (.tfStart) := by decide
theorem test_decode_tfPush : decodeCommand 0x710000000000000003#72 = .instr (.tfPush 3#16) := by decide
theorem test_decode_tdStart : decodeCommand 0x800000000000000000#72 = .instr (.tdStart) := by decide
theorem test_decode_tdPush : decodeCommand 0x81FFFFFFFFFFFFF830#72 = .instr (.tdPush (-2000#64)) := by decide
/-- The reserved opcode byte, an unassigned unit, a reserved operand bit of each format that has one (R62, R64). -/
theorem test_decode_reserved : decodeCommand 0x320000000000000000#72 = .illegalOpcode 0x32#8 := by decide
theorem test_decode_unassigned : decodeCommand 0x900000000000000005#72 = .illegalOpcode 0x90#8 := by decide
theorem test_decode_operand_z : decodeCommand 0x000000000000000001#72 = .operandError 0x00#8 := by decide
theorem test_decode_operand_h : decodeCommand 0x410000000000010000#72 = .operandError 0x41#8 := by decide
theorem test_decode_operand_s : decodeCommand 0x160000000001000000#72 = .operandError 0x16#8 := by decide
theorem test_decode_operand_w : decodeCommand 0x19FFFFFFFFFFFFFFFF#72 = .operandError 0x19#8 := by decide

/-! ### Decoding: the codewords, bit by bit from R77, with `k = 2` where the codeword has a remainder -/

/-- A bit string from its digits. -/
def bits (s : List Nat) : Bits := s.map (· == 1)

theorem test_decode_cwQ0 : decodeStream 2 (bits [1, 0, 1, 0, 1]) = some (.cwQ0 2 false 2) := by decide
theorem test_decode_cwQ1 : decodeStream 2 (bits [0, 1, 0, 0, 1]) = some (.cwQ1 2 false 1) := by decide
theorem test_decode_cwQ2 : decodeStream 2 (bits [0, 0, 1, 1, 1, 1]) = some (.cwQ2 2 true 3) := by decide
theorem test_decode_cwQ3 : decodeStream 2 (bits [0, 0, 0, 1, 0, 1, 0]) = some (.cwQ3 2 false 2) := by decide
theorem test_decode_cwQ4 : decodeStream 2 (bits [0, 0, 0, 0, 1, 1, 0, 0]) = some (.cwQ4 2 true 0) := by decide
theorem test_decode_cwQ5 : decodeStream 2 (bits [0, 0, 0, 0, 0, 1, 0, 1, 1]) = some (.cwQ5 2 false 3) := by decide
theorem test_decode_cwQ6 : decodeStream 2 (bits [0, 0, 0, 0, 0, 0, 1, 1, 0, 1]) = some (.cwQ6 2 true 1) := by decide
theorem test_decode_cwQ7 : decodeStream 2 (bits [0, 0, 0, 0, 0, 0, 0, 1, 0, 1, 1]) = some (.cwQ7 2 false 3) := by decide
theorem test_decode_cwEsc : decodeStream 2 (bits [0, 0, 0, 0, 0, 0, 0, 0, 1, 0, 0, 0, 0, 0, 0, 0, 0, 0, 0, 1, 0, 0, 0, 0, 0]) = some (.cwEsc 32#16) := by decide
theorem test_decode_cwQN : decodeStream 2 (bits [0, 0, 0, 0, 0, 0, 0, 0, 0, 1, 0, 1, 0]) = some (.cwQN 9 2 false 2) := by decide
/-- Incomplete codewords: no stop bit, a short escape, a short remainder (R153). -/
theorem test_decode_incomplete : decodeStream 2 (bits [0, 0, 0]) = none ∧
    decodeStream 2 (bits [0, 0, 0, 0, 0, 0, 0, 0, 1, 1, 1, 1, 1, 1, 1, 1, 1, 1, 1, 1, 1, 1, 1, 1]) = none ∧
    decodeStream 2 (bits [1, 0, 1]) = none := by decide

/-- The host's numbering: a command row and a codeword row. -/
theorem test_table_word : decodeTableWord 72 0x41000000000000FFFB = some (.rePush (-5#16)) ∧
    decodeTableWord 25 0x17FF8 = some (.cwEsc 0x7FF8#16) ∧
    decodeTableWord 32 0x17FF8 = some (.cwEsc 0x7FF8#16) ∧ decodeTableWord 5 0b01001 = some (.cwQ1 2 false 1) := by decide

/-! ### Bit strings, memory, numbers -/

theorem test_bin : bin 4 5 = bits [0, 1, 0, 1] ∧ val (bits [0, 1, 0, 1]) = 5 := by decide
theorem test_reset_memory : Memory.wf State.reset.tx.wbuf = true := by decide
theorem test_memory_write : Memory.write [(0, 7#64), (2, 9#64)] 1 8#64 = [(0, 7#64), (1, 8#64), (2, 9#64)] := by decide
/-- The value of PCT at reset (R13). -/
theorem test_rat_pct : rat 0x3FE999999999999A#64 = mkRat 3602879701896397 4503599627370496 := by decide +kernel
/-- The least subnormal and a negative number (R70). -/
theorem test_rat_edges : rat 1#64 = mkRat 1 (2 ^ 1074) ∧ rat 0xBFD0000000000000#64 = -1 / 4 := by decide +kernel
theorem test_fl_exact : fl (-1 / 4) = 0xBFD0000000000000#64 ∧ fl 0 = 0#64 := by decide +kernel
/-- The worked roundings of R204 and the halving of R201. -/
theorem test_round : [(-3 : Rat) / 2, -7 / 2, 13 / 2, 5 / 2].map (roundWith .halfEven) = [-2, -4, 6, 2] := by decide +kernel
theorem test_decimate : [decimate .floor (-7) 0, decimate .floor 3 4, decimate .floor 32767 32767, decimate .floor (-32768) (-32768)] =
    [-4, 3, 8191, -8192] := by decide
/-- The other settings that the spec names, for RND and DIV2 (N5, N6). -/
theorem test_settings : roundWith .halfAway (5 / 2) = 3 ∧ roundWith .halfAway (-5 / 2) = -3 ∧ roundWith .halfUp (-5 / 2) = -2 ∧
    decimate .truncate (-7) 0 = -3 := by decide +kernel
/-- `code(31,2)`, `code(32,2)` and `code(-8,0)` (R140). -/
theorem test_code : code 31 2 = bits [0, 0, 0, 0, 0, 0, 0, 1, 0, 1, 1] ∧
    code 32 2 = bits [0, 0, 0, 0, 0, 0, 0, 0, 1, 0, 0, 0, 0, 0, 0, 0, 0, 0, 0, 1, 0, 0, 0, 0, 0] ∧
    code (-8) 0 = bits [0, 0, 0, 0, 0, 0, 0, 0, 1, 0, 1, 1, 1, 1, 1, 1, 1, 1, 1, 1, 1, 1, 0, 0, 0] := by decide

/-! ### One step on the spec's examples -/

/-- The step that accepts one command word. -/
def stepOn (c : CommandWord) (s : State) : Result := step { s with commands := [c] }

/-- What the state after a step says, if there is one. -/
def sees {α : Type} (r : Result) (f : State → α) : Option α :=
  match r with
  | .next s => some (f s)
  | _ => none

/-- Whether a step answers a next state. -/
def completes (r : Result) : Bool := (sees r fun _ => ()).isSome

/-- The records of a step. -/
def recs (r : Result) : Option (List Record) := sees r State.responses

/-- The reset state with other parameters. -/
def withP (p : Params) : State := { State.reset with p := p }

/-- A decode job that expects `n` samples. -/
def rdJob (k n : Nat) (buf : Bits) : State := { State.reset with rd := { active := true, k := k, remaining := n, buf := buf } }

/-- An encode job. -/
def reJob (k : Nat) (acc : Bits) : State := { State.reset with re := { active := true, k := k, acc := acc } }

/-- A checksum job. -/
def ckJob (a b : Nat) : State := { State.reset with ck := { active := true, sum1 := a, sum2 := b } }

/-- The parameters of the kernel and filter examples: RISE = 2, TOP = 1, TAU = 2.0, SCALE = 0x200000, THR = 5. -/
def small : Params :=
  { Params.reset with rise := 2#32, top := 1#32, tau := 0x4000000000000000#64, scale := 0x200000#24, thr := 5#32 }

/-- A waveform of numbers loaded into the buffer. -/
def loaded (p : Params) (w : List Num64) : State :=
  { withP p with tx := { wlen := w.length, wbuf := (List.range w.length).zip w } }

/-- The sample 0 after 10 is a crossing by default and none with `sign(0) = 1` (R233). -/
theorem test_sign_zero : (signOf 0 0 ≠ signOf 0 10) ∧ signOf 1 0 = signOf 1 10 := by decide
theorem test_default_settings : State.reset.settings = { rnd := .halfEven, div2 := .floor, sgn0 := 0 } := by decide
theorem test_fetch_word : sees (step (State.reset.withFetchWord 72 0x140000000000000004)) id =
    some (withP { Params.reset with m := 4#32 }) := by decide
theorem test_fetch_codeword : recs (step (State.reset.withFetchWord 32 0x17FF8)) = some [0x51000000000000FFF8#72] ∧
    recs (step (State.reset.withFetchWord 5 0b01001)) = some [0x510000000000000005#72] := by decide

/-- A trigger job with RISE = 625, TOP = 100, THR = 500 (R222). -/
def tdJob (st : TdState) (idx : Nat) (prev : Int) (cross : Nat) : State :=
  { State.reset with td := {
      active := true, rise := 625#32, top := 100#32, thr := 500#32, wait := 387, off := 2075,
      idx := idx, st := st, prev := prev, cross := cross } }

/-- A filter job right after TF.START with the parameters of `small`, its last line holding `z`. -/
def tfJob (holdValid : Bool) (z : Int) : State :=
  { State.reset with tf := { freshFilter 2#32 1#32 2 (1 / 4) 3#16 with holdValid := holdValid, dZ := [z] } }

theorem test_step_nop : recs (stepOn 0x000000000000000000#72 State.reset) = some [] := by
  decide
theorem test_step_reset : sees (stepOn 0x010000000000000000#72 { withP { Params.reset with m := 3#32 } with errlog := 2#8 }) id = some State.reset := by
  decide
theorem test_step_stat_reset : recs (stepOn 0x020000000000000000#72 State.reset) = some [0x020000000000000000#72] := by
  decide
theorem test_step_stat_td : recs (stepOn 0x020000000000000000#72 (tdJob .waitDelay 0 0 0)) = some [0x020000000000021000#72] := by
  decide
theorem test_step_setpRise : sees (stepOn 0x100000000000000271#72 State.reset) (fun s => s.p.rise) = some 625#32 := by
  decide
theorem test_step_setpTop : sees (stepOn 0x110000000000000064#72 State.reset) (fun s => s.p.top) = some 100#32 := by
  decide
theorem test_step_setpTau : sees (stepOn 0x124093880000000000#72 State.reset) (fun s => rat s.p.tau) = some 1250 := by
  decide +kernel
theorem test_step_setpTau_nan : recs (stepOn 0x127FF8000000000000#72 State.reset) = some [0x0F0000000000001204#72] := by
  decide
theorem test_step_setpLen : sees (stepOn 0x130000000000000007#72 State.reset) (fun s => s.p.len) = some 7#32 := by
  decide
theorem test_step_setpM : sees (stepOn 0x140000000000000004#72 State.reset) (fun s => s.p.m) = some 4#32 := by
  decide
theorem test_step_setpCount : sees (stepOn 0x15000000000000000C#72 State.reset) (fun s => s.p.count) = some 12#32 := by
  decide
theorem test_step_setpScale : sees (stepOn 0x160000000000200000#72 State.reset) (fun s => s.p.scale) = some 0x200000#24 := by
  decide
theorem test_step_setpThr : sees (stepOn 0x1700000000000001F4#72 State.reset) (fun s => s.p.thr) = some 500#32 := by
  decide
theorem test_step_setpPct : sees (stepOn 0x183FE0000000000000#72 State.reset) (fun s => rat s.p.pct) = some (1 / 2) := by
  decide +kernel
theorem test_step_setpShift : sees (stepOn 0x1900000000FFFFFFFF#72 State.reset) (fun s => (extractArgs s.p).shift) = some (-1) := by
  decide
theorem test_step_setpMean : sees (stepOn 0x1A00000000FFFFFFFD#72 State.reset) (fun s => (extractArgs s.p).mean) = some (-3) := by
  decide
theorem test_step_ckStart : sees (stepOn 0x200000000000000000#72 (ckJob 6 10)) State.ck = some { active := true, sum1 := 0, sum2 := 0 } := by
  decide
theorem test_step_ckPush : sees (stepOn 0x210000000000000002#72 (ckJob 1 1)) State.ck = some { active := true, sum1 := 3, sum2 := 4 } := by
  decide
theorem test_step_ckFin : recs (stepOn 0x220000000000000000#72 (ckJob 6 10)) = some [0x2200000000000A0006#72] := by
  decide
theorem test_step_ckFin_closed : recs (stepOn 0x220000000000000000#72 State.reset) = some [0x0F0000000000002202#72] := by
  decide
theorem test_step_kgTrap1 : recs (stepOn 0x300000000000000000#72 (withP small)) = some [0x303FE0000000000000#72, 0x303FE8000000000000#72,
      0x303FE0000000000000#72, 0x300000000000000000#72, 0x30BFD0000000000000#72] := by
  decide +kernel
theorem test_step_kgTrap1_short : recs (stepOn 0x300000000000000000#72 (withP { small with len := 4#32 })) = some [0x0F0000000000003001#72] := by
  decide +kernel
theorem test_step_kgTrap2 : recs (stepOn 0x310000000000000000#72 (withP small)) =
    some (([-1 / 2, -3 / 4, -1 / 2, 1 / 2, 1, 1 / 2, 0, -1 / 4, 0, 0] : List Rat).map fun x => 0x30#8 ++ fl x) := by
  decide +kernel
theorem test_step_reStart : sees (stepOn 0x400000000000000000#72 (withP { Params.reset with m := 4#32 })) State.re =
    some { active := true, k := 2, acc := [] } := by
  decide
theorem test_step_reStart_bad : recs (stepOn 0x400000000000000000#72 (withP { Params.reset with m := 6#32 })) = some [0x0F0000000000004001#72] := by
  decide
theorem test_step_rePush : sees (stepOn 0x410000000000000005#72 (reJob 2 [])) (fun s => (s.re.acc, s.responses)) = some (bits [0, 1, 0, 0, 1], []) := by
  decide
theorem test_step_rePush_word : recs (stepOn 0x410000000000000005#72 (reJob 2 (bin 31 1))) = some [0x410000000000000002#72] := by
  decide
theorem test_step_reFlush : recs (stepOn 0x420000000000000000#72 (reJob 2 (bits [0, 1, 0, 0, 1]))) = some [0x410000000048000000#72] := by
  decide
theorem test_step_rdStart : sees (stepOn 0x500000000000000000#72 (withP { Params.reset with m := 4#32, count := 12#32 })) State.rd =
    some { active := true, k := 2, remaining := 12, buf := [] } := by
  decide
theorem test_step_rdStart_empty : sees (stepOn 0x500000000000000000#72 (withP { Params.reset with m := 4#32 })) State.rd =
    some { active := false, k := 2, remaining := 0, buf := [] } := by
  decide
theorem test_step_rdWord : sees (stepOn 0x510000000048000000#72 (rdJob 2 1 [])) (fun s => (s.responses, s.rd)) =
    some ([0x510000000000000005#72], { active := false, k := 2, remaining := 0, buf := [] }) := by
  decide
theorem test_step_txClear : sees (stepOn 0x600000000000000000#72 (loaded small [1#64])) State.tx = some { wlen := 0, wbuf := [(0, 1#64)] } := by
  decide
theorem test_step_txLoad_nan : recs (stepOn 0x617FF8000000000000#72 State.reset) = some [0x0F0000000000006104#72] := by
  decide
theorem test_step_txRun1_pct : recs (stepOn 0x620000000000000000#72 (withP { small with pct := 0x3FF0000000000000#64 })) =
    some [0x0F0000000000006201#72] := by
  decide +kernel
theorem test_step_tfStart : sees (stepOn 0x700000000000000000#72 (withP small)) (fun s =>
    ([s.tf.dB, s.tf.dC, s.tf.dD, s.tf.dF, s.tf.dK, s.tf.dL, s.tf.dN, s.tf.dQ, s.tf.dS, s.tf.dU, s.tf.dY, s.tf.dZ].map List.length,
      s.tf.sf)) = some ([2, 1, 2, 1, 1, 2, 1, 1, 3, 1, 1, 1], 1 / 4) := by
  decide +kernel
theorem test_step_tfPush_hold : sees (stepOn 0x710000000000000003#72 (tfJob false 0)) (fun s => (s.tf.hold, s.tf.holdValid, s.responses)) =
    some (3#16, true, []) := by
  decide
theorem test_step_tfPush_pair : sees (stepOn 0x710000000000000004#72 (tfJob true 9)) (fun s => (s.tf.dB, s.tf.dF, s.tf.holdValid, s.responses)) =
    some ([3, 0], [3], false, [0x710000000000000009#72]) := by
  decide +kernel
theorem test_step_tdStart : sees (stepOn 0x800000000000000000#72 (withP { Params.reset with rise := 625#32, top := 100#32, thr := 500#32 }))
    (fun s => (s.td.wait, s.td.off, s.td.active, s.td.st)) = some (387, 2075, true, .idle) := by
  decide
theorem test_step_tdPush : sees (stepOn 0x81FFFFFFFFFFFFF830#72 (tdJob .waitDelay 3188 (-2000) 2800)) (fun s => (s.responses, s.td.st)) =
    some ([0x81FFFFFFFFFFFFF830#72, 0x820000000000000DC6#72], .armed) := by
  decide
theorem test_step_tdPush_before_off : sees (stepOn 0x81FFFFFFFFFFFFF830#72 (tdJob .idle 2074 0 0)) (fun s => (s.td.st, s.td.prev)) = some (.idle, -2000) := by
  decide
theorem test_step_refused : sees (stepOn 0x320000000000000000#72 State.reset) (fun s => (s.responses, s.errlog)) =
    some ([0x0F0000000000003203#72], 8#8) := by
  decide
theorem test_step_priority : recs (stepOn 0x410001000000000005#72 State.reset) = some [0x0F0000000000004104#72] := by
  decide
theorem test_step_txLoad : sees (stepOn 0x614010000000000000#72 State.reset) State.tx =
    some { wlen := 1, wbuf := [(0, 0x4010000000000000#64)] } := by
  simp [stepOn, step, accept, show decodeCommand 0x614010000000000000#72 = .instr (.txLoad 0x4010000000000000#64) by decide,
    exec, execTxLoad, show Num64.isFinite 0x4010000000000000#64 = true by decide, State.reset, Config.wbufCap, sees,
    Memory.write]

/-- The waveforms of the examples of R174 and R175. -/
def wave1 : List Num64 := ([0, 0, 0, 1, 2, 3, 4, 4, 4, 4, 3, 2, 1, 0, 0, 0] : List Rat).map fl
def wave2 : List Num64 := ([0, -1, -2, -2, -1, 0, 1, 2, 2, 1, 0, 0] : List Rat).map fl
theorem test_step_txRun1 :
    recs (stepOn 0x620000000000000000#72
      (loaded { Params.reset with rise := 4#32, top := 3#32, pct := 0x3FE0000000000000#64 } wave1)) =
    some [0x620000000000000001#72, 0x634010000000000000#72, 0x644000000000000000#72] := by decide +kernel
theorem test_step_txRun2 :
    recs (stepOn 0x630000000000000000#72 (loaded { small with pct := 0x3FE0000000000000#64 } wave2)) =
    some [0x620000000000000001#72, 0x634000000000000000#72, 0x643FFC000000000000#72] := by decide +kernel

/-! ### The codewords executed: in a job with `k = 2` that expects one sample (R77) -/

theorem test_exec_cwQ0 : sees (exec (.cwQ0 2 false 2) (rdJob 2 1 [])) (fun s => (s.responses, s.rd.active)) =
    some ([0x510000000000000002#72], false) := by decide
theorem test_exec_cwQ1 : sees (exec (.cwQ1 2 false 1) (rdJob 2 1 [])) (fun s => (s.responses, s.rd.active)) =
    some ([0x510000000000000005#72], false) := by decide
theorem test_exec_cwQ2 : sees (exec (.cwQ2 2 true 3) (rdJob 2 1 [])) (fun s => (s.responses, s.rd.active)) =
    some ([0x51000000000000FFF5#72], false) := by decide
theorem test_exec_cwQ3 : sees (exec (.cwQ3 2 false 2) (rdJob 2 1 [])) (fun s => (s.responses, s.rd.active)) =
    some ([0x51000000000000000E#72], false) := by decide
theorem test_exec_cwQ4 : sees (exec (.cwQ4 2 true 0) (rdJob 2 1 [])) (fun s => (s.responses, s.rd.active)) =
    some ([0x51000000000000FFF0#72], false) := by decide
theorem test_exec_cwQ5 : sees (exec (.cwQ5 2 false 3) (rdJob 2 1 [])) (fun s => (s.responses, s.rd.active)) =
    some ([0x510000000000000017#72], false) := by decide
theorem test_exec_cwQ6 : sees (exec (.cwQ6 2 true 1) (rdJob 2 1 [])) (fun s => (s.responses, s.rd.active)) =
    some ([0x51000000000000FFE7#72], false) := by decide
theorem test_exec_cwQ7 : sees (exec (.cwQ7 2 false 3) (rdJob 2 1 [])) (fun s => (s.responses, s.rd.active)) =
    some ([0x51000000000000001F#72], false) := by decide
theorem test_exec_cwEsc : sees (exec (.cwEsc 0x7FF8#16) (rdJob 2 1 [])) (fun s => (s.responses, s.rd.active)) =
    some ([0x51000000000000FFF8#72], false) := by decide
theorem test_exec_cwQN : sees (exec (.cwQN 9 2 false 2) (rdJob 2 1 [])) (fun s => (s.responses, s.rd.active)) =
    some ([0x510000000000000026#72], false) := by decide

/-! ### The hypotheses of the statements are met -/

/-- CommandsDecodeAndEncodeAgree. -/
theorem witness_commands : decodeCommand 0x81FFFFFFFFFFFFFFFF#72 = .instr (.tdPush (-1#64)) ∧
    encode (.tdPush (-1#64)) = .command 0x81FFFFFFFFFFFFFFFF#72 := by decide +kernel
/-- EncodedCodewordsReadBack, at the greatest width and remainder, at a count above 8, and of an escape. -/
theorem witness_codewords : (Codeword.rice 7 31 true (2 ^ 31 - 1)).wellFormed = true ∧
    (Codeword.rice 9 0 false 0).wellFormed = true ∧ (Codeword.esc 0xFFFF#16).wellFormed = true := by decide +kernel
/-- DecoderRefusesExactlyTheIllegal, both refusals. -/
theorem witness_decoder : decodeCommand 0x900000000000000000#72 = .illegalOpcode 0x90#8 ∧
    decodeCommand 0x000000000000000001#72 = .operandError 0x00#8 := by decide +kernel
/-- CodewordOfSample, both clauses where they meet: the quotient 7 and the quotient 8, and the least sample. -/
theorem witness_code : Int.natAbs 31 / 2 ^ 2 < 8 ∧ 8 ≤ Int.natAbs 32 / 2 ^ 2 ∧ 8 ≤ Int.natAbs (-32768) / 2 ^ 12 ∧
    Int.natAbs (-32768) / 2 ^ 13 < 8 := by decide +kernel
/-- StepRunsTheDecodedCommand. -/
theorem witness_step : (present 0x210000000000000005#72 State.reset).commands = 0x210000000000000005#72 :: [] ∧
    decodeCommand 0x210000000000000005#72 = .instr (.ckPush 5#16) := by decide +kernel
/-- UndecodableWordsAreRefusedFirst, both clauses. -/
theorem witness_illegal : (present 0x320000000000000000#72 State.reset).commands = commandWord 0x32#8 0#64 :: [] ∧
    0x32#8 ∉ legalOpcodes := by decide +kernel
theorem witness_malformed : (present 0x410000000000010000#72 State.reset).commands = commandWord 0x41#8 0x10000#64 :: [] ∧
    0x41#8 ∈ legalOpcodes ∧ ∀ i, encode i ≠ .command (commandWord 0x41#8 0x10000#64) := by
  refine ⟨by decide +kernel, by decide +kernel, fun i h => ?_⟩
  cases i <;> simp only [encode, Encoded.command.injEq, reduceCtorEq] at h
  all_goals
    have h1 := congrArg opcodeOf h
    have h2 := congrArg operandOf h
    simp only [opcodeOf_commandWord, operandOf_commandWord] at h1 h2
    first
      | exact absurd h1 (by decide)
      | (have := congrArg BitVec.toNat h2
         simp only [BitVec.toNat_setWidth, BitVec.toNat_ofNat] at this
         omega)
/-- IdleCoreHoldsItsState. -/
theorem witness_idle : State.reset.commands = [] := by decide +kernel
/-- SetpWritesItsRegister: the greatest finite pattern and an infinity. -/
theorem witness_setp : BitVec.extractLsb' 52 11 0x7FEFFFFFFFFFFFFF#64 ≠ 0x7FF#11 ∧
    BitVec.extractLsb' 52 11 0x7FF0000000000000#64 = 0x7FF#11 := by decide +kernel
/-- CkPushAddsTheSample and CkFinReportsTheSums, both clauses. -/
theorem witness_ck : (ckJob 1 1).ck.active = true ∧ State.reset.ck.active = false := by decide +kernel
/-- Trap1EmitsTheSingleTrapezoid: the length at its minimum and not supplied; one below it, RISE = 0 and TAU = 0. -/
theorem witness_trap1 : (2 * 2 + 1 ≤ ({ small with len := 5#32 } : Params).len.toNat ∧ 0 < small.rise.toNat ∧
      rat small.tau ≠ 0 ∧ small.len.toNat = 0) ∧
    (({ small with len := 4#32 } : Params).len.toNat ≠ 0 ∧ ({ small with len := 4#32 } : Params).len.toNat < 2 * 2 + 1) ∧
    Params.reset.rise.toNat = 0 ∧ rat Params.reset.tau = 0 := by decide +kernel
/-- Trap2EmitsTheDoubleTrapezoid, in the same way. -/
theorem witness_trap2 : (4 * 2 + 2 * 1 ≤ ({ small with len := 10#32 } : Params).len.toNat ∧ 0 < small.rise.toNat ∧
      rat small.tau ≠ 0) ∧
    (({ small with len := 9#32 } : Params).len.toNat ≠ 0 ∧ ({ small with len := 9#32 } : Params).len.toNat < 4 * 2 + 2 * 1) := by
  decide +kernel
/-- SingleTrapezoidShape and DoubleTrapezoidIsTheConvolution: both edges of the kernel with RISE = 2, TOP = 1. -/
theorem witness_shape : 1 ≤ 2 ∧ (2 : Rat) ≠ 0 ∧ 0 + 1 < 2 ∧ 2 + 1 ≤ 3 ∧ 3 + 1 < 2 * 2 + 1 := by decide +kernel
/-- ReStartLatchesM and RdStartLatchesMAndCount: the greatest and the least legal M, and two that are none. -/
theorem witness_golomb : (0x80000000#32).toNat = 2 ^ 31 ∧ (1#32).toNat = 2 ^ 0 ∧ (∀ k, (6#32).toNat ≠ 2 ^ k) ∧
    ∀ k, (0#32).toNat ≠ 2 ^ k := by
  refine ⟨by decide +kernel, by decide +kernel, fun k h => ?_, fun k h => ?_⟩
  · rcases Nat.lt_or_ge k 3 with hk | hk
    · interval_cases k <;> simp at h
    · have := Nat.pow_le_pow_right (n := 2) (by omega) hk
      simp at h
      omega
  · have := Nat.two_pow_pos k
    simp at h
    omega
/-- RePushReleasesWholeWords and ReFlushPadsTheLastWord: nothing pending, 31 bits pending, no job. -/
theorem witness_re : (reJob 2 []).re.active = true ∧ (reJob 2 (zeros 31)).re.acc.length ≤ 31 ∧ (reJob 2 (zeros 31)).re.acc ≠ [] ∧
    State.reset.re.active = false := by decide +kernel
/-- EncodeJobPacksTheCodewords. -/
theorem witness_encode_job : ({ Params.reset with m := 4#32 } : Params).m.toNat = 2 ^ 2 := by decide +kernel
/-- RdWordBuffersAnIncompleteCodeword: where a codeword becomes complete, of an escape and of another one, at the greatest width. -/
theorem witness_incomplete : readCodeword 2 (zeros 8 ++ true :: zeros 15) = none ∧
    readCodeword 2 (zeros 8 ++ true :: zeros 16) = some (.esc 0#16, []) ∧ readCodeword 31 (true :: zeros 31) = none ∧
    readCodeword 31 (true :: zeros 32) = some (.rice 0 31 false 0, []) := by decide +kernel
/-- A word of zeros completes nothing. -/
theorem witness_rd_buffers : (rdJob 2 1 []).rd.active = true ∧ 0 < (rdJob 2 1 []).rd.remaining ∧
    readCodeword 2 ([] ++ bin 32 (0#32).toNat) = none ∧ State.reset.rd.active = false := by decide +kernel
/-- RdWordRunsItsCodewords and CodewordsDecodeToTheirValues: the last sample and one before it. -/
theorem witness_rd_runs : (rdJob 2 1 []).rd.active = true ∧ 0 < (rdJob 2 1 []).rd.remaining ∧
    readCodeword 2 ([] ++ bin 32 (0x48000000#32).toNat) = some (.rice 1 2 false 1, zeros 27 ) ∧ 0 < (rdJob 2 2 []).rd.remaining := by
  decide +kernel
/-- RoundTripDomain: each clause at its boundary. -/
theorem witness_round_trip : (-16384 ≤ (16383 : Int) ∧ (16383 : Int) ≤ 16383) ∧ Int.natAbs 32767 < 8 * 2 ^ 12 ∧
    (16384 ≤ (16384 : Int) ∧ 8 * 2 ^ 11 ≤ Int.natAbs 16384) ∧ ((-16385 : Int) ≤ -16385 ∧ 8 * 2 ^ 11 ≤ Int.natAbs (-16385)) := by
  decide +kernel
/-- DecodeJobInvertsEncodeJob: the sample 5 with `k = 2`. -/
theorem witness_decode_job : [0x48000000#32].flatMap (fun w => bin 32 w.toNat) =
      [5#16].flatMap (fun h => code h.toInt 2) ++ zeros 27 ∧
    (rdJob 2 1 []).rd = { active := true, k := 2, remaining := [5#16].length, buf := [] } ∧
    ∀ h ∈ [5#16], (-16384 ≤ h.toInt ∧ h.toInt ≤ 16383) ∨ h.toInt.natAbs < 8 * 2 ^ 2 := by
  refine ⟨by decide +kernel, by decide +kernel, fun h hh => ?_⟩
  have e : h = 5#16 := by simpa using hh
  subst e
  decide
/-- TxLoadAppendsTheSample: an empty buffer, a full one, a NaN. -/
theorem witness_tx_load : BitVec.extractLsb' 52 11 0x4010000000000000#64 ≠ 0x7FF#11 ∧ State.reset.tx.wlen < Config.wbufCap ∧
    ({ State.reset with tx := { wlen := Config.wbufCap, wbuf := [] } } : State).tx.wlen = Config.wbufCap ∧
    BitVec.extractLsb' 52 11 0x7FF8000000000000#64 = 0x7FF#11 := by
  refine ⟨by decide +kernel, ?_, rfl, by decide +kernel⟩
  simp [State.reset, Config.wbufCap]
/-- RunCommandsReportTheExtraction: the percentages 0 and 1, and one between on a filled and on an empty buffer. -/
theorem witness_run : rat 0x0000000000000000#64 ≤ 0 ∧ 1 ≤ rat 0x3FF0000000000000#64 ∧ 0 < rat 0x3FE0000000000000#64 ∧
    rat 0x3FE0000000000000#64 < 1 := by decide +kernel
theorem witness_filled : Filled (loaded small [1#64]) ∧ Filled State.reset := by
  refine ⟨fun i h => ?_, fun i h => ?_⟩
  · have : i = 0 := by simp [loaded] at h; omega
    subst this
    decide +kernel
  · simp [State.reset] at h
/-- ValidExtractionReadsAroundTheMidpoint: each variant, each sign of MEAN, and an invalid result. -/
theorem witness_extract : extract .single ⟨4, 3, 1 / 2, 0, 0⟩ wave1 = some (0x4010000000000000#64, 2) ∧
    extract .double ⟨2, 1, 1 / 2, 0, 0⟩ wave2 = some (0x4000000000000000#64, 7 / 4) ∧
    extract .single ⟨4, 3, 1 / 2, 0, 2⟩ wave1 = some (0x4010000000000000#64, 2) ∧
    extract .single ⟨4, 3, 1 / 2, -2, -2⟩ wave1 = some (fl (5 / 2), 2) ∧
    extract .single ⟨4, 3, 1 / 2, -8, 0⟩ wave1 = none := by decide +kernel
/-- A peak of zero by the pseudocode of R178 to R183 (log entry 27): on -1, 0, -1 the pivot of RUN2 is index 1, as both crosses. -/
theorem test_zero_peak : extract .double ⟨1, 0, 1 / 2, 0, 0⟩ (([-1, 0, -1] : List Rat).map fl) = some (0#64, -1) := by
  decide +kernel
/-- ExtremesAreFirstOccurrences. -/
theorem witness_extremes : ([4, 4] : List Rat) ≠ [] ∧ extremes [4, 4] = some ((0, 4), (0, 4)) := by decide +kernel
/-- CrossesAreTheNearestStraddles: each cross found, at the last pair of the window, and neither in a window one shorter. -/
theorem witness_crosses : leftCross (fun i => i) 1 3 3 = some 1 ∧ leftCross (fun i => i) 1 3 2 = none ∧
    rightCross (fun i => -i) (-2) 3 0 3 = some 2 ∧ rightCross (fun i => -i) (-2) 3 0 2 = none := by decide +kernel
/-- FlatWaveformIsInvalid. -/
theorem witness_flat : ∀ x ∈ [0x3FF0000000000000#64, 0x3FF0000000000000#64], rat x = 1 := by
  intro x hx
  have h : x = 0x3FF0000000000000#64 := by simpa using hx
  subst h
  decide +kernel
/-- TfStartBuildsAFreshFilter, its clauses. -/
theorem witness_tf_start : small.rise.toNat ≠ 0 ∧ small.top.toNat ≠ 0 ∧ rat small.tau ≠ 0 ∧ Params.reset.rise.toNat = 0 ∧
    Params.reset.top.toNat = 0 ∧ rat Params.reset.tau = 0 := by decide +kernel
/-- TfPushFiltersPairs: the first of a pair, the extremes of the 64-bit range, the values next to them, no job. -/
theorem witness_tf_push : ((tfJob false 0).tf.active = true ∧ (tfJob false 0).tf.holdValid = false) ∧
    ((tfJob true (2 ^ 63 - 1)).tf.dZ = [2 ^ 63 - 1] ∧ (tfJob true (2 ^ 63 - 1)).tf.holdValid = true) ∧
    (tfJob true (-2 ^ 63)).tf.dZ = [-2 ^ 63] ∧ (tfJob true (2 ^ 63)).tf.dZ = [2 ^ 63] ∧
    (tfJob true (-2 ^ 63 - 1)).tf.dZ = [-2 ^ 63 - 1] ∧ State.reset.tf.active = false := by decide +kernel
/-- PipelineStepIsTheFiveLines. -/
theorem witness_pipeline : (tfJob true 9).tf.dB = [0] ++ [0] ∧ (tfJob true 9).tf.dC = [] ++ [0] ∧
    (tfJob true 9).tf.dD = [0] ++ [0] ∧ (tfJob true 9).tf.dF = [] ++ [0] ∧ (tfJob true 9).tf.dK = [] ++ [0] ∧
    (tfJob true 9).tf.dL = [0] ++ [0] ∧ (tfJob true 9).tf.dN = [] ++ [0] ∧ (tfJob true 9).tf.dQ = [] ++ [0] ∧
    (tfJob true 9).tf.dS = [0, 0] ++ [0] ∧ (tfJob true 9).tf.dU = [] ++ [0] ∧ (tfJob true 9).tf.dY = [] ++ [0] ∧
    (tfJob true 9).tf.dZ = [] ++ [9] := by decide +kernel
/-- DelayLineDelaysByItsCapacity: below the capacity and at it. -/
theorem witness_delay : ([7] : DelayLine) ≠ [] ∧ 0 < [5, 6].length ∧ 1 < [5, 6].length := by decide +kernel
/-- FilterHasItsClosedForm, at the least geometry and the first and the last step. -/
theorem witness_closed_form : 0 < (1#32).toNat ∧ 0 < [5, 6].length ∧ 1 < [5, 6].length := by decide +kernel
/-- TdPushFollowsTheTable: the last index, the index after it, no job; in WaitDelay the last index with no event and the first
with one; the last index below `off` and `off`. -/
theorem witness_td_push : ((tdJob .idle (2 ^ 62 - 1) 0 0).td.active = true ∧ (tdJob .idle (2 ^ 62 - 1) 0 0).td.idx < 2 ^ 62) ∧
    (tdJob .idle (2 ^ 62) 0 0).td.idx = 2 ^ 62 ∧ State.reset.td.active = false ∧
    ¬(tdJob .waitDelay 3187 0 2800).td.idx > 2800 + 387 ∧ (tdJob .waitDelay 3188 0 2800).td.idx > 2800 + 387 ∧
    (tdJob .idle 2074 0 0).td.idx < 2075 ∧ 2075 ≤ (tdJob .waitZeroCross 2075 5 0).td.idx := by decide +kernel
/-- EventComesWaitPlusOneAfterTheCrossing, at the event's index and one before it. -/
theorem witness_event : TdInv (tdJob .waitDelay 3188 (-2000) 2800).td ∧ TdInv (tdJob .waitDelay 3187 (-2000) 2800).td ∧
    completes (exec (.tdPush (-2000#64)) (tdJob .waitDelay 3188 (-2000) 2800)) = true ∧
    completes (exec (.tdPush (-2000#64)) (tdJob .waitDelay 3187 (-2000) 2800)) = true := by
  refine ⟨?_, ?_, by decide +kernel, by decide +kernel⟩ <;> simp [TdInv, tdJob]
/-- ShortStreamsTriggerNothing, a stream of exactly `off` samples. -/
theorem witness_short : (List.replicate 8 9#64).length ≤ 3 * small.rise.toNat + 2 * small.top.toNat := by decide +kernel
/-- ZeroThresholdTriggersOnce. -/
theorem witness_zero_threshold : (withP Params.reset).p.thr.toNat = 0 ∧ (List.replicate 9 1#64).length ≤ 2 ^ 62 := by decide +kernel
/-- RoundIsNearestTiesToEven: a tie under each setting. -/
theorem witness_tie : |(roundWith .halfEven (5 / 2) : Rat) - 5 / 2| = 1 / 2 ∧ |(roundWith .halfAway (5 / 2) : Rat) - 5 / 2| = 1 / 2 ∧
    |(roundWith .halfUp (-5 / 2) : Rat) - -5 / 2| = 1 / 2 := by decide +kernel
/-- RoundingIsFiniteAndExact. -/
theorem witness_finite : Num64.isFinite 0x7FEFFFFFFFFFFFFF#64 = true := by decide +kernel
/-- RefusedCommandsChangeNothingElse and UnitsOwnTheirState: an instruction that is refused and one that is not. -/
theorem witness_exec : sees (exec .ckFin State.reset) id = some (refuse 0x22#8 2 State.reset) ∧
    completes (exec .ckFin (ckJob 1 1)) = true := by decide +kernel
/-- ErrlogIsSticky and ResponsesAreAppendOnly. -/
theorem witness_sticky : completes (stepOn 0x000000000000000000#72 (refuse 0x22#8 2 State.reset)) = true ∧
    some (decodeCommand 0x000000000000000000#72) ≠ some (.instr .reset) ∧
    (refuse 0x22#8 2 State.reset).errlog.getLsbD 2 = true := by decide +kernel
/-- UnitsCommute: two commands that are both refused, so that both write ERRLOG. -/
theorem witness_commute : owner .ckFin ≠ owner .kgTrap1 ∧ owner .ckFin ∉ [Owner.sys, Owner.param] ∧
    owner .kgTrap1 ∉ [Owner.sys, Owner.param] ∧ completes (execAll [.ckFin, .kgTrap1] State.reset) = true ∧
    completes (execAll [.kgTrap1, .ckFin] State.reset) = true := by decide +kernel
/-- The invariant, for StepKeepsRegistersEncoderAndFilter, StepKeepsTheDecoder, StepKeepsTheBuffer, StepKeepsTheTrigger and
EveryStepCompletes: a state with a decode, a filter and a trigger job open, a filled cell, and a command presented. -/
def busy : State :=
  { State.reset with
    re := (reJob 2 (zeros 31)).re, rd := (rdJob 2 1 (zeros 3)).rd, tx := { wlen := 1, wbuf := [(0, 1#64)] },
    tf := freshFilter 2#32 1#32 2 (1 / 4) 0#16, td := (tdJob .waitDelay 3188 (-2000) 2800).td,
    commands := [0x510000000048000000#72] }
theorem witness_inv : Inv busy := by
  refine ⟨by unfold ParamsInv; decide, by unfold ErrlogInv; decide, by unfold ReInv; decide, by unfold RdInv; decide,
    ⟨by decide +kernel, by simp [busy, Config.wbufCap], fun i h => ?_, fun i h => ?_⟩, fun _ => ?_, by simp [TdInv, busy, tdJob]⟩
  · have : i = 0 := by simp [busy] at h; omega
    subst this
    exact ⟨1#64, by decide +kernel, by decide +kernel⟩
  · have : i ≠ 0 := by unfold Config.wbufCap at h; omega
    simp [busy, Memory.read, Ne.symm this]
  · decide +kernel
theorem witness_inv_step : completes (step busy) = true := by decide +kernel

end Sys2Proof.Tests
end

section
/-! Facts that the statements about commands share: the error action in the spec's words, encodings, and the memory frame. -/

namespace Sys2Proof.Machine

/-- The payload of an ERR record is the number `opc * 256 + code` (R66, R242). -/
theorem payload_err (opc : OpcodeByte) (e : ErrCode) :
    (Response.err e opc).payload = BitVec.ofNat 64 (opc.toNat * 256 + e.code) := by
  have hcode : e.code < 2 ^ 8 := by cases e <;> decide
  apply BitVec.eq_of_toNat_eq
  simp only [Response.payload, BitVec.toNat_append, BitVec.toNat_ofNat, Nat.mod_eq_of_lt hcode, Nat.zero_mod,
    Nat.zero_shiftLeft, Nat.zero_or]
  rw [← Nat.shiftLeft_add_eq_or_of_lt hcode, Nat.shiftLeft_eq]
  have hopc := opc.isLt
  omega

/-- The model's error action is the spec's (R242), whatever the command and the error. -/
theorem raise_eq_refuse (opc : OpcodeByte) (e : ErrCode) (s : State) : raise opc e s = refuse opc e.code s := by
  have hbit : e.bit = BitVec.ofNat 8 (2 ^ e.code) := by cases e <;> rfl
  rw [raise_eq, hbit, Response.record, payload_err]
  rfl

/-- A command whose opcode byte is decoded by format `f` has the encoding of that format (R62). -/
theorem encodes_of_withFormat {opc : OpcodeByte} {mk : BitVec 64 → Instr} (f : Format)
    (h : ∀ op, decodeCommand (commandWord opc op) = withFormat f opc op (mk op)) : Encodes opc f.usedBits mk := by
  intro op
  rw [h]
  rcases withFormat_cases f opc op (mk op) with ⟨hop, hw⟩ | ⟨hop, hw⟩
  · rw [hw, if_pos hop]
  · rw [hw, if_neg (Nat.not_lt.mpr hop)]

/-- An operation that leaves TX as it was keeps the cells. -/
theorem cellsKept_of_tx_eq {s t : State} (h : t.tx = s.tx) : CellsKept s t := fun i => by rw [h]

end Sys2Proof.Machine
end

section
/-! TF.PUSH (R201, R202): the pair sum, and one equation per case of the command. -/

namespace Sys2Proof.Machine

theorem encodes_tfPush : Encodes 0x71#8 16 (fun op => .tfPush (op.setWidth 16)) :=
  encodes_of_withFormat .h fun op => by
    simp only [decodeCommand, opcodeOf_commandWord, operandOf_commandWord]; rfl

theorem clampSum_eq_max_min (x : Int) : clampSum x = max (-16384) (min 16382 x) := by
  unfold clampSum
  split_ifs <;> omega

@[simp] theorem halve_floor (x : Int) : halve .floor x = x / 2 := Int.fdiv_eq_ediv_of_nonneg x (by decide)

@[simp] theorem halve_truncate (x : Int) : halve .truncate x = x.tdiv 2 := rfl

theorem fits64_iff (v : Int) : fits64 v = true ↔ -2 ^ 63 ≤ v ∧ v ≤ 2 ^ 63 - 1 := by
  simp only [fits64, decide_eq_true_eq]

/-- A step ejects what was at the tail of the last line (R203). -/
theorem filterStep_ejects (rnd : Config.Rounding) (v : Int) {tf : Tf} {zs : List Int} {z : Int} (h : tf.dZ = zs ++ [z]) :
    (filterStep rnd v tf).1 = z := by
  simp only [filterStep, h, push_concat]

/-- The pipeline step that the second sample `h` of a pair runs (R202). -/
def pairStep (h : BitVec 16) (s : State) : Int × Tf :=
  filterStep s.settings.rnd (decimate s.settings.div2 (sext16 s.tf.hold) (sext16 h)) { s.tf with holdValid := false }

theorem pairStep_ejects (h : BitVec 16) {s : State} {z : Int} (hz : s.tf.dZ = [z]) : (pairStep h s).1 = z :=
  filterStep_ejects (zs := []) _ _ hz

theorem pairStep_holdValid (h : BitVec 16) (s : State) : (pairStep h s).2.holdValid = false := rfl

section
variable (h : BitVec 16) {s : State}

theorem exec_tfPush_of_inactive (ha : s.tf.active = false) : exec (.tfPush h) s = .next (refuse 0x71#8 2 s) := by
  simp only [exec, execTfPush, ha, raise_eq_refuse]
  rfl

theorem exec_tfPush_of_first (ha : s.tf.active = true) (hv : s.tf.holdValid = false) :
    exec (.tfPush h) s = .next { s with tf := { s.tf with hold := h, holdValid := true } } := by
  simp only [exec, execTfPush, ha, hv, if_true]
  rfl

/-- Past the range check, the second of a pair runs its step and emits what the step ejects (R202). -/
theorem exec_tfPush_of_second (ha : s.tf.active = true) (hv : s.tf.holdValid = true)
    (hfit : fits64 (s.tf.dZ.headD 0) = true) :
    exec (.tfPush h) s = .next { s with
      tf := (pairStep h s).2, responses := s.responses ++ [record 0x71#8 (BitVec.ofInt 64 (pairStep h s).1)] } := by
  simp only [exec, execTfPush]
  rw [if_pos ha, if_pos hv, if_pos hfit]
  rfl

/-- The range check comes first: a refused push keeps the held sample (R202). -/
theorem exec_tfPush_of_not_fits (ha : s.tf.active = true) (hv : s.tf.holdValid = true)
    (hfit : fits64 (s.tf.dZ.headD 0) = false) : exec (.tfPush h) s = .next (refuse 0x71#8 5 s) := by
  simp only [exec, execTfPush, ha, hv, hfit, if_true, raise_eq_refuse]
  rfl

end

/-- Settles O39: one equation of TF.PUSH for each case. -/
theorem tfPushFiltersPairs : Obligations.TfPushFiltersPairs := by
  refine ⟨encodes_tfPush, rfl, fun h s => ?_⟩
  intro half
  have hstep : pairStep h s = filterStep s.settings.rnd
      (half (max (-16384) (min 16382 (s.tf.hold.toInt + h.toInt)))) { s.tf with holdValid := false } := by
    rw [pairStep, decimate, clampSum_eq_max_min]
    cases hd : s.settings.div2 <;> simp only [half, hd, halve_floor, halve_truncate, sext16]
  refine ⟨fun ha hv => ⟨_, exec_tfPush_of_first h ha hv, cellsKept_of_tx_eq rfl, rfl⟩, ?_, ?_,
    exec_tfPush_of_inactive h⟩
  · intro z ha hv hz hlo hhi
    have hfit : fits64 (s.tf.dZ.headD 0) = true := by rw [hz]; exact (fits64_iff z).mpr ⟨hlo, hhi⟩
    refine ⟨_, exec_tfPush_of_second h ha hv hfit, cellsKept_of_tx_eq rfl, ?_, pairStep_holdValid h s⟩
    rw [pairStep_ejects h hz, hstep]
  · intro z ha hv hz hout
    have hfit : fits64 (s.tf.dZ.headD 0) = false := by
      rw [hz, Bool.eq_false_iff, ne_eq, List.headD_cons, fits64_iff]
      omega
    exact exec_tfPush_of_not_fits h ha hv hfit

end Sys2Proof.Machine
end

section
/-! Rounding to an integer (R204) under each setting of RND. -/

namespace Sys2Proof.Machine

/-- Whether a tie `x` goes to the upper of its two neighbours. -/
def tieGoesUp (m : Config.Rounding) (x : Rat) : Bool :=
  match m with
  | .halfEven => x.floor % 2 != 0
  | .halfAway => decide (0 < x)
  | .halfUp => true

theorem roundWith_eq (m : Config.Rounding) (x : Rat) :
    roundWith m x =
      if x - x.floor < 1 / 2 then x.floor
      else if 1 / 2 < x - x.floor then x.floor + 1 else if tieGoesUp m x then x.floor + 1 else x.floor := by
  cases m <;> rfl

/-- Off a tie the setting does not matter, and the result is less than one half away. -/
theorem abs_roundWith_sub_lt_of_ne {m : Config.Rounding} {x : Rat} (h : x - x.floor ≠ 1 / 2) :
    |(roundWith m x : Rat) - x| < 1 / 2 := by
  have hle := Rat.floor_le x
  have hlt : x - 1 < x.floor := Rat.lt_floor
  rw [roundWith_eq, abs_lt]
  split_ifs with hdown hup
  · constructor <;> linarith
  · push_cast
    constructor <;> linarith
  all_goals exact absurd (le_antisymm (not_lt.mp hup) (not_lt.mp hdown)) h

/-- On a tie the result is the upper or the lower neighbour, as the setting says. -/
theorem roundWith_of_tie {m : Config.Rounding} {x : Rat} (h : x - x.floor = 1 / 2) :
    roundWith m x = if tieGoesUp m x then x.floor + 1 else x.floor := by
  rw [roundWith_eq, h, if_neg (lt_irrefl _), if_neg (lt_irrefl _)]

theorem abs_roundWith_sub_of_tie {m : Config.Rounding} {x : Rat} (h : x - x.floor = 1 / 2) :
    |(roundWith m x : Rat) - x| = 1 / 2 := by
  rw [roundWith_of_tie h]
  split_ifs
  · rw [show ((x.floor + 1 : Int) : Rat) - x = 1 / 2 by push_cast; linarith]
    norm_num
  · rw [abs_sub_comm, h]
    norm_num

/-- Half to even: of two neighbours the even one. -/
theorem roundWith_halfEven_of_tie {x : Rat} (h : x - x.floor = 1 / 2) : roundWith .halfEven x % 2 = 0 := by
  rw [roundWith_of_tie h]
  simp only [tieGoesUp, bne_iff_ne]
  split_ifs <;> omega

/-- Half away from zero: of two neighbours the larger in magnitude. -/
theorem roundWith_halfAway_of_tie {x : Rat} (h : x - x.floor = 1 / 2) : |x| < |(roundWith .halfAway x : Rat)| := by
  rw [roundWith_of_tie h]
  simp only [tieGoesUp, decide_eq_true_eq]
  split_ifs with hpos
  · push_cast
    rw [abs_of_pos hpos, abs_of_pos] <;> linarith
  · rw [abs_of_nonpos (not_lt.mp hpos), abs_of_nonpos] <;> linarith

/-- Half up: the upper neighbour. -/
theorem lt_roundWith_halfUp_of_tie {x : Rat} (h : x - x.floor = 1 / 2) : x < roundWith .halfUp x := by
  rw [roundWith_of_tie h]
  simp only [tieGoesUp, if_true]
  push_cast
  linarith

/-- Settles O42: a result one half away is that of a tie, and there each setting has its rule. -/
theorem roundIsNearestTiesToEven : Obligations.RoundIsNearestTiesToEven := by
  refine ⟨rfl, fun rnd x => ?_⟩
  by_cases h : x - x.floor = 1 / 2
  · refine ⟨(abs_roundWith_sub_of_tie h).le, fun _ => ?_⟩
    cases rnd with
    | halfEven => exact roundWith_halfEven_of_tie h
    | halfAway => exact roundWith_halfAway_of_tie h
    | halfUp => exact lt_roundWith_halfUp_of_tie h
  · have hlt := abs_roundWith_sub_lt_of_ne (m := rnd) h
    exact ⟨hlt.le, fun heq => absurd heq hlt.ne⟩

end Sys2Proof.Machine
end

section
/-! TD.PUSH (R223 to R225): one equation per row of the machine's table, and one per case of the command. -/

namespace Sys2Proof.Machine

theorem encodes_tdPush : Encodes 0x81#8 64 .tdPush :=
  encodes_of_withFormat .i fun op => by
    simp only [decodeCommand, opcodeOf_commandWord, operandOf_commandWord]; rfl

/-- `sign` (R223) is Mathlib's sign but for 0. -/
theorem signOf_eq (sgn0 x : Int) : signOf sgn0 x = if x = 0 then sgn0 else x.sign := by
  unfold signOf
  split_ifs with hpos hneg hzero
  · omega
  · exact (Int.sign_eq_one_of_pos hpos).symm
  · omega
  · exact (Int.sign_eq_neg_one_of_neg ‹_›).symm
  · rfl
  · omega

section
variable (sgn0 y : Int) (td : Td)

/-- An evaluation writes the state and the crossing alone. -/
theorem evaluate_fst : (evaluate sgn0 y td).1 =
    { td with st := (evaluate sgn0 y td).1.st, cross := (evaluate sgn0 y td).1.cross } := by
  unfold evaluate
  cases td.st <;> dsimp only <;> split_ifs <;> rfl

/-- The crossing is recorded in WaitZeroCross, on a change of sign (R225). -/
theorem evaluate_cross : (evaluate sgn0 y td).1.cross =
    if td.st = .waitZeroCross ∧ signOf sgn0 y ≠ signOf sgn0 td.prev then td.idx else td.cross := by
  unfold evaluate
  cases td.st <;> simp only [reduceCtorEq, false_and, true_and, if_false] <;> split_ifs <;> rfl

/-- An event is emitted in WaitDelay, after more than `wait` samples (R225). -/
theorem evaluate_records : (evaluate sgn0 y td).2 =
    if td.st = .waitDelay ∧ td.idx > td.cross + td.wait then
      [.trge (tc64 y), .trgo (tc64 (sampleOffset td.idx td.rise.toNat td.top.toNat))] else [] := by
  have hdelay : (td.wait : Int) < (td.idx : Int) - td.cross ↔ td.idx > td.cross + td.wait := by omega
  unfold evaluate
  cases td.st <;> simp only [reduceCtorEq, false_and, true_and, if_false, hdelay] <;> split_ifs <;> rfl

/-- The state after an evaluation, row by row (R225). -/
theorem evaluate_st : (evaluate sgn0 y td).1.st = match td.st with
    | .idle => if (td.thr.toNat : Int) ≤ |y| then .waitZeroCross else .idle
    | .waitZeroCross => if signOf sgn0 y ≠ signOf sgn0 td.prev then .waitDelay else .waitZeroCross
    | .waitDelay => if td.idx > td.cross + td.wait then .armed else .waitDelay
    | .armed => if |y| < (td.thr.toNat : Int) then .idle else .armed := by
  have hdelay : (td.wait : Int) < (td.idx : Int) - td.cross ↔ td.idx > td.cross + td.wait := by omega
  unfold evaluate
  cases hst : td.st <;> simp only [hdelay, Int.abs_eq_natAbs, Nat.cast_le, Nat.cast_lt] <;> split_ifs <;>
    simp only [hst]

theorem trigger_fst : (trigger sgn0 y td).1 =
    { td with
      st := (trigger sgn0 y td).1.st, cross := (trigger sgn0 y td).1.cross, prev := y, idx := td.idx + 1 } := by
  unfold trigger
  split_ifs
  · dsimp only
    rw [evaluate_fst]
  · rfl

theorem trigger_of_lt_off (h : td.idx < td.off) : trigger sgn0 y td = ({ td with prev := y, idx := td.idx + 1 }, []) := by
  rw [trigger, if_neg (Nat.not_le.mpr h)]

theorem trigger_of_off_le (h : td.off ≤ td.idx) : trigger sgn0 y td =
    ({ (evaluate sgn0 y td).1 with prev := y, idx := td.idx + 1 }, (evaluate sgn0 y td).2) := by
  rw [trigger, if_pos h]

end

section
variable (w : BitVec 64) {s : State}

theorem exec_tdPush_of_inactive (ha : s.td.active = false) : exec (.tdPush w) s = .next (refuse 0x81#8 2 s) := by
  simp only [exec, execTdPush, ha, raise_eq_refuse]
  rfl

theorem exec_tdPush_of_full (ha : s.td.active = true) (hi : 2 ^ 62 ≤ s.td.idx) :
    exec (.tdPush w) s = .next (refuse 0x81#8 5 s) := by
  simp only [exec, execTdPush, ha, if_true, if_pos hi, raise_eq_refuse]
  rfl

theorem exec_tdPush_of_active (ha : s.td.active = true) (hi : s.td.idx < 2 ^ 62) :
    exec (.tdPush w) s = .next { s with
      td := (trigger s.settings.sgn0 w.toInt s.td).1,
      responses := s.responses ++ (trigger s.settings.sgn0 w.toInt s.td).2.map Response.record } := by
  simp only [exec, execTdPush, ha, if_true, if_neg (Nat.not_le.mpr hi)]
  rfl

end

/-- Settles O45: the next unit is read off `trigger`, field by field, below `off` and from `off` on. -/
theorem tdPushFollowsTheTable : Obligations.TdPushFollowsTheTable := by
  refine ⟨encodes_tdPush, rfl, fun w s => ?_⟩
  intro y td sgn
  have hsgn : sgn = signOf s.settings.sgn0 := funext fun x => (signOf_eq _ x).symm
  refine ⟨fun ha hi => ?_, fun ha hi => exec_tdPush_of_full w ha hi.ge, exec_tdPush_of_inactive w⟩
  refine ⟨_, _, _, _, exec_tdPush_of_active w ha hi, cellsKept_of_tx_eq rfl,
    by rw [trigger_fst], ?_⟩
  rw [hsgn]
  rcases Nat.lt_or_ge s.td.idx s.td.off with hoff | hoff
  · have hle : ¬ s.td.off ≤ s.td.idx := Nat.not_le.mpr hoff
    rw [trigger_of_lt_off _ _ _ hoff]
    exact ⟨fun ⟨_, h, _⟩ => absurd h hle, fun _ => rfl, fun ⟨_, h, _⟩ => absurd h hle, fun _ => rfl, fun _ => rfl,
      fun h => absurd h hle⟩
  · rw [trigger_of_off_le _ _ _ hoff]
    dsimp only
    rw [evaluate_cross, evaluate_records, evaluate_st]
    have hw : tc64 w.toInt = w := BitVec.ofInt_toInt
    refine ⟨fun ⟨hst, _, hchange⟩ => if_pos ⟨hst, hchange⟩,
      fun h => if_neg fun ⟨hst, hchange⟩ => h ⟨hst, hoff, hchange⟩,
      fun ⟨hst, _, hdelay⟩ => ?_, fun h => ?_, fun h => absurd hoff (Nat.not_le.mpr h), fun _ => rfl⟩
    · rw [if_pos ⟨hst, hdelay⟩, hw]
      rfl
    · rw [if_neg fun ⟨hst, hdelay⟩ => h ⟨hst, hoff, hdelay⟩]
      rfl

end Sys2Proof.Machine
end

section
/-! Real numbers (R9, R70): the fields of a packed pattern, `rat` as one fraction, and `exactNum` as the inverse of `rat`. -/

namespace Sys2Proof

/-! ### Fields -/

theorem expField_eq (p : Num64) : p.expField = p.toNat / 2 ^ 52 % 2 ^ 11 := by
  rw [Num64.expField, BitVec.extractLsb'_toNat, Nat.shiftRight_eq_div_pow]

theorem fracField_eq (p : Num64) : p.fracField = p.toNat % 2 ^ 52 := by
  rw [Num64.fracField, BitVec.extractLsb'_toNat, Nat.shiftRight_zero]

theorem expField_lt (p : Num64) : p.expField < 2 ^ 11 := BitVec.isLt _

theorem isFinite_iff (p : Num64) : Num64.isFinite p = true ↔ p.expField ≤ 2046 := by
  have hlt := expField_lt p
  rw [Num64.isFinite, bne_iff_ne]
  omega

theorem isNan_iff (p : Num64) : Num64.isNan p = true ↔ p.expField = 2047 ∧ p.fracField ≠ 0 := by
  rw [Num64.isNan, Bool.and_eq_true, beq_iff_eq, bne_iff_ne]

theorem significand_lt (p : Num64) : p.significand < 2 ^ 53 := by
  have hfrac : p.fracField < 2 ^ 52 := BitVec.isLt _
  unfold Num64.significand
  split_ifs <;> omega

/-- The pattern of a sign, a biased exponent and a fraction (R70). -/
def packNum (neg : Bool) (e f : Nat) : Num64 :=
  BitVec.ofNat 64 ((if neg then 2 ^ 63 else 0) + e * 2 ^ 52 + f)

section
variable (neg : Bool) {e f : Nat} (he : e < 2 ^ 11) (hf : f < 2 ^ 52)
include he hf

theorem toNat_packNum : (packNum neg e f).toNat = (if neg then 2 ^ 63 else 0) + e * 2 ^ 52 + f := by
  rw [packNum, BitVec.toNat_ofNat, Nat.mod_eq_of_lt]
  split_ifs <;> omega

theorem expField_packNum : (packNum neg e f).expField = e := by
  rw [expField_eq, toNat_packNum neg he hf]
  split_ifs <;> omega

theorem fracField_packNum : (packNum neg e f).fracField = f := by
  rw [fracField_eq, toNat_packNum neg he hf]
  split_ifs <;> omega

theorem sign_packNum : (packNum neg e f).getLsbD 63 = neg := by
  rw [BitVec.getLsbD, toNat_packNum neg he hf, Nat.testBit_eq_decide_div_mod_eq]
  cases neg <;> simp <;> omega

end

/-! ### Patterns that are forced -/

theorem isFinite_forceFinite (p : Num64) : Num64.isFinite (forceFinite p) = true := by
  rw [forceFinite]
  split_ifs with h
  · exact h
  · rw [isFinite_iff, Num64.expField, BitVec.extractLsb'_and, BitVec.toNat_and]
    exact Nat.and_le_right

theorem isNan_forceNan (p : Num64) : Num64.isNan (forceNan p) = true := by
  rw [forceNan]
  split_ifs with h
  · exact h
  · rw [isNan_iff, Num64.expField, Num64.fracField, BitVec.extractLsb'_or, BitVec.extractLsb'_or]
    constructor
    · rw [show BitVec.extractLsb' 52 11 0x7FF8000000000000#64 = BitVec.allOnes 11 by decide, BitVec.or_allOnes]
      rfl
    · rw [BitVec.toNat_or]
      exact Nat.ne_of_gt (Nat.lt_of_lt_of_le (by decide) Nat.right_le_or)

/-! ### `rat` and `exactNum` -/

/-- The two branches of `rat` are one fraction. -/
theorem scale_eq_div (m : Int) (e b : Nat) :
    (if b ≤ e then ((m * 2 ^ (e - b) : Int) : Rat) else mkRat m (2 ^ (b - e))) = (m * 2 ^ e : Int) / (2 ^ b : Nat) := by
  split_ifs with h
  · obtain ⟨k, rfl⟩ := Nat.exists_eq_add_of_le h
    rw [Nat.add_sub_cancel_left, eq_div_iff (by positivity)]
    push_cast
    ring
  · obtain ⟨k, rfl⟩ := Nat.exists_eq_add_of_le (Nat.le_of_not_le h)
    rw [Nat.add_sub_cancel_left, Rat.mkRat_eq_div, div_eq_div_iff (by positivity) (by positivity)]
    push_cast
    ring

/-- The last bit of a finite pattern with exponent field `e` has the weight `2^(max(e,1) - lastPlace)` (R70). -/
def lastPlace : Nat := 1075

/-- The value of a pattern as one fraction: every exponent is at least that of the subnormals, which is 1. -/
theorem rat_eq_div (p : Num64) :
    rat p = (Machine.signed (p.getLsbD 63) p.significand * 2 ^ max p.expField 1 : Int) / (2 ^ lastPlace : Nat) :=
  scale_eq_div (Machine.signed (p.getLsbD 63) p.significand) (max p.expField 1) lastPlace

@[simp] theorem natAbs_signed (neg : Bool) (m : Nat) : (Machine.signed neg m).natAbs = m := by
  cases neg <;> simp [Machine.signed]

theorem signed_mul (neg : Bool) (m n : Nat) : Machine.signed neg (m * n) = Machine.signed neg m * n := by
  cases neg <;> simp [Machine.signed]

theorem signed_num (x : Rat) : Machine.signed (decide (x.num < 0)) x.num.natAbs = x.num := by
  by_cases h : x.num < 0
  · rw [Machine.signed, if_pos (decide_eq_true h)]
    omega
  · rw [Machine.signed, if_neg (by simpa using h)]
    omega

/-- The biased exponent that `exactNum` gives a rational. -/
def biasedExp (x : Rat) : Nat := x.num.natAbs.log2 + 1023 - x.den.log2

/-- The significand that `exactNum` gives a rational. -/
def scaledSig (x : Rat) : Nat := x.num.natAbs * 2 ^ lastPlace / 2 ^ (x.den.log2 + max (biasedExp x) 1)

/-- What `exactNum` tests: the rational is not 0, its denominator is a power of two, its significand is an integer and its
exponent is that of a finite pattern. -/
structure Representable (x : Rat) : Prop where
  num_ne : x.num ≠ 0
  den_eq : 2 ^ x.den.log2 = x.den
  sig_exact : x.num.natAbs * 2 ^ lastPlace % 2 ^ (x.den.log2 + max (biasedExp x) 1) = 0
  exp_le : biasedExp x ≤ 2046

theorem exactNum_eq (x : Rat) : exactNum x =
    if x.num = 0 then some 0#64
    else if 2 ^ x.den.log2 ≠ x.den then none
    else if x.num.natAbs * 2 ^ lastPlace % 2 ^ (x.den.log2 + max (biasedExp x) 1) ≠ 0 then none
    else if 2046 < biasedExp x then none
    else some (packNum (decide (x.num < 0)) (biasedExp x) (scaledSig x % 2 ^ 52)) := by
  simp only [exactNum, packNum, decide_eq_true_eq, lastPlace, scaledSig, biasedExp]

theorem exactNum_zero : exactNum 0 = some 0#64 := rfl

theorem exactNum_of_representable {x : Rat} (h : Representable x) :
    exactNum x = some (packNum (decide (x.num < 0)) (biasedExp x) (scaledSig x % 2 ^ 52)) := by
  obtain ⟨hnum, hden, hexact, hexp⟩ := h
  rw [exactNum_eq, if_neg hnum, if_neg (not_not.mpr hden), if_neg (not_not.mpr hexact), if_neg (Nat.not_lt.mpr hexp)]

theorem exactNum_of_not_representable {x : Rat} (hx : x ≠ 0) (h : ¬ Representable x) : exactNum x = none := by
  have hnum : x.num ≠ 0 := Rat.num_ne_zero.mpr hx
  rw [exactNum_eq, if_neg hnum]
  split_ifs with hden hexact hexp
  · rfl
  · rfl
  · rfl
  · exact absurd ⟨hnum, not_not.mp hden, not_not.mp hexact, Nat.not_lt.mp hexp⟩ h

namespace Representable
variable {x : Rat} (h : Representable x)
include h

/-- The scaled significand loses no bit. -/
theorem scaledSig_mul : scaledSig x * 2 ^ (x.den.log2 + max (biasedExp x) 1) = x.num.natAbs * 2 ^ lastPlace :=
  Nat.div_mul_cancel (Nat.dvd_of_mod_eq_zero h.sig_exact)

/-- A subnormal's significand is its fraction. -/
theorem scaledSig_lt_of_subnormal (he : biasedExp x = 0) : scaledSig x < 2 ^ 52 := by
  have hmul := h.scaledSig_mul
  rw [he, Nat.zero_max] at hmul
  have hlog : x.num.natAbs.log2 + 1 + lastPlace ≤ 52 + (x.den.log2 + 1) := by
    rw [biasedExp] at he
    rw [lastPlace]
    omega
  refine Nat.lt_of_mul_lt_mul_right (a := 2 ^ (x.den.log2 + 1)) ?_
  calc scaledSig x * 2 ^ (x.den.log2 + 1) = x.num.natAbs * 2 ^ lastPlace := hmul
    _ < 2 ^ (x.num.natAbs.log2 + 1) * 2 ^ lastPlace := Nat.mul_lt_mul_of_pos_right Nat.lt_log2_self (by positivity)
    _ = 2 ^ (x.num.natAbs.log2 + 1 + lastPlace) := (Nat.pow_add ..).symm
    _ ≤ 2 ^ (52 + (x.den.log2 + 1)) := Nat.pow_le_pow_right (by omega) hlog
    _ = 2 ^ 52 * 2 ^ (x.den.log2 + 1) := Nat.pow_add ..

/-- A normal number's significand has exactly 53 bits. -/
theorem scaledSig_of_normal (he : biasedExp x ≠ 0) : 2 ^ 52 ≤ scaledSig x ∧ scaledSig x < 2 ^ 53 := by
  have hmul := h.scaledSig_mul
  have hlog : 52 + (x.den.log2 + max (biasedExp x) 1) = x.num.natAbs.log2 + lastPlace := by
    rw [biasedExp] at he ⊢
    rw [lastPlace]
    omega
  have hscale : 2 ^ 52 * 2 ^ (x.den.log2 + max (biasedExp x) 1) = 2 ^ x.num.natAbs.log2 * 2 ^ lastPlace := by
    rw [← Nat.pow_add, hlog, Nat.pow_add]
  have hlow : 2 ^ x.num.natAbs.log2 * 2 ^ lastPlace ≤ x.num.natAbs * 2 ^ lastPlace :=
    Nat.mul_le_mul_right _ (Nat.log2_self_le (Int.natAbs_ne_zero.mpr h.num_ne))
  have hhigh : x.num.natAbs * 2 ^ lastPlace < 2 ^ (x.num.natAbs.log2 + 1) * 2 ^ lastPlace :=
    Nat.mul_lt_mul_of_pos_right Nat.lt_log2_self (by positivity)
  constructor
  · refine Nat.le_of_mul_le_mul_right (c := 2 ^ (x.den.log2 + max (biasedExp x) 1)) ?_ (by positivity)
    exact hscale.le.trans (hlow.trans hmul.ge)
  · refine Nat.lt_of_mul_lt_mul_right (a := 2 ^ (x.den.log2 + max (biasedExp x) 1)) ?_
    calc scaledSig x * 2 ^ (x.den.log2 + max (biasedExp x) 1) = x.num.natAbs * 2 ^ lastPlace := hmul
      _ < 2 ^ (x.num.natAbs.log2 + 1) * 2 ^ lastPlace := hhigh
      _ = 2 ^ 53 * 2 ^ (x.den.log2 + max (biasedExp x) 1) := by
        rw [Nat.pow_succ, Nat.pow_succ, Nat.mul_right_comm, ← hscale, Nat.mul_right_comm]

theorem isFinite_pack : Num64.isFinite (packNum (decide (x.num < 0)) (biasedExp x) (scaledSig x % 2 ^ 52)) = true := by
  have hexp := h.exp_le
  rw [isFinite_iff, expField_packNum _ (by omega) (Nat.mod_lt _ (by positivity))]
  exact hexp

theorem significand_pack :
    (packNum (decide (x.num < 0)) (biasedExp x) (scaledSig x % 2 ^ 52)).significand = scaledSig x := by
  have hexp := h.exp_le
  have hfrac : scaledSig x % 2 ^ 52 < 2 ^ 52 := Nat.mod_lt _ (by positivity)
  rw [Num64.significand, expField_packNum _ (by omega) hfrac, fracField_packNum _ (by omega) hfrac]
  split_ifs with he
  · exact Nat.mod_eq_of_lt (h.scaledSig_lt_of_subnormal he)
  · obtain ⟨hlow, hhigh⟩ := h.scaledSig_of_normal he
    omega

/-- The pattern given has the value it was made for. -/
theorem rat_pack : rat (packNum (decide (x.num < 0)) (biasedExp x) (scaledSig x % 2 ^ 52)) = x := by
  have hexp := h.exp_le
  have hfrac : scaledSig x % 2 ^ 52 < 2 ^ 52 := Nat.mod_lt _ (by positivity)
  rw [rat_eq_div, h.significand_pack, sign_packNum _ (by omega) hfrac, expField_packNum _ (by omega) hfrac]
  have hcross : Machine.signed (decide (x.num < 0)) (scaledSig x) * 2 ^ max (biasedExp x) 1 * (x.den : Int) =
      x.num * (2 ^ lastPlace : Nat) := by
    rw [← signed_num x, ← signed_mul, signed_num, ← h.scaledSig_mul, signed_mul, Nat.pow_add, h.den_eq]
    push_cast
    ring
  conv_rhs => rw [← Rat.num_div_den x]
  rw [div_eq_div_iff (by positivity) (by exact_mod_cast x.den_ne_zero)]
  exact_mod_cast hcross

end Representable

/-- The denominator of a pattern's value is a power of two. -/
theorem den_rat (p : Num64) : 2 ^ (rat p).den.log2 = (rat p).den := by
  have hdvd : (rat p).den ∣ 2 ^ lastPlace := by
    rw [rat_eq_div]
    have h := Rat.den_dvd (Machine.signed (p.getLsbD 63) p.significand * 2 ^ max p.expField 1) (2 ^ lastPlace : Nat)
    rw [Rat.divInt_eq_div] at h
    exact_mod_cast h
  obtain ⟨k, -, hk⟩ := (Nat.dvd_prime_pow Nat.prime_two).mp hdvd
  rw [hk, Nat.log2_two_pow]

/-- The value of a pattern in lowest terms, against its significand and exponent. -/
theorem num_rat_mul (p : Num64) :
    (rat p).num.natAbs * 2 ^ lastPlace = p.significand * 2 ^ (max p.expField 1 + (rat p).den.log2) := by
  have hcross : (rat p).num * (2 ^ lastPlace : Nat) =
      Machine.signed (p.getLsbD 63) p.significand * 2 ^ max p.expField 1 * ((rat p).den : Int) := by
    have h := rat_eq_div p
    conv_lhs at h => rw [← Rat.num_div_den (rat p)]
    rw [div_eq_div_iff (by exact_mod_cast (rat p).den_ne_zero) (by positivity)] at h
    exact_mod_cast h
  have habs := congrArg Int.natAbs hcross
  simpa only [Int.natAbs_mul, Int.natAbs_natCast, natAbs_signed, Int.natAbs_pow, show Int.natAbs 2 = 2 from rfl,
    Nat.pow_add, den_rat, Nat.mul_assoc] using habs

/-- The exponent found is at most the pattern's own: a normalised significand has no fewer bits. -/
theorem biasedExp_rat_le {p : Num64} (h0 : rat p ≠ 0) : biasedExp (rat p) ≤ max p.expField 1 := by
  have hlow := Nat.log2_self_le (Int.natAbs_ne_zero.mpr (Rat.num_ne_zero.mpr h0))
  have hpow : 2 ^ ((rat p).num.natAbs.log2 + lastPlace) < 2 ^ (53 + (max p.expField 1 + (rat p).den.log2)) :=
    calc 2 ^ ((rat p).num.natAbs.log2 + lastPlace) = 2 ^ (rat p).num.natAbs.log2 * 2 ^ lastPlace := Nat.pow_add ..
      _ ≤ (rat p).num.natAbs * 2 ^ lastPlace := Nat.mul_le_mul_right _ hlow
      _ = p.significand * 2 ^ (max p.expField 1 + (rat p).den.log2) := num_rat_mul p
      _ < 2 ^ 53 * 2 ^ (max p.expField 1 + (rat p).den.log2) :=
        Nat.mul_lt_mul_of_pos_right (significand_lt p) (by positivity)
      _ = 2 ^ (53 + (max p.expField 1 + (rat p).den.log2)) := (Nat.pow_add ..).symm
  have hexp := (Nat.pow_lt_pow_iff_right (by omega)).mp hpow
  rw [lastPlace] at hexp
  rw [biasedExp]
  omega

theorem representable_rat {p : Num64} (hp : Num64.isFinite p = true) (h0 : rat p ≠ 0) : Representable (rat p) where
  num_ne := Rat.num_ne_zero.mpr h0
  den_eq := den_rat p
  sig_exact := by
    rw [num_rat_mul]
    have hle := biasedExp_rat_le h0
    exact Nat.mod_eq_zero_of_dvd (Dvd.dvd.mul_left (Nat.pow_dvd_pow 2 (by omega)) _)
  exp_le := by
    have hle := biasedExp_rat_le h0
    have hfin := (isFinite_iff p).mp hp
    omega

/-! ### `fl` -/

theorem fl_zero : fl 0 = 0#64 := by rw [fl, exactNum_zero]

theorem fl_of_representable {x : Rat} (h : Representable x) :
    fl x = packNum (decide (x.num < 0)) (biasedExp x) (scaledSig x % 2 ^ 52) := by
  rw [fl, exactNum_of_representable h]

theorem fl_of_not_representable {x : Rat} (hx : x ≠ 0) (h : ¬ Representable x) : fl x = forceFinite (Config.flInexact x) := by
  rw [fl, exactNum_of_not_representable hx h]

theorem isFinite_fl (x : Rat) : Num64.isFinite (fl x) = true := by
  by_cases hx : x = 0
  · rw [hx, fl_zero]
    decide
  · by_cases h : Representable x
    · rw [fl_of_representable h]
      exact h.isFinite_pack
    · rw [fl_of_not_representable hx h]
      exact isFinite_forceFinite _

theorem rat_zero : rat 0#64 = 0 := by
  rw [rat_eq_div, show Machine.signed ((0#64).getLsbD 63) (Num64.significand 0#64) = 0 by decide,
    zero_mul, Int.cast_zero, zero_div]

/-- `fl` is exact on the value of a finite pattern (R7, R70). -/
theorem rat_fl_rat {p : Num64} (hp : Num64.isFinite p = true) : rat (fl (rat p)) = rat p := by
  by_cases h0 : rat p = 0
  · rw [h0, fl_zero, rat_zero]
  · have h := representable_rat hp h0
    rw [fl_of_representable h, h.rat_pack]

/-- Settles O49: where `exactNum` answers it inverts `rat`, and it answers on every value of a finite pattern; elsewhere the
pattern is forced. -/
theorem roundingIsFiniteAndExact : Obligations.RoundingIsFiniteAndExact :=
  ⟨isFinite_fl, fun _ hp => rat_fl_rat hp, fl_zero, fun n => isNan_forceNan (Config.freeNan n)⟩

end Sys2Proof
end

section
/-! What every instruction but RESET keeps (R56, R242): it is refused, or it leaves ERRLOG and the other units' state as they were. -/

namespace Sys2Proof.Machine

/-- The state of every unit other than `o` is the same, and so are the command port and the settings (R29, R56). -/
structure KeepsOthers (o : Owner) (s t : State) : Prop where
  settings : t.settings = s.settings
  commands : t.commands = s.commands
  p : o ≠ .param → t.p = s.p
  ck : o ≠ .ck → t.ck = s.ck
  re : o ≠ .re → t.re = s.re
  rd : o ≠ .rd → t.rd = s.rd
  tx : o ≠ .tx → t.tx = s.tx
  tf : o ≠ .tf → t.tf = s.tf
  td : o ≠ .td → t.td = s.td

/-- What a command of unit `o` may answer in state `s`: the error action alone, or, with ERRLOG as it was, a state that keeps the
other units. -/
def UnitEffect (o : Owner) (s : State) (r : Result) : Prop :=
  ∀ t, r = .next t → (∃ opc e, t = raise opc e s) ∨ (t.errlog = s.errlog ∧ KeepsOthers o s t)

/-! ### Writes to one unit, and to the response port -/

section
variable (s : State)

/-- Records and draws are no unit's state. -/
theorem keepsOthers_ports (o : Owner) (rs : List Record) (n : Nat) :
    KeepsOthers o s { s with responses := rs, draws := n } where
  settings := rfl
  commands := rfl
  p _ := rfl
  ck _ := rfl
  re _ := rfl
  rd _ := rfl
  tx _ := rfl
  tf _ := rfl
  td _ := rfl

theorem keepsOthers_raise (o : Owner) (opc : OpcodeByte) (e : ErrCode) : KeepsOthers o s (raise opc e s) where
  settings := rfl
  commands := rfl
  p _ := rfl
  ck _ := rfl
  re _ := rfl
  rd _ := rfl
  tx _ := rfl
  tf _ := rfl
  td _ := rfl

theorem keepsOthers_p (p : Params) : KeepsOthers .param s { s with p := p } :=
  { keepsOthers_ports s .param s.responses s.draws with p := fun h => absurd rfl h }

theorem keepsOthers_ck (ck : Ck) : KeepsOthers .ck s { s with ck := ck } :=
  { keepsOthers_ports s .ck s.responses s.draws with ck := fun h => absurd rfl h }

theorem keepsOthers_re (re : Re) : KeepsOthers .re s { s with re := re } :=
  { keepsOthers_ports s .re s.responses s.draws with re := fun h => absurd rfl h }

theorem keepsOthers_rd (rd : Rd) (rs : List Record) (n : Nat) :
    KeepsOthers .rd s { s with rd := rd, responses := rs, draws := n } :=
  { keepsOthers_ports s .rd rs n with rd := fun h => absurd rfl h }

theorem keepsOthers_tx (tx : Tx) : KeepsOthers .tx s { s with tx := tx } :=
  { keepsOthers_ports s .tx s.responses s.draws with tx := fun h => absurd rfl h }

theorem keepsOthers_tf (tf : Tf) : KeepsOthers .tf s { s with tf := tf } :=
  { keepsOthers_ports s .tf s.responses s.draws with tf := fun h => absurd rfl h }

theorem keepsOthers_td (td : Td) : KeepsOthers .td s { s with td := td } :=
  { keepsOthers_ports s .td s.responses s.draws with td := fun h => absurd rfl h }

end

/-- Emitting records touches no unit's state (R51). -/
theorem KeepsOthers.emitAll {o : Owner} {s t : State} (h : KeepsOthers o s t) (rs : List Response) :
    KeepsOthers o s (emitAll rs t) := { h with }

/-! ### Answers -/

section
variable {o : Owner} {s t : State}

theorem unitEffect_raise (opc : OpcodeByte) (e : ErrCode) : UnitEffect o s (.next (raise opc e s)) := by
  rintro _ ⟨⟩
  exact .inl ⟨opc, e, rfl⟩

theorem unitEffect_next (hlog : t.errlog = s.errlog) (h : KeepsOthers o s t) : UnitEffect o s (.next t) := by
  rintro _ ⟨⟩
  exact .inr ⟨hlog, h⟩

theorem unitEffect_ite {c : Prop} [Decidable c] {r r' : Result} (h : UnitEffect o s r) (h' : UnitEffect o s r') :
    UnitEffect o s (if c then r else r') := by
  split
  · exact h
  · exact h'

theorem unitEffect_setp (p : Params) : UnitEffect .param s (.next { s with p := p }) :=
  unitEffect_next rfl (keepsOthers_p s p)

theorem unitEffect_setpNum (opc : OpcodeByte) (x : Num64) (p : Params) :
    UnitEffect .param s (withFinite opc x s { s with p := p }) :=
  unitEffect_ite (unitEffect_setp p) (unitEffect_raise opc .operand)

theorem unitEffect_runKernel (opc : OpcodeByte) (minLen : Nat) (weight : Nat → Rat) :
    UnitEffect .kg s (runKernel opc minLen weight s) :=
  unitEffect_ite (unitEffect_raise opc .config)
    (unitEffect_next rfl ((keepsOthers_ports s .kg s.responses s.draws).emitAll _))

theorem unitEffect_runExtract (opc : OpcodeByte) (v : Variant) : UnitEffect .tx s (runExtract opc v s) := by
  rcases runExtract_cases opc v s with ⟨-, h⟩ | ⟨-, -, ⟨-, h⟩ | ⟨cells, -, h⟩⟩ <;> rw [h]
  · exact unitEffect_raise opc .config
  · rintro t ⟨⟩
  · obtain ⟨rs, n, hframe⟩ := emitExtraction_frame (extract v (extractArgs s.p) cells) s
    rw [hframe]
    exact unitEffect_next rfl (keepsOthers_ports s .tx _ _)

theorem unitEffect_takeCodeword (cw : Codeword) : UnitEffect .rd s (.next (takeCodeword cw s)) := by
  obtain ⟨rd, rs, n, hframe⟩ := takeCodeword_frame cw s
  rw [hframe]
  exact unitEffect_next rfl (keepsOthers_rd s rd _ _)

theorem unitEffect_rdWord (w : BitVec 32) : UnitEffect .rd s (execRdWord w s) := by
  refine unitEffect_ite ?_ (unitEffect_raise _ _)
  obtain ⟨rd, rs, n, hframe⟩ := drainUpTo_frame (s.rd.buf ++ bin 32 w.toNat).length
    { s with rd := { s.rd with buf := s.rd.buf ++ bin 32 w.toNat } }
  rw [drain, hframe]
  exact unitEffect_next rfl (keepsOthers_rd s rd _ _)

theorem unitEffect_rdStart : UnitEffect .rd s (execRdStart s) := by
  unfold execRdStart
  split
  · exact unitEffect_raise _ _
  · exact unitEffect_next rfl (keepsOthers_rd s _ _ _)

theorem unitEffect_reStart : UnitEffect .re s (execReStart s) := by
  unfold execReStart
  split
  · exact unitEffect_raise _ _
  · exact unitEffect_next rfl (keepsOthers_re s _)

end

/-- Every instruction but RESET is refused, or keeps ERRLOG and the state of the units it does not belong to (R56, R242). -/
theorem exec_unitEffect (i : Instr) (s : State) (hi : i ≠ .reset) : UnitEffect (owner i) s (exec i s) := by
  cases i with
  | reset => exact absurd rfl hi
  | nop => exact unitEffect_next rfl (keepsOthers_ports s .sys _ _)
  | stat => exact unitEffect_next rfl ((keepsOthers_ports s .sys s.responses s.draws).emitAll _)
  | setpRise | setpTop | setpLen | setpM | setpCount | setpScale | setpThr | setpShift | setpMean => exact unitEffect_setp _
  | setpTau x | setpPct x => exact unitEffect_setpNum _ x _
  | ckStart => exact unitEffect_next rfl (keepsOthers_ck s _)
  | ckPush => exact unitEffect_ite (unitEffect_next rfl (keepsOthers_ck s _)) (unitEffect_raise _ _)
  | ckFin => exact unitEffect_ite (unitEffect_next rfl ((keepsOthers_ck s _).emitAll _)) (unitEffect_raise _ _)
  | kgTrap1 | kgTrap2 => exact unitEffect_runKernel _ _ _
  | reStart => exact unitEffect_reStart
  | rePush | reFlush =>
    exact unitEffect_ite (unitEffect_next rfl ((keepsOthers_re s _).emitAll _)) (unitEffect_raise _ _)
  | rdStart => exact unitEffect_rdStart
  | rdWord w => exact unitEffect_rdWord w
  | txClear => exact unitEffect_next rfl (keepsOthers_tx s _)
  | txLoad =>
    exact unitEffect_ite (unitEffect_ite (unitEffect_raise _ _) (unitEffect_next rfl (keepsOthers_tx s _)))
      (unitEffect_raise _ _)
  | txRun1 | txRun2 => exact unitEffect_runExtract _ _
  | tfStart => exact unitEffect_ite (unitEffect_raise _ _) (unitEffect_next rfl (keepsOthers_tf s _))
  | tfPush =>
    exact unitEffect_ite
      (unitEffect_ite
        (unitEffect_ite (unitEffect_next rfl ((keepsOthers_tf s _).emitAll _)) (unitEffect_raise _ _))
        (unitEffect_next rfl (keepsOthers_tf s _)))
      (unitEffect_raise _ _)
  | tdStart => exact unitEffect_next rfl (keepsOthers_td s _)
  | tdPush =>
    exact unitEffect_ite
      (unitEffect_ite (unitEffect_raise _ _) (unitEffect_next rfl ((keepsOthers_td s _).emitAll _)))
      (unitEffect_raise _ _)
  | cwQ0 | cwQ1 | cwQ2 | cwQ3 | cwQ4 | cwQ5 | cwQ6 | cwQ7 | cwEsc | cwQN => exact unitEffect_takeCodeword _

/-! ### What follows for each part of the state -/

theorem exec_reset (s : State) : exec .reset s = .next (resetCore s) := rfl

theorem exec_keepsOthers {i : Instr} {s t : State} (h : exec i s = .next t) (hi : i ≠ .reset) :
    KeepsOthers (owner i) s t := by
  rcases exec_unitEffect i s hi t h with ⟨opc, e, rfl⟩ | ⟨-, hkeeps⟩
  · exact keepsOthers_raise s _ opc e
  · exact hkeeps

/-- An instruction leaves ERRLOG as it was, sets one error's bit, or is RESET (R17, R242). -/
theorem exec_errlog_cases {i : Instr} {s t : State} (h : exec i s = .next t) :
    t.errlog = s.errlog ∨ (∃ e : ErrCode, t.errlog = s.errlog ||| e.bit) ∨ i = .reset ∧ t.errlog = 0#8 := by
  by_cases hi : i = .reset
  · subst hi
    rw [exec_reset] at h
    cases h
    exact .inr (.inr ⟨rfl, rfl⟩)
  · rcases exec_unitEffect i s hi t h with ⟨opc, e, rfl⟩ | ⟨hlog, -⟩
    · exact .inr (.inl ⟨e, rfl⟩)
    · exact .inl hlog

/-- Settles O53: RESET keeps the port and the settings, and every other instruction keeps what is not its own. -/
theorem unitsOwnTheirState : Obligations.UnitsOwnTheirState := by
  intro i s t h
  by_cases hi : i = .reset
  · subst hi
    rw [exec_reset] at h
    cases h
    exact ⟨rfl, rfl, fun hne => absurd rfl hne⟩
  · have hkeeps := exec_keepsOthers h hi
    exact ⟨hkeeps.settings, hkeeps.commands, fun _ =>
      ⟨hkeeps.p, hkeeps.ck, hkeeps.re, hkeeps.rd, hkeeps.tx, hkeeps.tf, hkeeps.td⟩⟩

end Sys2Proof.Machine
end

section
/-! What a step can do to a state (R50), and the step induction: a predicate that the command port does not touch and that the
error action and every command keep is kept by every step. -/

namespace Sys2Proof.Machine

/-- A step that completes waits, takes the error action, or completes the decoded command, whose word it has accepted (R50). -/
theorem step_next_cases {s t : State} (h : step s = .next t) :
    t = s ∨ ∃ c rest, s.commands = c :: rest ∧
      ((∃ opc e, t = raise opc e { s with commands := rest }) ∨
        ∃ i, decodeCommand c = .instr i ∧ exec i { s with commands := rest } = .next t) := by
  rcases step_cases s with ⟨-, hw⟩ | ⟨c, rest, hc, ⟨i, hi, he⟩ | ⟨opc, -, he⟩ | ⟨opc, -, he⟩⟩
  · rw [hw] at h
    cases h
    exact .inl rfl
  · exact .inr ⟨c, rest, hc, .inr ⟨i, hi, he ▸ h⟩⟩
  all_goals
    rw [he] at h
    cases h
    exact .inr ⟨c, rest, hc, .inl ⟨opc, _, rfl⟩⟩

theorem withFormat_eq_instr_iff {f : Format} {opc : OpcodeByte} {op : BitVec 64} {i j : Instr} :
    withFormat f opc op i = .instr j ↔ op.toNat < 2 ^ f.usedBits ∧ i = j := by
  rcases withFormat_cases f opc op i with ⟨hop, hw⟩ | ⟨hop, hw⟩ <;> rw [hw]
  · rw [Decoded.instr.injEq, and_iff_right hop]
  · simp only [reduceCtorEq, Nat.not_lt.mpr hop, false_and]

/-- The command port brings commands alone: no word decodes to a Rice codeword (R63). -/
theorem opcode_ne_none_of_decodeCommand {c : CommandWord} {i : Instr} (h : decodeCommand c = .instr i) :
    i.opcode ≠ none := by
  unfold decodeCommand at h
  dsimp only at h
  split at h
  all_goals simp only [withFormat_eq_instr_iff, reduceCtorEq] at h
  all_goals
    obtain ⟨-, rfl⟩ := h
    exact Option.some_ne_none _

/-- The step induction. -/
theorem step_keeps {P : State → Prop} (hport : ∀ s cs, P s → P { s with commands := cs })
    (hraise : ∀ opc e s, P s → P (raise opc e s))
    (hexec : ∀ i s t, i.opcode ≠ none → P s → exec i s = .next t → P t)
    {s t : State} (hs : P s) (h : step s = .next t) : P t := by
  rcases step_next_cases h with rfl | ⟨c, rest, -, ⟨opc, e, rfl⟩ | ⟨i, hi, he⟩⟩
  · exact hs
  · exact hraise opc e _ (hport s rest hs)
  · exact hexec i _ t (opcode_ne_none_of_decodeCommand hi) (hport s rest hs) he

/-- Settles O51: the error action adds a bit, and of the instructions RESET alone takes one away. -/
theorem errlogIsSticky : Obligations.ErrlogIsSticky := by
  intro s t h hreset b hb
  have hor : ∀ e : ErrCode, (s.errlog ||| e.bit).getLsbD b = true := fun e => by
    rw [BitVec.getLsbD_or, hb, Bool.true_or]
  rcases step_next_cases h with rfl | ⟨c, rest, hc, ⟨opc, e, rfl⟩ | ⟨i, hi, he⟩⟩
  · exact hb
  · exact hor e
  · rcases exec_errlog_cases he with hlog | ⟨e, hlog⟩ | ⟨rfl, -⟩
    · rw [hlog]
      exact hb
    · rw [hlog]
      exact hor e
    · rw [hc] at hreset
      exact absurd (congrArg some hi) hreset

end Sys2Proof.Machine
end

section
/-! The step induction for the invariant of one unit, and the invariants of the registers, ERRLOG, the buffer and the trigger machine. -/

namespace Sys2Proof.Machine

/-- The step induction for a property of one unit's state (R56): what reset sets up and the unit's own commands keep, every step
keeps. -/
theorem unit_step_keeps {α : Type} {get : State → α} {P : α → Prop} (o : Owner)
    (hport : ∀ s cs, get { s with commands := cs } = get s) (hraise : ∀ opc e s, get (raise opc e s) = get s)
    (hothers : ∀ o' s t, KeepsOthers o' s t → o' ≠ o → get t = get s) (hreset : ∀ s, P (get (resetCore s)))
    (hown : ∀ i s t, owner i = o → i.opcode ≠ none → P (get s) → exec i s = .next t → P (get t))
    {s t : State} (hs : P (get s)) (h : step s = .next t) : P (get t) := by
  refine step_keeps (P := fun s => P (get s)) (fun s cs hs => ?_) (fun opc e s hs => ?_) (fun i s t hop hs he => ?_) hs h
  · rw [hport]
    exact hs
  · rw [hraise]
    exact hs
  · by_cases hi : i = .reset
    · subst hi
      rw [exec_reset] at he
      cases he
      exact hreset s
    · by_cases ho : owner i = o
      · exact hown i s t ho hop hs he
      · rw [hothers _ s t (exec_keepsOthers he hi) ho]
        exact hs

/-! ### The parameter registers (R13) -/

theorem paramsInv_reset : ParamsInv Params.reset := by
  unfold ParamsInv
  decide

/-- A Num is written to a register only when it is finite (R96, R102). -/
theorem finite_of_withFinite {opc : OpcodeByte} {x : Num64} {s u t : State} (h : withFinite opc x s u = .next t) :
    (Num64.isFinite x = true ∧ t = u) ∨ t = raise opc .operand s := by
  rcases withFinite_cases opc x s u with ⟨hx, hw⟩ | ⟨-, hw⟩ <;> rw [hw] at h <;> cases h
  · exact .inl ⟨hx, rfl⟩
  · exact .inr rfl

theorem paramsInv_step {s t : State} (hs : ParamsInv s.p) (h : step s = .next t) : ParamsInv t.p := by
  refine unit_step_keeps (get := State.p) .param (fun _ _ => rfl) (fun _ _ _ => rfl) (fun _ _ _ hk => hk.p)
    (fun _ => paramsInv_reset) (fun i s t ho _ hs he => ?_) hs h
  cases i with
  | setpRise | setpTop | setpLen | setpM | setpCount | setpScale | setpThr | setpShift | setpMean =>
    cases he
    exact hs
  | setpTau x =>
    rcases finite_of_withFinite he with ⟨hx, rfl⟩ | rfl
    · exact ⟨hx, hs.2⟩
    · exact hs
  | setpPct x =>
    rcases finite_of_withFinite he with ⟨hx, rfl⟩ | rfl
    · exact ⟨hs.1, hx⟩
    · exact hs
  | _ => cases ho

/-! ### ERRLOG (R16) -/

/-- No error has a hardwired bit (R241). -/
theorem errlogInv_or_bit {log : BitVec 8} (h : ErrlogInv log) (e : ErrCode) : ErrlogInv (log ||| e.bit) := by
  have hbit : e.bit &&& 0xC1#8 = 0#8 := by cases e <;> decide
  rw [ErrlogInv, BitVec.and_or_distrib_right, hbit, h]
  rfl

theorem errlogInv_step {s t : State} (hs : ErrlogInv s.errlog) (h : step s = .next t) : ErrlogInv t.errlog := by
  refine step_keeps (P := fun s => ErrlogInv s.errlog) (fun _ _ hs => hs) (fun _ e _ hs => errlogInv_or_bit hs e)
    (fun i s t _ hs he => ?_) hs h
  rcases exec_errlog_cases he with hlog | ⟨e, hlog⟩ | ⟨-, hlog⟩ <;> rw [hlog]
  · exact hs
  · exact errlogInv_or_bit hs e
  · rfl

/-! ### The waveform buffer (R41, R264) -/

theorem txInv_reset : TxInv State.reset.tx :=
  ⟨rfl, Nat.zero_le _, fun i h => absurd h (Nat.not_lt_zero i), fun _ _ => rfl⟩

theorem txInv_clear {tx : Tx} (h : TxInv tx) : TxInv { tx with wlen := 0 } := by
  obtain ⟨hwf, -, -, hbeyond⟩ := h
  exact ⟨hwf, Nat.zero_le _, fun i hi => absurd hi (Nat.not_lt_zero i), hbeyond⟩

/-- A store of a finite pattern at the fill count keeps the invariant while a cell is free (R173). -/
theorem txInv_load {tx : Tx} {x : Num64} (h : TxInv tx) (hx : Num64.isFinite x = true) (hfree : tx.wlen < Config.wbufCap) :
    TxInv { wlen := tx.wlen + 1, wbuf := Memory.write tx.wbuf tx.wlen x } := by
  obtain ⟨hwf, -, hfilled, hbeyond⟩ := h
  refine ⟨wf_write _ _ hwf, hfree, fun i hi => ?_, fun i hi => ?_⟩
  · rcases Nat.lt_succ_iff_lt_or_eq.mp hi with hlt | rfl
    · dsimp only
      rw [read_write_other _ _ (Nat.ne_of_lt hlt)]
      exact hfilled i hlt
    · exact ⟨x, read_write_same _ _ _, hx⟩
  · dsimp only
    rw [read_write_other _ _ (by omega)]
    exact hbeyond i hi

/-- TX.LOAD is refused or stores a finite pattern in a free cell (R173). -/
theorem exec_txLoad_cases {x : Num64} {s t : State} (h : exec (.txLoad x) s = .next t) :
    (∃ e, t = raise 0x61#8 e s) ∨ (Num64.isFinite x = true ∧ s.tx.wlen < Config.wbufCap ∧
      t = { s with tx := { wlen := s.tx.wlen + 1, wbuf := Memory.write s.tx.wbuf s.tx.wlen x } }) := by
  simp only [exec, execTxLoad] at h
  split_ifs at h with hx hfull <;> cases h
  · exact .inl ⟨_, rfl⟩
  · exact .inr ⟨hx, Nat.lt_of_not_le hfull, rfl⟩
  · exact .inl ⟨_, rfl⟩

/-- An extraction reads the buffer and does not write it (R174, R175). -/
theorem tx_of_runExtract {opc : OpcodeByte} {v : Variant} {s t : State} (h : runExtract opc v s = .next t) : t.tx = s.tx := by
  rcases runExtract_cases opc v s with ⟨-, hr⟩ | ⟨-, -, ⟨-, hr⟩ | ⟨cells, -, hr⟩⟩ <;> rw [hr] at h <;> cases h
  · rfl
  · obtain ⟨rs, n, hframe⟩ := emitExtraction_frame (extract v (extractArgs s.p) cells) s
    rw [hframe]

/-- Settles O58: of TX's own commands CLEAR lowers the fill count, LOAD fills a free cell, and a run writes nothing. -/
theorem stepKeepsTheBuffer : Obligations.StepKeepsTheBuffer := by
  intro s t hs h
  refine unit_step_keeps (get := State.tx) .tx (fun _ _ => rfl) (fun _ _ _ => rfl) (fun _ _ _ hk => hk.tx)
    (fun _ => txInv_reset) (fun i s t ho _ hs he => ?_) hs h
  cases i with
  | txClear =>
    cases he
    exact txInv_clear hs
  | txLoad x =>
    rcases exec_txLoad_cases he with ⟨e, rfl⟩ | ⟨hx, hfree, rfl⟩
    · exact hs
    · exact txInv_load hs hx hfree
  | txRun1 | txRun2 =>
    rw [tx_of_runExtract he]
    exact hs
  | _ => cases ho

/-! ### The trigger machine (R225, R226, R228) -/

theorem tdInv_reset : TdInv Td.reset := ⟨fun _ => rfl, nofun⟩

/-- A fresh job is Idle and has the constants of R222. -/
theorem tdInv_start (rise top thr : BitVec 32) :
    TdInv {
      active := true, rise := rise, top := top, thr := thr, wait := rise.toNat / 2 + 3 * top.toNat / 4,
      off := 3 * rise.toNat + 2 * top.toNat, idx := 0, st := .idle, prev := 0, cross := 0 } :=
  ⟨nofun, fun _ => ⟨rfl, rfl, Nat.zero_le _, fun h => absurd rfl h, nofun⟩⟩

/-- How an evaluation arrives at WaitDelay (R225): by a crossing just recorded, or by staying there within the wait. -/
theorem evaluate_waitDelay_cases {sgn0 y : Int} {td : Td} (h : (evaluate sgn0 y td).1.st = .waitDelay) :
    (td.st = .waitZeroCross ∧ (evaluate sgn0 y td).1.cross = td.idx) ∨
      (td.st = .waitDelay ∧ td.idx ≤ td.cross + td.wait ∧ (evaluate sgn0 y td).1.cross = td.cross) := by
  rw [evaluate_st] at h
  rw [evaluate_cross]
  cases hst : td.st <;> simp only [hst] at h <;> split_ifs at h with hc
  · exact .inl ⟨rfl, if_pos ⟨rfl, hc⟩⟩
  · exact .inr ⟨rfl, Nat.le_of_not_lt hc, if_neg nofun⟩

/-- An evaluation from Idle does not write before `off`, so that later states have an index past it (R225). -/
theorem tdInv_trigger {td : Td} (sgn0 y : Int) (h : TdInv td) (ha : td.active = true) (hidx : td.idx < 2 ^ 62) :
    TdInv (trigger sgn0 y td).1 := by
  obtain ⟨hwait, hoff, -, hstate, hdelay⟩ := h.2 ha
  rcases Nat.lt_or_ge td.idx td.off with hlt | hge
  · have hidle : td.st = .idle := by
      by_contra hne
      exact absurd (hstate hne) (Nat.lt_asymm hlt)
    rw [trigger_of_lt_off _ _ _ hlt]
    exact ⟨fun _ => hidle, fun _ => ⟨hwait, hoff, hidx, fun hne => absurd hidle hne, fun hd => by
      rw [hidle] at hd
      cases hd⟩⟩
  · rw [trigger_of_off_le _ _ _ hge, evaluate_fst]
    refine ⟨fun hna => absurd (ha.symm.trans hna) nofun,
      fun _ => ⟨hwait, hoff, hidx, fun _ => Nat.lt_succ_of_le hge, fun hd => ?_⟩⟩
    dsimp only at hd ⊢
    rcases evaluate_waitDelay_cases hd with ⟨hst, hcross⟩ | ⟨hst, hle, hcross⟩ <;> rw [hcross]
    · have hpast := hstate (by rw [hst]; nofun)
      omega
    · obtain ⟨hafter, hbefore, -⟩ := hdelay hst
      omega

/-- Settles O59: of TD's own commands START opens an Idle machine and PUSH runs one evaluation. -/
theorem stepKeepsTheTrigger : Obligations.StepKeepsTheTrigger := by
  intro s t hs h
  refine unit_step_keeps (get := State.td) .td (fun _ _ => rfl) (fun _ _ _ => rfl) (fun _ _ _ hk => hk.td)
    (fun _ => tdInv_reset) (fun i s t ho _ hs he => ?_) hs h
  cases i with
  | tdStart =>
    cases he
    exact tdInv_start _ _ _
  | tdPush w =>
    rcases Bool.eq_false_or_eq_true s.td.active with ha | ha
    · rcases Nat.lt_or_ge s.td.idx (2 ^ 62) with hidx | hidx
      · rw [exec_tdPush_of_active w ha hidx] at he
        cases he
        exact tdInv_trigger _ _ hs ha hidx
      · rw [exec_tdPush_of_full w ha hidx] at he
        cases he
        exact hs
    · rw [exec_tdPush_of_inactive w ha] at he
      cases he
      exact hs
  | _ => cases ho

end Sys2Proof.Machine
end

section
/-! The encoder's and the filter's invariants (R20, R24, R136, R196). -/

namespace Sys2Proof.Machine

/-! ### The encoder -/

/-- The logarithm of a 32-bit parameter is at most 31 (R71). -/
theorem golombWidth_le {m : BitVec 32} {k : Nat} (h : golombWidth m = some k) : k ≤ 31 := by
  unfold golombWidth at h
  split_ifs at h with hm
  cases h
  exact Nat.le_of_lt_succ ((Nat.log2_lt hm.1).mpr m.isLt)

theorem reInv_reset : ReInv State.reset.re := ⟨Nat.zero_le _, Nat.zero_le _⟩

theorem reInv_append {bits : Bits} {s : State} (h : ReInv s.re) : ReInv (append bits s).re :=
  ⟨h.1, Nat.le_of_lt_succ (append_pending bits s)⟩

/-- RE.START is refused or opens an empty job with a legal width (R137). -/
theorem exec_reStart_cases {s t : State} (h : exec .reStart s = .next t) :
    (∃ e, t = raise 0x40#8 e s) ∨ ∃ k ≤ 31, t = { s with re := { active := true, k := k, acc := [] } } := by
  simp only [exec, execReStart] at h
  cases hk : golombWidth s.p.m <;> simp only [hk] at h <;> cases h
  · exact .inl ⟨_, rfl⟩
  · exact .inr ⟨_, golombWidth_le hk, rfl⟩

/-- RE.PUSH is refused or appends a codeword (R140). -/
theorem exec_rePush_cases {x : BitVec 16} {s t : State} (h : exec (.rePush x) s = .next t) :
    (∃ e, t = raise 0x41#8 e s) ∨ t = append (code (sext16 x) s.re.k) s := by
  simp only [exec, execRePush] at h
  split_ifs at h <;> cases h
  · exact .inr rfl
  · exact .inl ⟨_, rfl⟩

/-- RE.FLUSH is refused or closes the job with nothing pending (R142). -/
theorem exec_reFlush_cases {s t : State} (h : exec .reFlush s = .next t) :
    (∃ e, t = raise 0x42#8 e s) ∨ t.re = { s.re with active := false, acc := [] } := by
  simp only [exec, execReFlush] at h
  split at h <;> cases h
  · exact .inr rfl
  · exact .inl ⟨_, rfl⟩

theorem reInv_step {s t : State} (hs : ReInv s.re) (h : step s = .next t) : ReInv t.re := by
  refine unit_step_keeps (get := State.re) .re (fun _ _ => rfl) (fun _ _ _ => rfl) (fun _ _ _ hk => hk.re)
    (fun _ => reInv_reset) (fun i s t ho _ hs he => ?_) hs h
  cases i with
  | reStart =>
    rcases exec_reStart_cases he with ⟨e, rfl⟩ | ⟨k, hk, rfl⟩
    · exact hs
    · exact ⟨hk, Nat.zero_le _⟩
  | rePush x =>
    rcases exec_rePush_cases he with ⟨e, rfl⟩ | rfl
    · exact hs
    · exact reInv_append hs
  | reFlush =>
    rcases exec_reFlush_cases he with ⟨e, rfl⟩ | hre
    · exact hs
    · rw [hre]
      exact ⟨hs.1, Nat.zero_le _⟩
  | _ => cases ho

/-! ### The filter -/

theorem tfInv_reset : TfInv Tf.reset := nofun

/-- The scale factor that TF.START latches lies in [0, 2) (R24, R200). -/
theorem scaleFactor_bounds (scale : BitVec 24) :
    0 ≤ mkRat scale.toNat (2 ^ 23) ∧ mkRat scale.toNat (2 ^ 23) < 2 := by
  have hlt : (scale.toNat : Rat) < 2 ^ 24 := by exact_mod_cast scale.isLt
  have hnonneg : (0 : Rat) ≤ scale.toNat := Nat.cast_nonneg _
  rw [Rat.mkRat_eq_div]
  push_cast
  constructor
  · positivity
  · rw [div_lt_iff₀ (by positivity)]
    linarith

theorem toNat_pos_of_ne_zero {n : Nat} {v : BitVec n} (h : v ≠ 0) : 0 < v.toNat :=
  Nat.pos_of_ne_zero fun h0 => h (BitVec.eq_of_toNat_eq (by rw [h0]; rfl))

theorem tfInv_freshFilter {rise top : BitVec 32} {tau sf : Rat} (hold : BitVec 16) (hrise : rise ≠ 0) (htop : top ≠ 0)
    (htau : tau ≠ 0) (hsf : 0 ≤ sf ∧ sf < 2) : TfInv (freshFilter rise top tau sf hold) := fun _ =>
  ⟨toNat_pos_of_ne_zero hrise, toNat_pos_of_ne_zero htop, htau, hsf.1, hsf.2, freshLine_length _, freshLine_length _,
    freshLine_length _, rfl, rfl, rfl, rfl, rfl, freshLine_length _, rfl, rfl, rfl⟩

/-- A pipeline step pushes once on every line and keeps what START latched (R196, R203). -/
theorem tfInv_filterStep {tf : Tf} (rnd : Config.Rounding) (v : Int) (h : TfInv tf) : TfInv (filterStep rnd v tf).2 := by
  intro ha
  obtain ⟨hrise, htop, htau, hsf0, hsf2, hB, hD, hC, hF, hK, hL, hN, hQ, hS, hU, hY, hZ⟩ := h ha
  exact ⟨hrise, htop, htau, hsf0, hsf2, (push_length _ _).trans hB, (push_length _ _).trans hD, (push_length _ _).trans hC,
    (push_length _ _).trans hF, (push_length _ _).trans hK, (push_length _ _).trans hL, (push_length _ _).trans hN,
    (push_length _ _).trans hQ, (push_length _ _).trans hS, (push_length _ _).trans hU, (push_length _ _).trans hY,
    (push_length _ _).trans hZ⟩

/-- TF.START is refused or builds a fresh filter from legal parameters (R200). -/
theorem exec_tfStart_cases {s t : State} (h : exec .tfStart s = .next t) :
    (∃ e, t = raise 0x70#8 e s) ∨ (s.p.rise ≠ 0 ∧ s.p.top ≠ 0 ∧ rat s.p.tau ≠ 0 ∧
      t = { s with tf := freshFilter s.p.rise s.p.top (rat s.p.tau) (mkRat s.p.scale.toNat (2 ^ 23)) s.tf.hold }) := by
  simp only [exec, execTfStart] at h
  split_ifs at h with hp <;> cases h
  · exact .inl ⟨_, rfl⟩
  · rw [not_or, not_or] at hp
    obtain ⟨hrise, htop, htau⟩ := hp
    exact .inr ⟨hrise, htop, htau, rfl⟩

/-- TF.PUSH leaves the filter as it was, holds the sample, or runs one pipeline step (R202). -/
theorem exec_tfPush_cases {x : BitVec 16} {s t : State} (h : exec (.tfPush x) s = .next t) :
    t.tf = s.tf ∨ t.tf = { s.tf with hold := x, holdValid := true } ∨ t.tf = (pairStep x s).2 := by
  rcases Bool.eq_false_or_eq_true s.tf.active with ha | ha
  · rcases Bool.eq_false_or_eq_true s.tf.holdValid with hv | hv
    · rcases Bool.eq_false_or_eq_true (fits64 (s.tf.dZ.headD 0)) with hfit | hfit
      · rw [exec_tfPush_of_second x ha hv hfit] at h
        cases h
        exact .inr (.inr rfl)
      · rw [exec_tfPush_of_not_fits x ha hv hfit] at h
        cases h
        exact .inl rfl
    · rw [exec_tfPush_of_first x ha hv] at h
      cases h
      exact .inr (.inl rfl)
  · rw [exec_tfPush_of_inactive x ha] at h
    cases h
    exact .inl rfl

theorem tfInv_step {s t : State} (hs : TfInv s.tf) (h : step s = .next t) : TfInv t.tf := by
  refine unit_step_keeps (get := State.tf) .tf (fun _ _ => rfl) (fun _ _ _ => rfl) (fun _ _ _ hk => hk.tf)
    (fun _ => tfInv_reset) (fun i s t ho _ hs he => ?_) hs h
  cases i with
  | tfStart =>
    rcases exec_tfStart_cases he with ⟨e, rfl⟩ | ⟨hrise, htop, htau, rfl⟩
    · exact hs
    · exact tfInv_freshFilter _ hrise htop htau (scaleFactor_bounds s.p.scale)
  | tfPush x =>
    rcases exec_tfPush_cases he with htf | htf | htf <;> rw [htf]
    · exact hs
    · exact hs
    · exact tfInv_filterStep _ _ hs
  | _ => cases ho

/-- Settles O56: the step induction, once for each of the four. -/
theorem stepKeepsRegistersEncoderAndFilter : Obligations.StepKeepsRegistersEncoderAndFilter := fun _ _ h =>
  ⟨fun hs => paramsInv_step hs h, fun hs => errlogInv_step hs h, fun hs => reInv_step hs h, fun hs => tfInv_step hs h⟩

end Sys2Proof.Machine
end

section
/-! The decoder's invariant (R151): the loop of R155 ends with the job closed or with no complete codeword buffered. -/

namespace Sys2Proof.Machine

/-- What the decode loop keeps from pass to pass: the decoder's invariant but for the complete codewords still buffered. -/
structure RdLoopInv (rd : Rd) : Prop where
  width : rd.k ≤ 31
  bound : rd.remaining < 2 ^ 32
  pending : rd.active = true → 0 < rd.remaining
  closed : rd.active = false → rd.remaining = 0 ∧ rd.buf = []

theorem rdInv_iff (rd : Rd) : RdInv rd ↔ RdLoopInv rd ∧ (rd.active = true → readCodeword rd.k rd.buf = none) := by
  constructor
  · rintro ⟨hk, hbound, hopen, hclosed⟩
    exact ⟨⟨hk, hbound, fun ha => (hopen ha).1, hclosed⟩, fun ha => (hopen ha).2⟩
  · rintro ⟨⟨hk, hbound, hpending, hclosed⟩, hnone⟩
    exact ⟨hk, hbound, fun ha => ⟨hpending ha, hnone ha⟩, hclosed⟩

/-- With no bit buffered no codeword is complete (R153). -/
theorem readCodeword_nil (k : Nat) : readCodeword k [] = none := readCodeword_zeros k 0

theorem lengthOf_pos (cw : Codeword) : 0 < lengthOf cw := by
  cases cw <;> simp only [lengthOf] <;> omega

/-- A closed decoder meets its invariant. -/
theorem rdInv_closed {k : Nat} (hk : k ≤ 31) : RdInv { active := false, k := k, remaining := 0, buf := [] } :=
  ⟨hk, by norm_num, nofun, fun _ => ⟨rfl, rfl⟩⟩

/-- A job just opened meets its invariant (R152). -/
theorem rdInv_start {k : Nat} (hk : k ≤ 31) (count : BitVec 32) :
    RdInv { active := count != 0, k := k, remaining := count.toNat, buf := [] } := by
  refine ⟨hk, count.isLt, fun ha => ⟨toNat_pos_of_ne_zero (bne_iff_ne.mp ha), readCodeword_nil k⟩, fun ha => ⟨?_, rfl⟩⟩
  rw [bne_eq_false_iff_eq.mp ha]
  rfl

/-- `closeIfDone` by cases on the samples still expected (R155). -/
theorem closeIfDone_of_done {s : State} (h : s.rd.remaining = 0) :
    (closeIfDone s).rd = { active := false, k := s.rd.k, remaining := 0, buf := [] } := by
  rw [closeIfDone, if_pos h, ← h]

theorem closeIfDone_of_pending {s : State} (h : s.rd.remaining ≠ 0) : closeIfDone s = s := by
  rw [closeIfDone, if_neg h]

/-- A sample's emission is none of the decoder's state. -/
theorem emitSample_rd (v : Int) (s : State) : (emitSample v s).rd = s.rd := by
  obtain ⟨h, n, hframe⟩ := emitSample_frame v s
  rw [hframe]

/-- One pass of the loop keeps the loop's invariant and shortens the buffer (R155). -/
theorem takeCodeword_keeps_loop (cw : Codeword) {s : State} (h : RdLoopInv s.rd) (hrem : s.rd.remaining ≠ 0) :
    RdLoopInv (takeCodeword cw s).rd ∧ (takeCodeword cw s).rd.buf.length ≤ s.rd.buf.length - 1 := by
  have ha : s.rd.active = true := by
    by_contra hna
    exact hrem (h.closed (Bool.eq_false_iff.mpr hna)).1
  rcases takeCodeword_cases cw s with ⟨hno, -⟩ | ⟨-, t, ht, htake⟩
  · exact absurd ⟨ha, Nat.pos_of_ne_zero hrem⟩ hno
  · have hrd : t.rd = { s.rd with buf := s.rd.buf.drop (lengthOf cw), remaining := s.rd.remaining - 1 } := by
      rw [ht, emitSample_rd]
    rw [htake]
    by_cases hlast : t.rd.remaining = 0
    · rw [closeIfDone_of_done hlast, hrd]
      exact ⟨((rdInv_iff _).mp (rdInv_closed h.width)).1, Nat.zero_le _⟩
    · rw [closeIfDone_of_pending hlast]
      rw [hrd] at hlast ⊢
      have hbound := h.bound
      have hpos := lengthOf_pos cw
      refine ⟨⟨h.width, by dsimp only; omega, fun _ => Nat.pos_of_ne_zero hlast, fun hna => ?_⟩, ?_⟩
      · exact absurd (ha.symm.trans hna) nofun
      · dsimp only
        rw [List.length_drop]
        omega

theorem rdInv_closeIfDone {s : State} (h : RdLoopInv s.rd) (hnone : readCodeword s.rd.k s.rd.buf = none) :
    RdInv (closeIfDone s).rd := by
  by_cases hrem : s.rd.remaining = 0
  · rw [closeIfDone_of_done hrem]
    exact rdInv_closed h.width
  · rw [closeIfDone_of_pending hrem]
    exact (rdInv_iff _).mpr ⟨h, fun _ => hnone⟩

/-- The decode loop establishes the invariant: a bound of one pass for each buffered bit never ends it early (R155). -/
theorem rdInv_drainUpTo (n : Nat) {s : State} (h : RdLoopInv s.rd) (hn : s.rd.buf.length ≤ n) :
    RdInv (drainUpTo n s).rd := by
  induction n generalizing s with
  | zero =>
    rw [drainUpTo]
    refine rdInv_closeIfDone h ?_
    rw [List.length_eq_zero_iff.mp (Nat.le_zero.mp hn), readCodeword_nil]
  | succ n ih =>
    rw [drainUpTo]
    split
    · next hrem =>
      rw [closeIfDone_of_done hrem]
      exact rdInv_closed h.width
    · next hrem =>
      split
      · next hnone => exact (rdInv_iff _).mpr ⟨h, fun _ => hnone⟩
      · next cw _ =>
        obtain ⟨hloop, hshorter⟩ := takeCodeword_keeps_loop cw.1 h hrem
        exact ih hloop (by omega)

/-- More bits break nothing of an open job's loop invariant (R154). -/
theorem rdLoopInv_buffer {rd : Rd} (bits : Bits) (h : RdInv rd) (ha : rd.active = true) :
    RdLoopInv { rd with buf := rd.buf ++ bits } := by
  obtain ⟨hk, hbound, hopen, -⟩ := h
  exact ⟨hk, hbound, fun _ => (hopen ha).1, fun hna => absurd (ha.symm.trans hna) nofun⟩

/-- RD.START is refused or opens a job with a legal width and nothing buffered (R152). -/
theorem exec_rdStart_cases {s t : State} (h : exec .rdStart s = .next t) :
    (∃ e, t = raise 0x50#8 e s) ∨ ∃ k ≤ 31,
      t = { s with rd := { active := s.p.count != 0, k := k, remaining := s.p.count.toNat, buf := [] } } := by
  simp only [exec, execRdStart] at h
  cases hk : golombWidth s.p.m <;> simp only [hk] at h <;> cases h
  · exact .inl ⟨_, rfl⟩
  · exact .inr ⟨_, golombWidth_le hk, rfl⟩

/-- RD.WORD is refused or, with a job open, drains the buffer with 32 bits more (R154). -/
theorem exec_rdWord_cases {w : BitVec 32} {s t : State} (h : exec (.rdWord w) s = .next t) :
    (∃ e, t = raise 0x51#8 e s) ∨
      (s.rd.active = true ∧ t = drain { s with rd := { s.rd with buf := s.rd.buf ++ bin 32 w.toNat } }) := by
  simp only [exec, execRdWord] at h
  split_ifs at h with ha <;> cases h
  · exact .inr ⟨ha, rfl⟩
  · exact .inl ⟨_, rfl⟩

/-- Settles O57: of RD's own commands START opens an empty job and WORD drains; codewords are no commands. -/
theorem stepKeepsTheDecoder : Obligations.StepKeepsTheDecoder := by
  intro s t hs h
  refine unit_step_keeps (get := State.rd) .rd (fun _ _ => rfl) (fun _ _ _ => rfl) (fun _ _ _ hk => hk.rd)
    (fun _ => rdInv_closed (Nat.zero_le _)) (fun i s t ho hop hs he => ?_) hs h
  cases i with
  | rdStart =>
    rcases exec_rdStart_cases he with ⟨e, rfl⟩ | ⟨k, hk, rfl⟩
    · exact hs
    · exact rdInv_start hk s.p.count
  | rdWord w =>
    rcases exec_rdWord_cases he with ⟨e, rfl⟩ | ⟨ha, rfl⟩
    · exact hs
    · exact rdInv_drainUpTo _ (rdLoopInv_buffer _ hs ha) le_rfl
  | cwQ0 | cwQ1 | cwQ2 | cwQ3 | cwQ4 | cwQ5 | cwQ6 | cwQ7 | cwEsc | cwQN => exact absurd rfl hop
  | _ => cases ho

end Sys2Proof.Machine
end

section
/-! RESET and the reset state (R28, R92). -/

namespace Sys2Proof.Machine

theorem encodes_reset : Encodes 0x01#8 0 (fun _ => .reset) :=
  encodes_of_withFormat .z fun op => by
    simp only [decodeCommand, opcodeOf_commandWord, operandOf_commandWord]; rfl

/-- The reset value of PCT, 0.8 (R13), as a number. -/
theorem rat_reset_pct : rat Params.reset.pct = mkRat 3602879701896397 4503599627370496 := by decide +kernel

/-- Settles O55: each unit's invariant holds of its reset value. -/
theorem resetMeetsTheInvariant : Obligations.ResetMeetsTheInvariant :=
  ⟨paramsInv_reset, rfl, reInv_reset, rdInv_closed (Nat.zero_le _), txInv_reset, tfInv_reset, tdInv_reset⟩

/-- The reset state and what RESET leaves are `resetCore` of some state. -/
theorem eq_resetCore_of_reset {t : State} (h : t = State.reset ∨ ∃ s, exec .reset s = .next t) : ∃ s, t = resetCore s := by
  rcases h with rfl | ⟨s, h⟩
  · exact ⟨State.reset, rfl⟩
  · rw [exec_reset] at h
    cases h
    exact ⟨s, rfl⟩

/-- Settles O10: `resetCore` gives every field its reset value but the ports, the draws and the settings. -/
theorem resetRestoresTheResetValues : Obligations.ResetRestoresTheResetValues := by
  refine ⟨encodes_reset, fun s => ⟨resetCore s, exec_reset s, rfl⟩, rfl, fun t ht => ?_⟩
  obtain ⟨s, rfl⟩ := eq_resetCore_of_reset ht
  exact ⟨rfl, rfl, rfl, rfl, rfl, rfl, rfl, rfl, rfl, rat_reset_pct, rfl, rfl, rfl, rfl, rfl, rfl, rfl, rfl, rfl, rfl, rfl⟩

end Sys2Proof.Machine
end

section
/-! The step runs the command it decodes (R43), and no step is stuck (R50): an instruction faults only where a filled cell was never
written, and the invariant of the buffer rules that out. -/

namespace Sys2Proof.Machine

/-- Settles O6: the step accepts the word and dispatches on what it decodes to. -/
theorem stepRunsTheDecodedCommand : Obligations.StepRunsTheDecodedCommand := by
  intro s c rest i hc hi
  simp only [step, accept, hc, hi]

/-- The answer is a next state: no fault and no refusal. -/
def Completes (r : Result) : Prop := ∃ t, r = .next t

theorem completes_next (t : State) : Completes (.next t) := ⟨t, rfl⟩

theorem completes_ite {c : Prop} [Decidable c] {r r' : Result} (h : Completes r) (h' : Completes r') :
    Completes (if c then r else r') := by
  split
  · exact h
  · exact h'

/-- An extraction over written cells completes (R10, R264). -/
theorem completes_runExtract (opc : OpcodeByte) (v : Variant) {s : State} (h : Filled s) : Completes (runExtract opc v s) := by
  obtain ⟨cells, hcells⟩ := readFrom_of_filled h
  rcases runExtract_cases opc v s with ⟨-, hr⟩ | ⟨-, -, ⟨hnone, -⟩ | ⟨_, -, hr⟩⟩
  · exact ⟨_, hr⟩
  · exact absurd (hcells.symm.trans hnone) nofun
  · exact ⟨_, hr⟩

theorem completes_reStart (s : State) : Completes (execReStart s) := by
  unfold execReStart
  split <;> exact completes_next _

theorem completes_rdStart (s : State) : Completes (execRdStart s) := by
  unfold execRdStart
  split <;> exact completes_next _

/-- Where every filled cell has been written, every instruction completes: the run commands of TX alone can fault. -/
theorem exec_completes (i : Instr) {s : State} (h : Filled s) : Completes (exec i s) := by
  cases i with
  | txRun1 | txRun2 => exact completes_runExtract _ _ h
  | reStart => exact completes_reStart s
  | rdStart => exact completes_rdStart s
  | setpTau | setpPct | ckPush | ckFin | kgTrap1 | kgTrap2 | rePush | reFlush | rdWord | tfStart =>
    exact completes_ite (completes_next _) (completes_next _)
  | txLoad | tdPush => exact completes_ite (completes_ite (completes_next _) (completes_next _)) (completes_next _)
  | tfPush =>
    exact completes_ite (completes_ite (completes_ite (completes_next _) (completes_next _)) (completes_next _))
      (completes_next _)
  | _ => exact completes_next _

theorem step_completes {s : State} (h : Filled s) : Completes (step s) := by
  rcases step_cases s with ⟨-, hs⟩ | ⟨c, rest, -, ⟨i, -, hs⟩ | ⟨opc, -, hs⟩ | ⟨opc, -, hs⟩⟩ <;> rw [hs]
  · exact completes_next _
  · exact exec_completes i h
  · exact completes_next _
  · exact completes_next _

/-- The invariant of the buffer has every filled cell written (R264). -/
theorem filled_of_txInv {s : State} (h : TxInv s.tx) : Filled s := fun i hi => by
  obtain ⟨-, -, hwritten, -⟩ := h
  obtain ⟨x, hx, -⟩ := hwritten i hi
  rw [hx]
  rfl

theorem inv_step {s t : State} (hs : Inv s) (h : step s = .next t) : Inv t := by
  obtain ⟨hp, hlog, hre, hrd, htx, htf, htd⟩ := hs
  exact ⟨paramsInv_step hp h, errlogInv_step hlog h, reInv_step hre h, stepKeepsTheDecoder s t hrd h,
    stepKeepsTheBuffer s t htx h, tfInv_step htf h, stepKeepsTheTrigger s t htd h⟩

/-- Settles O60: the step completes by the buffer's invariant, and each unit's invariant is kept. -/
theorem everyStepCompletes : Obligations.EveryStepCompletes := by
  intro s hs
  have ⟨_, _, _, _, htx, _, _⟩ := hs
  obtain ⟨t, ht⟩ := step_completes (filled_of_txInv htx)
  exact ⟨t, ht, inv_step hs ht⟩

end Sys2Proof.Machine
end

section
/-! The locality of the instructions (R56): what an instruction other than RESET does to its unit, to ERRLOG and to the draws is
decided by the parameters, the settings and its unit alone. Hence the records are append-only, and units commute. -/

namespace Sys2Proof.Machine

/-- The state `u` in which the parameters, the settings and the state of unit `o` are those of `s`: what a command of `o` reads
and writes is that of `s`, and the rest is that of `u`. -/
def graft (o : Owner) (s u : State) : State :=
  match o with
  | .ck => { u with p := s.p, settings := s.settings, ck := s.ck }
  | .re => { u with p := s.p, settings := s.settings, re := s.re }
  | .rd => { u with p := s.p, settings := s.settings, rd := s.rd }
  | .tx => { u with p := s.p, settings := s.settings, tx := s.tx }
  | .tf => { u with p := s.p, settings := s.settings, tf := s.tf }
  | .td => { u with p := s.p, settings := s.settings, td := s.td }
  | .sys | .param | .kg => { u with p := s.p, settings := s.settings }

/-- What a command may do outside its unit: set bits of ERRLOG, emit records, draw free values. -/
def charge (b : BitVec 8) (rs : List Record) (n : Nat) (u : State) : State :=
  { u with errlog := u.errlog ||| b, responses := u.responses ++ rs, draws := u.draws + n }

section
variable (o : Owner) (s u : State)

@[simp] theorem graft_p : (graft o s u).p = s.p := by cases o <;> rfl
@[simp] theorem graft_errlog : (graft o s u).errlog = u.errlog := by cases o <;> rfl
@[simp] theorem graft_responses : (graft o s u).responses = u.responses := by cases o <;> rfl
@[simp] theorem graft_draws : (graft o s u).draws = u.draws := by cases o <;> rfl
@[simp] theorem graft_rd : (graft .rd s u).rd = s.rd := rfl
@[simp] theorem graft_tx : (graft .tx s u).tx = s.tx := rfl

theorem graft_self : graft o s s = s := by cases o <;> rfl

theorem charge_none : charge 0#8 [] 0 s = s := by simp [charge]

theorem charge_charge (b b' : BitVec 8) (rs rs' : List Record) (n n' : Nat) :
    charge b' rs' n' (charge b rs n s) = charge (b ||| b') (rs ++ rs') (n + n') s := by
  simp [charge, BitVec.or_assoc, Nat.add_assoc]

/-- What another unit's command leaves is, seen from unit `o`, what was there before (R56). -/
theorem graft_of_keepsOthers {o o' : Owner} {s t : State} (h : KeepsOthers o' s t) (ho : o' ≠ o) (hp : o' ≠ .param) :
    graft o s t = t := by
  cases o with
  | ck => rw [graft, ← h.p hp, ← h.settings, ← h.ck ho]
  | re => rw [graft, ← h.p hp, ← h.settings, ← h.re ho]
  | rd => rw [graft, ← h.p hp, ← h.settings, ← h.rd ho]
  | tx => rw [graft, ← h.p hp, ← h.settings, ← h.tx ho]
  | tf => rw [graft, ← h.p hp, ← h.settings, ← h.tf ho]
  | td => rw [graft, ← h.p hp, ← h.settings, ← h.td ho]
  | sys | param | kg => rw [graft, ← h.p hp, ← h.settings]

end

/-- A change of state local to unit `o`: with the rest of the state replaced it makes the same change to what it reads and writes,
sets the same bits of ERRLOG and draws as many free values. The records may be others. -/
def LocalMap (o : Owner) (f : State → State) : Prop :=
  ∀ s, ∃ b n, ∀ u, ∃ rs, f (graft o s u) = graft o (f s) (charge b rs n u)

/-- A meaning local to unit `o`: the same of an answer that is a next state. -/
def LocalEffect (o : Owner) (f : State → Result) : Prop :=
  ∀ s t, f s = .next t → ∃ b n, ∀ u, ∃ rs, f (graft o s u) = .next (graft o t (charge b rs n u))

/-! ### Local changes -/

section
variable {o : Owner} {f g : State → State}

/-- A write to the unit's own state is local. -/
theorem localMap_write (h : ∀ s u, f (graft o s u) = graft o (f s) u) : LocalMap o f := fun s =>
  ⟨0#8, 0, fun u => ⟨[], by rw [h, charge_none]⟩⟩

theorem localMap_comp (hf : LocalMap o f) (hg : LocalMap o g) : LocalMap o (fun s => g (f s)) := by
  intro s
  obtain ⟨b, n, hf⟩ := hf s
  obtain ⟨b', n', hg⟩ := hg (f s)
  refine ⟨b ||| b', n + n', fun u => ?_⟩
  obtain ⟨rs, hf⟩ := hf u
  obtain ⟨rs', hg⟩ := hg (charge b rs n u)
  exact ⟨rs ++ rs', by dsimp only; rw [hf, hg, charge_charge]⟩

theorem localMap_ite {c : State → Prop} [DecidablePred c] (hc : ∀ s u, c (graft o s u) ↔ c s) (hf : LocalMap o f)
    (hg : LocalMap o g) : LocalMap o (fun s => if c s then f s else g s) := by
  intro s
  simp only [hc]
  split
  · exact hf s
  · exact hg s

/-- Emitting records, whatever they show, and drawing free values is local. -/
theorem localMap_ports (rs : State → List Record) (k : Nat) :
    LocalMap o (fun s => { s with responses := s.responses ++ rs s, draws := s.draws + k }) := fun s =>
  ⟨0#8, k, fun u => ⟨rs (graft o s u), by cases o <;> simp [graft, charge]⟩⟩

theorem localMap_emitAll (rs : State → List Response) : LocalMap o (fun s => emitAll (rs s) s) :=
  localMap_ports (fun s => (rs s).map Response.record) 0

theorem localMap_raise (opc : OpcodeByte) (e : ErrCode) : LocalMap o (raise opc e) := fun _ =>
  ⟨e.bit, 0, fun _ => ⟨[(Response.err e opc).record], by cases o <;> rfl⟩⟩

/-! ### The loops and result emissions -/

theorem localMap_emitExtraction (r : Option (Num64 × Rat)) : LocalMap o (emitExtraction r) := by
  cases r with
  | some r => exact localMap_emitAll _
  | none => exact localMap_ports _ 2

theorem localMap_emitSample (v : Int) : LocalMap o (emitSample v) := by
  intro s
  simp only [emitSample]
  split
  · exact localMap_emitAll (fun _ => _) s
  · exact localMap_ports (fun s => [(Response.samp (Config.freeSample s.draws)).record]) 1 s

theorem localMap_closeIfDone : LocalMap .rd closeIfDone :=
  localMap_ite (c := fun s => s.rd.remaining = 0) (fun _ _ => Iff.rfl) (localMap_write fun _ _ => rfl)
    (localMap_write fun _ _ => rfl)

theorem localMap_takeCodeword (cw : Codeword) : LocalMap .rd (takeCodeword cw) :=
  localMap_ite (c := fun s => s.rd.active ∧ 0 < s.rd.remaining) (fun _ _ => Iff.rfl)
    (localMap_comp (localMap_comp (localMap_write fun _ _ => rfl) (localMap_emitSample _)) localMap_closeIfDone)
    (localMap_write fun _ _ => rfl)

theorem localMap_drainUpTo (n : Nat) : LocalMap .rd (drainUpTo n) := by
  induction n with
  | zero => exact localMap_closeIfDone
  | succ n ih =>
    refine localMap_ite (c := fun s => s.rd.remaining = 0) (fun _ _ => Iff.rfl) localMap_closeIfDone fun s => ?_
    simp only [graft_rd]
    cases readCodeword s.rd.k s.rd.buf with
    | none => exact localMap_write (f := id) (fun _ _ => rfl) s
    | some cw => exact localMap_comp (localMap_takeCodeword cw.1) ih s

theorem localMap_drain : LocalMap .rd drain := fun s => localMap_drainUpTo s.rd.buf.length s

end

/-! ### Local meanings -/

section
variable {o : Owner}

theorem localEffect_next {f : State → State} (hf : LocalMap o f) : LocalEffect o (fun s => .next (f s)) := by
  rintro s _ ⟨⟩
  obtain ⟨b, n, hf⟩ := hf s
  refine ⟨b, n, fun u => ?_⟩
  obtain ⟨rs, hf⟩ := hf u
  exact ⟨rs, congrArg Host.Outcome.next hf⟩

theorem localEffect_ite {c : State → Prop} [DecidablePred c] {f g : State → Result} (hc : ∀ s u, c (graft o s u) ↔ c s)
    (hf : LocalEffect o f) (hg : LocalEffect o g) : LocalEffect o (fun s => if c s then f s else g s) := by
  intro s
  simp only [hc]
  split
  · exact hf s
  · exact hg s

theorem localEffect_write {f : State → State} (h : ∀ s u, f (graft o s u) = graft o (f s) u) :
    LocalEffect o (fun s => .next (f s)) :=
  localEffect_next (localMap_write h)

/-- Emitting records, whatever they show, after a write to the unit's own state is local. -/
theorem localEffect_emit {f : State → State} (rs : State → List Response) (h : ∀ s u, f (graft o s u) = graft o (f s) u) :
    LocalEffect o (fun s => .next (emitAll (rs s) (f s))) := by
  rintro s _ ⟨⟩
  refine ⟨0#8, 0, fun u => ⟨(rs (graft o s u)).map Response.record, ?_⟩⟩
  dsimp only
  rw [h, emitAll_eq, emitAll_eq]
  cases o <;> simp [graft, charge]

theorem localEffect_raise (opc : OpcodeByte) (e : ErrCode) : LocalEffect o (fun s => .next (raise opc e s)) :=
  localEffect_next (localMap_raise opc e)

theorem localEffect_withFinite (opc : OpcodeByte) (x : Num64) {f : State → State}
    (h : ∀ s u, f (graft o s u) = graft o (f s) u) : LocalEffect o (fun s => withFinite opc x s (f s)) :=
  localEffect_ite (fun _ _ => Iff.rfl) (localEffect_write h) (localEffect_raise opc .operand)

theorem localEffect_runKernel (opc : OpcodeByte) (minLen : State → Nat) (weight : State → Nat → Rat)
    (hmin : ∀ s u, minLen (graft .kg s u) = minLen s) :
    LocalEffect .kg (fun s => runKernel opc (minLen s) (weight s) s) := by
  refine localEffect_ite (fun s u => ?_) (localEffect_raise _ _) (localEffect_emit _ fun _ _ => rfl)
  rw [hmin, graft_p]

theorem localEffect_runExtract (opc : OpcodeByte) (v : Variant) : LocalEffect .tx (runExtract opc v) := by
  intro s
  simp only [runExtract, graft_p, graft_tx]
  by_cases hpct : (extractArgs s.p).pct ≤ 0 ∨ 1 ≤ (extractArgs s.p).pct
  · simp only [if_pos hpct]
    exact localEffect_raise _ _ s
  · simp only [if_neg hpct]
    cases Memory.readFrom s.tx.wbuf 0 s.tx.wlen with
    | none => rintro _ ⟨⟩
    | some cells => exact localEffect_next (localMap_emitExtraction _) s

theorem localEffect_reStart : LocalEffect .re execReStart := by
  intro s
  simp only [execReStart, graft_p]
  cases golombWidth s.p.m with
  | none => exact localEffect_raise _ _ s
  | some k =>
    exact localEffect_write (o := .re) (f := fun s => { s with re := { active := true, k := k, acc := [] } }) (fun _ _ => rfl) s

theorem localEffect_rdStart : LocalEffect .rd execRdStart := by
  intro s
  simp only [execRdStart, graft_p]
  cases golombWidth s.p.m with
  | none => exact localEffect_raise _ _ s
  | some k =>
    exact localEffect_write (o := .rd)
      (f := fun s => { s with rd := { active := s.p.count != 0, k := k, remaining := s.p.count.toNat, buf := [] } })
      (fun _ _ => rfl) s

theorem localEffect_rdWord (w : BitVec 32) : LocalEffect .rd (execRdWord w) :=
  localEffect_ite (c := fun s => s.rd.active = true) (fun _ _ => Iff.rfl)
    (localEffect_next (localMap_comp (localMap_write fun _ _ => rfl) localMap_drain)) (localEffect_raise _ _)

end

/-- Every instruction but RESET is local to its unit (R56). -/
theorem exec_local (i : Instr) (hi : i ≠ .reset) : LocalEffect (owner i) (exec i) := by
  cases i with
  | reset => exact absurd rfl hi
  | nop => exact localEffect_write (f := id) fun _ _ => rfl
  | stat => exact localEffect_emit (f := id) (fun s => [.stat (statusImage s)]) fun _ _ => rfl
  | setpRise | setpTop | setpLen | setpM | setpCount | setpScale | setpThr | setpShift | setpMean =>
    exact localEffect_write fun _ _ => rfl
  | setpTau x | setpPct x => exact localEffect_withFinite _ x fun _ _ => rfl
  | ckStart => exact localEffect_write fun _ _ => rfl
  | ckPush => exact localEffect_ite (fun _ _ => Iff.rfl) (localEffect_write fun _ _ => rfl) (localEffect_raise _ _)
  | ckFin => exact localEffect_ite (fun _ _ => Iff.rfl) (localEffect_emit _ fun _ _ => rfl) (localEffect_raise _ _)
  | kgTrap1 | kgTrap2 => exact localEffect_runKernel _ _ _ fun _ _ => rfl
  | reStart => exact localEffect_reStart
  | rePush | reFlush =>
    exact localEffect_ite (fun _ _ => Iff.rfl) (localEffect_emit _ fun _ _ => rfl) (localEffect_raise _ _)
  | rdStart => exact localEffect_rdStart
  | rdWord w => exact localEffect_rdWord w
  | txClear => exact localEffect_write fun _ _ => rfl
  | txLoad =>
    exact localEffect_ite (fun _ _ => Iff.rfl)
      (localEffect_ite (fun _ _ => Iff.rfl) (localEffect_raise _ _) (localEffect_write fun _ _ => rfl)) (localEffect_raise _ _)
  | txRun1 | txRun2 => exact localEffect_runExtract _ _
  | tfStart => exact localEffect_ite (fun _ _ => Iff.rfl) (localEffect_raise _ _) (localEffect_write fun _ _ => rfl)
  | tfPush =>
    exact localEffect_ite (fun _ _ => Iff.rfl)
      (localEffect_ite (fun _ _ => Iff.rfl)
        (localEffect_ite (fun _ _ => Iff.rfl) (localEffect_emit _ fun _ _ => rfl) (localEffect_raise _ _))
        (localEffect_write fun _ _ => rfl))
      (localEffect_raise _ _)
  | tdStart => exact localEffect_write fun _ _ => rfl
  | tdPush =>
    exact localEffect_ite (fun _ _ => Iff.rfl)
      (localEffect_ite (fun _ _ => Iff.rfl) (localEffect_raise _ _) (localEffect_emit _ fun _ _ => rfl))
      (localEffect_raise _ _)
  | cwQ0 | cwQ1 | cwQ2 | cwQ3 | cwQ4 | cwQ5 | cwQ6 | cwQ7 | cwEsc | cwQN => exact localEffect_next (localMap_takeCodeword _)

/-! ### The records -/

/-- Every instruction, RESET included, leaves the records emitted before it where they are (R51). -/
theorem exec_responses {i : Instr} {s t : State} (h : exec i s = .next t) : ∃ rs, t.responses = s.responses ++ rs := by
  by_cases hi : i = .reset
  · subst hi
    rw [exec_reset] at h
    cases h
    exact ⟨[], (List.append_nil _).symm⟩
  · obtain ⟨b, n, hlocal⟩ := exec_local i hi s t h
    obtain ⟨rs, hself⟩ := hlocal s
    rw [graft_self, h, Host.Outcome.next.injEq] at hself
    exact ⟨rs, by rw [hself, graft_responses]; rfl⟩

/-- Settles O52: the error action appends one record, and every instruction appends its own. -/
theorem responsesAreAppendOnly : Obligations.ResponsesAreAppendOnly := by
  intro s t h
  rcases step_next_cases h with rfl | ⟨c, rest, -, ⟨opc, e, rfl⟩ | ⟨i, -, he⟩⟩
  · exact ⟨[], (List.append_nil _).symm⟩
  · exact ⟨_, raise_responses _ opc e⟩
  · obtain ⟨rs, hrs⟩ := exec_responses he
    exact ⟨rs, hrs⟩

/-! ### Two units -/

/-- Two instructions of different functional units that complete in either order from `s`. -/
structure TwoOrders (i j : Instr) (s si sij sj sji : State) : Prop where
  apart : owner i ≠ owner j
  unit_i : owner i ∉ [Owner.sys, Owner.param]
  unit_j : owner j ∉ [Owner.sys, Owner.param]
  exec_i : exec i s = .next si
  exec_ij : exec j si = .next sij
  exec_j : exec j s = .next sj
  exec_ji : exec i sj = .next sji

namespace TwoOrders
variable {i j : Instr} {s si sij sj sji : State}

theorem swap (h : TwoOrders i j s si sij sj sji) : TwoOrders j i s sj sji si sij :=
  ⟨h.apart.symm, h.unit_j, h.unit_i, h.exec_j, h.exec_ji, h.exec_i, h.exec_ij⟩

theorem ne_reset (h : TwoOrders i j s si sij sj sji) : i ≠ .reset := by
  rintro rfl
  exact h.unit_i (List.mem_cons_self ..)

theorem owner_ne_param (h : TwoOrders i j s si sij sj sji) : owner i ≠ .param := fun ho =>
  h.unit_i (ho ▸ List.mem_cons_of_mem _ (List.mem_singleton_self _))

theorem keeps_i (h : TwoOrders i j s si sij sj sji) : KeepsOthers (owner i) s si := exec_keepsOthers h.exec_i h.ne_reset

theorem keeps_ji (h : TwoOrders i j s si sij sj sji) : KeepsOthers (owner i) sj sji := exec_keepsOthers h.exec_ji h.ne_reset

/-- The first instruction has the same effect before and after the other one. -/
theorem effect_i (h : TwoOrders i j s si sij sj sji) : ∃ b n,
    (∃ rs, si = graft (owner i) si (charge b rs n s)) ∧ ∃ rs, sji = graft (owner i) si (charge b rs n sj) := by
  obtain ⟨b, n, hlocal⟩ := exec_local i h.ne_reset s si h.exec_i
  obtain ⟨rs, hs⟩ := hlocal s
  obtain ⟨rs', hsj⟩ := hlocal sj
  rw [graft_self, h.exec_i, Host.Outcome.next.injEq] at hs
  rw [graft_of_keepsOthers h.swap.keeps_i h.apart.symm h.swap.owner_ne_param, h.exec_ji, Host.Outcome.next.injEq] at hsj
  exact ⟨b, n, ⟨rs, hs⟩, ⟨rs', hsj⟩⟩

theorem counts_i (h : TwoOrders i j s si sij sj sji) : ∃ b n,
    (si.errlog = s.errlog ||| b ∧ sji.errlog = sj.errlog ||| b) ∧ si.draws = s.draws + n ∧ sji.draws = sj.draws + n := by
  obtain ⟨b, n, ⟨_, hsi⟩, ⟨_, hsji⟩⟩ := h.effect_i
  refine ⟨b, n, ⟨?_, ?_⟩, ?_, ?_⟩
  · rw [hsi, graft_errlog, charge]
  · rw [hsji, graft_errlog, charge]
  · rw [hsi, graft_draws, charge]
  · rw [hsji, graft_draws, charge]

/-- ERRLOG gains the same bits and as many free values are drawn, in either order. -/
theorem counts_eq (h : TwoOrders i j s si sij sj sji) : sij.errlog = sji.errlog ∧ sij.draws = sji.draws := by
  obtain ⟨b, n, ⟨hsi, hsji⟩, hnsi, hnsji⟩ := h.counts_i
  obtain ⟨b', n', ⟨hsj, hsij⟩, hnsj, hnsij⟩ := h.swap.counts_i
  constructor
  · rw [hsij, hsi, hsji, hsj, BitVec.or_assoc, BitVec.or_assoc, BitVec.or_comm b]
  · omega

/-- The state of a unit other than that of `j`: only `i` may write it, and it writes the same before and after `j`. -/
theorem get_eq_of_ne {α : Type} {get : State → α} {o : Owner} (h : TwoOrders i j s si sij sj sji)
    (hothers : ∀ o' s t, KeepsOthers o' s t → o' ≠ o → get t = get s) (hown : ∀ s u, get (graft o s u) = get s)
    (hj : owner j ≠ o) : get sij = get sji := by
  have hij : get sij = get si := hothers _ _ _ h.swap.keeps_ji hj
  by_cases hi : owner i = o
  · obtain ⟨_, _, -, ⟨_, hsji⟩⟩ := h.effect_i
    rw [hij, hsji, hi, hown]
  · calc get sij = get si := hij
      _ = get s := hothers _ _ _ h.keeps_i hi
      _ = get sj := (hothers _ _ _ h.swap.keeps_i hj).symm
      _ = get sji := (hothers _ _ _ h.keeps_ji hi).symm

theorem get_eq {α : Type} {get : State → α} (o : Owner) (h : TwoOrders i j s si sij sj sji)
    (hothers : ∀ o' s t, KeepsOthers o' s t → o' ≠ o → get t = get s) (hown : ∀ s u, get (graft o s u) = get s) :
    get sij = get sji := by
  by_cases hj : owner j = o
  · exact (h.swap.get_eq_of_ne hothers hown fun hi => h.apart (hi.trans hj.symm)).symm
  · exact h.get_eq_of_ne hothers hown hj

end TwoOrders

/-- Settles O54: each unit is written by one of the two, which is local; bits of ERRLOG and draws add up in either order. -/
theorem unitsCommute : Obligations.UnitsCommute := by
  intro i j s si sij sj sji hne hi hj hsi hsij hsj hsji
  have h : TwoOrders i j s si sij sj sji := ⟨hne, hi, hj, hsi, hsij, hsj, hsji⟩
  obtain ⟨herrlog, hdraws⟩ := h.counts_eq
  exact ⟨h.get_eq .param (fun _ _ _ hk => hk.p) (fun _ _ => rfl), herrlog,
    h.get_eq .ck (fun _ _ _ hk => hk.ck) (fun _ _ => rfl), h.get_eq .re (fun _ _ _ hk => hk.re) (fun _ _ => rfl),
    h.get_eq .rd (fun _ _ _ hk => hk.rd) (fun _ _ => rfl), h.get_eq .tx (fun _ _ _ hk => hk.tx) (fun _ _ => rfl),
    h.get_eq .tf (fun _ _ _ hk => hk.tf) (fun _ _ => rfl), h.get_eq .td (fun _ _ _ hk => hk.td) (fun _ _ => rfl),
    hdraws, h.get_eq .sys (fun _ _ _ hk _ => hk.settings) (fun _ _ => rfl)⟩

end Sys2Proof.Machine
end

section
/-! The decoder and the encoder of command words (R61 to R64): everything the decoder can answer, and that the two agree. -/

namespace Sys2Proof

/-! ### The fields of a command word -/

/-- A command is written as the word whose opcode byte and operand it has (R61). -/
theorem encode_eq_of_fields {c : CommandWord} {i : Instr} {opc : OpcodeByte} {op : BitVec 64}
    (hi : encode i = .command (commandWord opc op)) (hopc : (opcodeOf c).toNat = opc.toNat) (hop : op = operandOf c) :
    encode i = .command c := by
  rw [hi, ← BitVec.eq_of_toNat_eq hopc, hop, commandWord_fields]

/-- The opcode bytes of the instructions are legal (R63). -/
theorem mem_legalOpcodes_of_opcode {i : Instr} {opc : OpcodeByte} (h : i.opcode = some opc) :
    opc ∈ Machine.legalOpcodes := by
  cases i <;> cases h <;> decide

/-! ### From the word to the instruction -/

/-- `i` is the instruction in the row of the opcode map (R63) for word `c`: it has the word's opcode byte, and where
no reserved bit of format `f` is set it is written as the word. -/
structure MapRow (c : CommandWord) (f : Format) (i : Instr) : Prop where
  decode : decodeCommand c = withFormat f (opcodeOf c) (operandOf c) i
  opcode : i.opcode = some (opcodeOf c)
  encode : (operandOf c).toNat < 2 ^ f.usedBits → encode i = .command c

/-- Everything the decoder does with a word: refuse an opcode byte that is not legal, or decode by a row of the opcode map. -/
theorem decodeCommand_cases (c : CommandWord) :
    (opcodeOf c ∉ Machine.legalOpcodes ∧ decodeCommand c = .illegalOpcode (opcodeOf c)) ∨ ∃ f i, MapRow c f i := by
  have hbyte {opc : OpcodeByte} (h : (opcodeOf c).toNat = opc.toNat) : some opc = some (opcodeOf c) :=
    congrArg some (BitVec.eq_of_toNat_eq h.symm)
  generalize hd : decodeCommand c = d
  have hmap := hd
  unfold decodeCommand at hmap
  dsimp only at hmap
  split at hmap
  -- the default row of the map, then its 32 legal rows
  case h_33 =>
    have hother : ∀ opc ∈ Machine.legalOpcodes, (opcodeOf c).toNat ≠ opc.toNat := by
      simp only [Machine.legalOpcodes, List.forall_mem_cons, List.not_mem_nil, false_implies, implies_true, and_true]
      and_intros <;> assumption
    exact .inl ⟨fun hlegal => hother _ hlegal rfl, hmap.symm⟩
  all_goals
    next h =>
    -- the operand the encoder writes is the word's own: the low bits alone are set
    refine .inr ⟨_, _, hd.trans hmap.symm, hbyte h, fun hop => encode_eq_of_fields rfl h ?_⟩
    simp only [Format.usedBits] at hop
    bv_omega

/-! ### From the instruction to the word -/

/-- An extended operand has no reserved bit set (R62). -/
theorem withFormat_setWidth {f : Format} {n : Nat} (h : n ≤ f.usedBits) (opc : OpcodeByte) (v : BitVec n) (i : Instr) :
    withFormat f opc (v.setWidth 64) i = .instr i := by
  rw [withFormat, if_pos (reservedZero_setWidth f v h)]

/-- A format that uses the whole operand reserves no bit (R62). -/
theorem withFormat_of_full {f : Format} (h : f.usedBits = 64) (opc : OpcodeByte) (op : BitVec 64) (i : Instr) :
    withFormat f opc op i = .instr i :=
  Machine.withFormat_eq_instr_iff.mpr ⟨by rw [h]; exact op.isLt, rfl⟩

/-- What the encoder writes decodes to the instruction it was written for: an operand of format Z is zero, the others are the
instruction's, extended or whole. -/
theorem decodeCommand_of_encode {i : Instr} {c : CommandWord} (h : encode i = .command c) : decodeCommand c = .instr i := by
  cases i with
  | nop | reset | stat | ckStart | ckFin | kgTrap1 | kgTrap2 | reStart | reFlush | rdStart | txClear | txRun1 | txRun2
  | tfStart | tdStart =>
    cases h
    rfl
  | setpRise | setpTop | setpLen | setpM | setpCount | setpScale | setpThr | setpShift | setpMean | ckPush | rePush
  | rdWord | tfPush =>
    cases h
    simp only [decodeCommand, opcodeOf_commandWord, operandOf_commandWord, setWidth_setWidth_of_le, Nat.reduceLeDiff]
    exact withFormat_setWidth le_rfl ..
  | setpTau | setpPct | txLoad | tdPush =>
    cases h
    simp only [decodeCommand, opcodeOf_commandWord, operandOf_commandWord]
    exact withFormat_of_full rfl ..
  | cwQ0 | cwQ1 | cwQ2 | cwQ3 | cwQ4 | cwQ5 | cwQ6 | cwQ7 | cwEsc | cwQN => cases h

/-- What decodes to an instruction is the word the encoder writes for it, and has its opcode byte (R61, R63). -/
theorem encode_of_decodeCommand {i : Instr} {c : CommandWord} (h : decodeCommand c = .instr i) :
    encode i = .command c ∧ i.opcode = some (opcodeOf c) := by
  rcases decodeCommand_cases c with ⟨-, hc⟩ | ⟨f, j, hrow⟩
  · exact absurd (hc.symm.trans h) nofun
  · rw [hrow.decode, Machine.withFormat_eq_instr_iff] at h
    obtain ⟨hop, rfl⟩ := h
    exact ⟨hrow.encode hop, hrow.opcode⟩

/-- Settles O2: what is encoded decodes by the instruction's format, and what decodes is encoded by its row of the map. -/
theorem commandsDecodeAndEncodeAgree : Obligations.CommandsDecodeAndEncodeAgree := fun _ _ =>
  ⟨⟨decodeCommand_of_encode, fun h => (encode_of_decodeCommand h).1⟩, fun h => (encode_of_decodeCommand h).2⟩

/-! ### The refusals -/

theorem MapRow.legal {c : CommandWord} {f : Format} {i : Instr} (h : MapRow c f i) : opcodeOf c ∈ Machine.legalOpcodes :=
  mem_legalOpcodes_of_opcode h.opcode

theorem decodeCommand_of_illegal {c : CommandWord} (h : opcodeOf c ∉ Machine.legalOpcodes) :
    decodeCommand c = .illegalOpcode (opcodeOf c) := by
  rcases decodeCommand_cases c with ⟨-, hc⟩ | ⟨f, i, hrow⟩
  · exact hc
  · exact absurd hrow.legal h

/-- Under a legal opcode byte a word is the encoding of an instruction, or its operand is refused (R62, R245). -/
theorem decodeCommand_of_legal {c : CommandWord} (h : opcodeOf c ∈ Machine.legalOpcodes) :
    (∃ i, encode i = .command c ∧ decodeCommand c = .instr i) ∨ decodeCommand c = .operandError (opcodeOf c) := by
  rcases decodeCommand_cases c with ⟨hc, -⟩ | ⟨f, i, hrow⟩
  · exact absurd h hc
  · rw [hrow.decode]
    rcases withFormat_cases f (opcodeOf c) (operandOf c) i with ⟨hop, hw⟩ | ⟨-, hw⟩
    · exact .inl ⟨i, hrow.encode hop, hw⟩
    · exact .inr hw

/-- Settles O4: the map's rows are the legal bytes, each refusal carries the word's own byte, and O2 gives the encodings. -/
theorem decoderRefusesExactlyTheIllegal : Obligations.DecoderRefusesExactlyTheIllegal := by
  intro c
  rw [← and_assoc]
  refine ⟨?_, exists_congr fun i => (commandsDecodeAndEncodeAgree i c).1.symm⟩
  by_cases hlegal : opcodeOf c ∈ Machine.legalOpcodes
  · rcases decodeCommand_of_legal hlegal with ⟨i, -, hc⟩ | hc
    · simp [hc, hlegal]
    · simp [hc, hlegal]
  · simp [decodeCommand_of_illegal hlegal, hlegal]

end Sys2Proof

namespace Sys2Proof.Machine

/-- A step on a word of an illegal opcode byte is the error action (R244). -/
theorem step_of_illegalOpcode {s : State} {c : CommandWord} {rest : List CommandWord} {opc : OpcodeByte}
    (hc : s.commands = c :: rest) (hd : decodeCommand c = .illegalOpcode opc) :
    step s = .next (raise opc .illegalOpcode { s with commands := rest }) := by
  simp only [step, accept, hc, hd]

/-- A step on a word with a refused operand is the error action (R245). -/
theorem step_of_operandError {s : State} {c : CommandWord} {rest : List CommandWord} {opc : OpcodeByte}
    (hc : s.commands = c :: rest) (hd : decodeCommand c = .operandError opc) :
    step s = .next (raise opc .operand { s with commands := rest }) := by
  simp only [step, accept, hc, hd]

/-- Settles O7: the decoder's refusal of the word is the step's error action, in every state. -/
theorem undecodableWordsAreRefusedFirst : Obligations.UndecodableWordsAreRefusedFirst := by
  intro s opc op rest hc
  have hopc : opcodeOf (commandWord opc op) = opc := opcodeOf_commandWord opc op
  constructor
  · intro hillegal
    rw [step_of_illegalOpcode hc (decodeCommand_of_illegal (hopc.symm ▸ hillegal)), hopc, raise_eq_refuse]
    rfl
  · intro hlegal hnone
    rcases decodeCommand_of_legal (c := commandWord opc op) (hopc.symm ▸ hlegal) with ⟨i, hi, -⟩ | hd
    · exact absurd hi (hnone i)
    · rw [step_of_operandError hc hd, hopc, raise_eq_refuse]
      rfl

end Sys2Proof.Machine
end

section
/-! The Rice codewords (R72 to R77): their lengths, how they read back, and the codeword of a sample. -/

namespace Sys2Proof

/-! ### Reading a codeword back -/

/-- A remainder field, written and read (R72). -/
theorem val_bin_of_lt {n x : Nat} (h : x < 2 ^ n) : val (bin n x) = x := by
  rw [val_bin, Nat.mod_eq_of_lt h]

theorem readCodeword_rice_bits {q k r : Nat} {sign : Bool} (h : (Codeword.rice q k sign r).wellFormed = true) (rest : Bits) :
    readCodeword k ((Codeword.rice q k sign r).bits ++ rest) = some (.rice q k sign r, rest) := by
  simp only [Codeword.wellFormed, remainderOk, Bool.and_eq_true, decide_eq_true_eq, bne_iff_ne] at h
  obtain ⟨⟨-, hr⟩, hq⟩ := h
  rw [Codeword.bits, List.append_assoc, List.cons_append, List.cons_append, readCodeword_prefix, if_neg hq]
  simp only [List.length_append, length_bin, Nat.not_lt.mpr (Nat.le_add_right ..), if_false]
  rw [List.take_left' (length_bin k r), List.drop_left' (length_bin k r), val_bin_of_lt hr]

/-- An escape is read the same under every remainder width (R75, R153). -/
theorem readCodeword_esc_bits (raw : BitVec 16) (k : Nat) (rest : Bits) :
    readCodeword k ((Codeword.esc raw).bits ++ rest) = some (.esc raw, rest) := by
  have hlen := length_bin 16 raw.toNat
  rw [Codeword.bits, List.append_assoc, List.cons_append, readCodeword_prefix, if_pos rfl]
  simp only [List.length_append, hlen, Nat.not_lt.mpr (Nat.le_add_right ..), if_false]
  rw [List.take_left' hlen, List.drop_left' hlen, val_bin_of_lt raw.isLt, BitVec.ofNat_toNat, BitVec.setWidth_eq]

/-- The encoder writes a codeword's instruction as its bits (R77). -/
theorem encode_toInstr (cw : Codeword) : encode cw.toInstr = .codeword cw.bits := by
  cases cw with
  | esc raw => rfl
  | rice q k sign r =>
    match q with
    | 0 | 1 | 2 | 3 | 4 | 5 | 6 | 7 => rfl
    | _ + 8 => rfl

/-- A codeword's instruction is well-formed where the codeword is: CW.QN begins at a count of 9 (R77). -/
theorem wellFormed_toInstr (cw : Codeword) : cw.toInstr.wellFormed = cw.wellFormed := by
  cases cw with
  | esc raw => rfl
  | rice q k sign r =>
    match q with
    | 0 | 1 | 2 | 3 | 4 | 5 | 6 | 7 => exact (Bool.and_true _).symm
    | n + 8 =>
      have hcount : decide (8 < n + 8) = (n + 8 != 8) := by
        rw [Bool.eq_iff_iff, decide_eq_true_eq, bne_iff_ne]
        omega
      rw [Codeword.toInstr, Instr.wellFormed, Codeword.wellFormed, hcount, Bool.and_comm]

theorem readCodeword_bits {cw : Codeword} {k : Nat} (hcw : cw.wellFormed = true)
    (hk : ∀ q k' sign r, cw = .rice q k' sign r → k' = k) (rest : Bits) :
    readCodeword k (cw.bits ++ rest) = some (cw, rest) := by
  cases cw with
  | esc raw => exact readCodeword_esc_bits raw k rest
  | rice q k' sign r =>
    obtain rfl := hk q k' sign r rfl
    exact readCodeword_rice_bits hcw rest

/-- Settles O3: the reader finds the fields where the encoder puts them, and `decodeStream` names the instruction. -/
theorem encodedCodewordsReadBack : Obligations.EncodedCodewordsReadBack := by
  intro cw k rest hcw hk
  have hread := readCodeword_bits hcw hk rest
  exact ⟨encode_toInstr cw, (wellFormed_toInstr cw).trans hcw, hread, by rw [decodeStream, hread, Option.map_some]⟩

end Sys2Proof

namespace Sys2Proof.Machine

/-! ### The codeword of a sample -/

/-- The length of a codeword's bits is the length the decoder drops (R72, R74, R75). -/
theorem length_codeword_bits (cw : Codeword) : cw.bits.length = lengthOf cw := by
  cases cw with
  | rice q k sign r =>
    simp only [Codeword.bits, lengthOf, List.length_append, List.length_cons, length_zeros, length_bin]
    omega
  | esc raw => simp only [Codeword.bits, lengthOf, List.length_append, List.length_cons, length_zeros, length_bin]

theorem codewordOf_of_lt {v : Int} {k : Nat} (h : v.natAbs / 2 ^ k < 8) :
    codewordOf v k = .rice (v.natAbs / 2 ^ k) k (decide (v < 0)) (v.natAbs % 2 ^ k) := if_pos h

theorem codewordOf_of_ge {v : Int} {k : Nat} (h : 8 ≤ v.natAbs / 2 ^ k) :
    codewordOf v k = .esc (BitVec.ofInt 16 (if 0 ≤ v then v else v + 32768)) := if_neg (Nat.not_lt.mpr h)

/-- The biased raw field of a sample fits its 16 bits (R74). -/
theorem toNat_raw {v : Int} (hlo : -32768 ≤ v) (hhi : v ≤ 32767) :
    (BitVec.ofInt 16 (if 0 ≤ v then v else v + 32768)).toNat = (if 0 ≤ v then v else v + 32768).toNat := by
  rw [BitVec.toNat_ofInt]
  split_ifs <;> omega

/-- A sample escapes only where `M` is at most 2^12 (R74). -/
theorem width_le_of_escape {v : Int} {k : Nat} (hlo : -32768 ≤ v) (hhi : v ≤ 32767) (h : 8 ≤ v.natAbs / 2 ^ k) : k ≤ 12 := by
  have hmul : 8 * 2 ^ k ≤ v.natAbs := (Nat.le_div_iff_mul_le (by positivity)).mp h
  have hpow : 2 ^ k ≤ 2 ^ 12 := by omega
  exact (Nat.pow_le_pow_iff_right (by decide)).mp hpow

/-- Settles O5: below a quotient of 8 the codeword has the fields of R72, from 8 on it is the escape of R74. -/
theorem codewordOfSample : Obligations.CodewordOfSample := by
  intro v k hlo hhi _
  unfold code
  rw [length_codeword_bits]
  refine ⟨fun h => ?_, fun h => ?_⟩
  · rw [codewordOf_of_lt h]
    exact ⟨by simp only [Codeword.bits, List.append_assoc, List.cons_append, List.nil_append], rfl⟩
  · rw [codewordOf_of_ge h, Codeword.bits, toNat_raw hlo hhi]
    exact ⟨by simp only [List.append_assoc, List.singleton_append], rfl, width_le_of_escape hlo hhi h⟩

/-! ### Decoding a codeword -/

/-- Emitting a sample, with the pattern it shows (R156): `tc_16(v)` where `v` has one. -/
theorem emitSample_pattern (v : Int) (s : State) :
    ∃ h n, emitSample v s = { s with responses := s.responses ++ [record 0x51#8 (h.setWidth 64)], draws := s.draws + n } ∧
      (-32768 ≤ v → v ≤ 32767 → h = BitVec.ofInt 16 v) := by
  rcases Bool.eq_false_or_eq_true (fits16 v) with hfit | hfit
  · exact ⟨tc16 v, 0, by rw [emitSample, if_pos hfit]; rfl, fun _ _ => rfl⟩
  · refine ⟨Config.freeSample s.draws, 1, ?_, fun hlo hhi => ?_⟩
    · rw [emitSample, hfit]
      rfl
    · exact absurd ⟨hlo, hhi⟩ (of_decide_eq_false hfit)

/-- Where a sample is expected, taking a codeword decodes it (R155). -/
theorem decodesTo_of_takeCodeword {i : Instr} {cw : Codeword} {s : State} (hi : exec i s = .next (takeCodeword cw s))
    (ha : s.rd.active = true) (hrem : 0 < s.rd.remaining) : DecodesTo i (valueOf cw) (lengthOf cw) s := by
  rcases takeCodeword_cases cw s with ⟨hno, -⟩ | ⟨-, t, ht, htake⟩
  · exact absurd ⟨ha, hrem⟩ hno
  · obtain ⟨h, n, hsample, hpattern⟩ := emitSample_pattern (valueOf cw)
      { s with rd := { s.rd with buf := s.rd.buf.drop (lengthOf cw), remaining := s.rd.remaining - 1 } }
    rw [← ht] at hsample
    refine ⟨closeIfDone t, h, htake ▸ hi, hpattern, ?_⟩
    by_cases hlast : s.rd.remaining = 1
    · rw [if_pos hlast, closeIfDone, if_pos (by rw [hsample, hlast]), hsample, hlast]
      exact ⟨cellsKept_of_tx_eq rfl, rfl⟩
    · rw [if_neg hlast, closeIfDone_of_pending (by rw [hsample]; dsimp only; omega), hsample, ← ha]
      exact ⟨cellsKept_of_tx_eq rfl, rfl⟩

/-- Settles O28: each codeword's meaning is to take it off the buffer, and its value is the one of R77. -/
theorem codewordsDecodeToTheirValues : Obligations.CodewordsDecodeToTheirValues := by
  intro s k sign r raw ha hrem
  have hrice (q : Nat) {i : Instr} (hi : exec i s = .next (takeCodeword (.rice q k sign r) s)) :
      DecodesTo i (signed sign (q * 2 ^ k + r)) (q + 2 + k) s := decodesTo_of_takeCodeword hi ha hrem
  exact ⟨hrice 0 rfl, hrice 1 rfl, hrice 2 rfl, hrice 3 rfl, hrice 4 rfl, hrice 5 rfl, hrice 6 rfl, hrice 7 rfl,
    decodesTo_of_takeCodeword (cw := .esc raw) rfl ha hrem, fun q _ => hrice q rfl⟩

end Sys2Proof.Machine
end

section
/-! STAT (R93) and the layout of its payload, the STATUS image (R16, R67). -/

namespace Sys2Proof.Machine

theorem encodes_stat : Encodes 0x02#8 0 (fun _ => .stat) :=
  encodes_of_withFormat .z fun op => by
    simp only [decodeCommand, opcodeOf_commandWord, operandOf_commandWord]; rfl

theorem exec_stat (s : State) :
    exec .stat s = .next { s with responses := s.responses ++ [record 0x02#8 (statusImage s)] } := rfl

/-- A field above the `n` low bits, as a number. -/
theorem toNat_append_div {m n : Nat} (x : BitVec m) (y : BitVec n) : (x ++ y).toNat / 2 ^ n = x.toNat := by
  rw [BitVec.toNat_append, ← Nat.shiftLeft_add_eq_or_of_lt y.isLt, Nat.shiftLeft_eq, Nat.mul_comm,
    Nat.mul_add_div (by positivity), Nat.div_eq_of_lt y.isLt, Nat.add_zero]

/-- ERRLOG's field of the image: "bits 0, 6 and 7 are hardwired 0" (R16). -/
theorem statusImage_getLsbD_errlog (s : State) {b : Nat} (h : b < 8) :
    (statusImage s).getLsbD b = (s.errlog.getLsbD b && decide (1 ≤ b ∧ b ≤ 5)) := by
  have hmask : ∀ b < 8, (0x3E#8).getLsbD b = decide (1 ≤ b ∧ b ≤ 5) := by decide
  rw [statusImage, BitVec.getLsbD_append, if_pos h, errlogImage, BitVec.getLsbD_and, hmask b h]

/-- The flags of the image, from bit 8 to bit 15 (R67). -/
theorem statusImage_getLsbD_flags (s : State) :
    (statusImage s).getLsbD 8 = s.ck.active ∧ (statusImage s).getLsbD 9 = s.re.active ∧
    (statusImage s).getLsbD 10 = s.rd.active ∧ (statusImage s).getLsbD 11 = s.tf.active ∧
    (statusImage s).getLsbD 12 = s.td.active ∧ (statusImage s).getLsbD 13 = s.tf.holdValid ∧
    (statusImage s).getLsbD 14 = false ∧ (statusImage s).getLsbD 15 = false := by
  simp only [statusImage, BitVec.getLsbD_append, Nat.reduceLT, Nat.reduceSub, if_true, if_false, BitVec.getLsbD_ofBool,
    BitVec.getLsbD_zero, decide_true, Bool.true_and, and_self]

/-- From bit 16 on the image is TD_ST (R67). -/
theorem statusImage_div (s : State) : (statusImage s).toNat / 2 ^ 16 = s.td.st.number.toNat := by
  have hpow : 2 ^ 16 = 2 ^ 8 * 2 ^ 1 * 2 ^ 1 * 2 ^ 1 * 2 ^ 1 * 2 ^ 1 * 2 ^ 1 * 2 ^ 2 := by norm_num
  have hhigh : (0#46 ++ s.td.st.number).toNat = s.td.st.number.toNat := by
    rw [BitVec.toNat_append]
    simp
  rw [hpow, statusImage]
  simp only [← Nat.div_div_eq_div_mul, toNat_append_div]
  exact hhigh

/-- Settles O11: the image's fields, one lemma for ERRLOG, the flags and TD_ST each. -/
theorem statReportsTheStatusRegister : Obligations.StatReportsTheStatusRegister := by
  refine ⟨encodes_stat, fun s => ⟨statusImage s, exec_stat s, fun b hlo hhi => ?_, ?_⟩⟩
  · rw [statusImage_getLsbD_errlog s (by omega), decide_eq_true ⟨hlo, hhi⟩, Bool.and_true]
  · have hwired {b : Nat} (h8 : b < 8) (hb : ¬(1 ≤ b ∧ b ≤ 5)) : (statusImage s).getLsbD b = false := by
      rw [statusImage_getLsbD_errlog s h8, decide_eq_false hb, Bool.and_false]
    obtain ⟨hck, hre, hrd, htf, htd, hhold, h14, h15⟩ := statusImage_getLsbD_flags s
    refine ⟨hwired (by decide) (by decide), hwired (by decide) (by decide), hwired (by decide) (by decide),
      hck, hre, hrd, htf, htd, hhold, h14, h15, ?_⟩
    rw [statusImage_div]
    cases s.td.st <;> rfl

end Sys2Proof.Machine
end

section
/-! CK, the checksum unit (R111 to R115): CK.FIN, and the sums of a whole job. -/

namespace Sys2Proof.Machine

theorem encodes_ckFin : Encodes 0x22#8 0 (fun _ => .ckFin) :=
  encodes_of_withFormat .z fun op => by
    simp only [decodeCommand, opcodeOf_commandWord, operandOf_commandWord]; rfl

/-- The checksum word as a number (R78). -/
theorem setWidth_checksumWord (a b : Nat) :
    (checksumWord a b).setWidth 64 = BitVec.ofNat 64 (b % 65535 * 2 ^ 16 + a % 65535) := by
  have ha : a % 65535 < 2 ^ 16 := by omega
  have hb : b % 65535 < 2 ^ 16 := by omega
  apply BitVec.eq_of_toNat_eq
  rw [BitVec.toNat_setWidth, BitVec.toNat_ofNat, checksumWord, BitVec.toNat_append, BitVec.toNat_ofNat, BitVec.toNat_ofNat,
    Nat.mod_eq_of_lt ha, Nat.mod_eq_of_lt hb, ← Nat.shiftLeft_add_eq_or_of_lt ha, Nat.shiftLeft_eq]

theorem exec_ckStart (s : State) : exec .ckStart s = .next { s with ck := { active := true, sum1 := 0, sum2 := 0 } } := rfl

section
variable {s : State}

theorem exec_ckPush_of_active (h : BitVec 16) (ha : s.ck.active = true) :
    exec (.ckPush h) s = .next { s with
      ck := { active := true, sum1 := s.ck.sum1 + h.toNat, sum2 := s.ck.sum2 + (s.ck.sum1 + h.toNat) } } := by
  simp only [exec, execCkPush, ha, if_true]
  rfl

theorem exec_ckFin_of_active (ha : s.ck.active = true) :
    exec .ckFin s = .next { s with
      ck := { active := false, sum1 := s.ck.sum1, sum2 := s.ck.sum2 },
      responses := s.responses ++
        [record 0x22#8 (BitVec.ofNat 64 (s.ck.sum2 % 65535 * 2 ^ 16 + s.ck.sum1 % 65535))] } := by
  simp only [exec, execCkFin, ha, if_true, ← setWidth_checksumWord]
  rfl

theorem exec_ckFin_of_inactive (ha : s.ck.active = false) : exec .ckFin s = .next (refuse 0x22#8 2 s) := by
  simp only [exec, execCkFin, ha, raise_eq_refuse]
  rfl

end

/-- Settles O15: one equation of CK.FIN for an open job and one for none. -/
theorem ckFinReportsTheSums : Obligations.CkFinReportsTheSums :=
  ⟨encodes_ckFin, fun _ => ⟨fun ha => ⟨_, exec_ckFin_of_active ha, cellsKept_of_tx_eq rfl, rfl⟩, exec_ckFin_of_inactive⟩⟩

/-! ### A whole job -/

/-- Instructions run in a state before others run in the state they leave (R50). -/
theorem execAll_append {is : List Instr} {s t : State} (h : execAll is s = .next t) (js : List Instr) :
    execAll (is ++ js) s = execAll js t := by
  induction is generalizing s with
  | nil =>
    cases h
    rfl
  | cons i is ih =>
    rw [execAll] at h
    rw [List.cons_append, execAll]
    cases he : exec i s with
    | next u =>
      rw [he] at h
      exact ih h
    | fault f =>
      rw [he] at h
      cases h
    | refused r =>
      rw [he] at h
      cases h

/-- `B` of R115: the sum of `(n - i) * s_i`. -/
def weightedSum (samples : List (BitVec 16)) : Nat :=
  ((List.range samples.length).map fun i => (samples.length - i) * (samples.getD i 0).toNat).sum

/-- The first of the samples has the weight of their number, and the others keep theirs. -/
theorem weightedSum_cons (h : BitVec 16) (hs : List (BitVec 16)) :
    weightedSum (h :: hs) = (hs.length + 1) * h.toNat + weightedSum hs := by
  simp only [weightedSum, List.length_cons, List.range_succ_eq_map, List.map_cons, List.map_map, List.sum_cons,
    Function.comp_def, Nat.sub_zero, List.getD_cons_zero, List.getD_cons_succ, Nat.succ_eq_add_one, Nat.add_sub_add_right]

/-- What the pushes of a job add to the sums it is at (R112, R115). -/
theorem execAll_ckPush (samples : List (BitVec 16)) {s : State} (ha : s.ck.active = true) :
    execAll (samples.map .ckPush) s = .next { s with
      ck := {
        active := true, sum1 := s.ck.sum1 + (samples.map BitVec.toNat).sum,
        sum2 := s.ck.sum2 + samples.length * s.ck.sum1 + weightedSum samples } } := by
  induction samples generalizing s with
  | nil => simp [execAll, weightedSum, ← ha]
  | cons h hs ih =>
    rw [List.map_cons, execAll, exec_ckPush_of_active h ha]
    dsimp only
    rw [ih rfl, weightedSum_cons, List.map_cons, List.sum_cons, List.length_cons]
    dsimp only
    congr 3
    · ring
    · ring

/-- Settles O16: START clears the sums, the pushes add up to R115's, and FIN reports them. -/
theorem checksumJobIsFletcher : Obligations.ChecksumJobIsFletcher := by
  intro samples s
  rw [List.cons_append, execAll, exec_ckStart]
  dsimp only
  rw [execAll_append (execAll_ckPush samples rfl), execAll, exec_ckFin_of_active rfl]
  refine ⟨_, rfl, rfl, ?_⟩
  simp only [Nat.mul_zero, Nat.zero_add, weightedSum]

end Sys2Proof.Machine
end

section
/-! Words written out from the spec (R63, R64, R77). -/

namespace Sys2Proof

/-- Settles O1: the decoder, evaluated on each word. -/
theorem specWordsDecode : Obligations.SpecWordsDecode :=
  ⟨rfl, rfl, rfl, rfl, rfl, rfl, rfl, rfl, rfl, rfl, rfl, rfl, rfl⟩

end Sys2Proof
end

section
/-! NOP (R91) and the parameter writes SETP.* (R94 to R104): their encodings, and the check for a NaN or an infinity. -/

namespace Sys2Proof.Machine

/-! ### NOP -/

theorem encodes_nop : Encodes 0x00#8 0 (fun _ => .nop) :=
  encodes_of_withFormat .z fun op => by
    simp only [decodeCommand, opcodeOf_commandWord, operandOf_commandWord]; rfl

/-- Settles O9: NOP leaves the whole state, so the cells too. -/
theorem nopChangesNothing : Obligations.NopChangesNothing :=
  ⟨encodes_nop, fun _ => ⟨rfl, cellsKept_of_tx_eq rfl⟩⟩

/-! ### SETP -/

/-- The rows 0x10 to 0x1A of the opcode map (R63): the 32-bit registers have format W, SCALE has S, TAU and PCT have X. -/
theorem encodes_setp :
    Encodes 0x10#8 32 (fun op => .setpRise (op.setWidth 32)) ∧ Encodes 0x11#8 32 (fun op => .setpTop (op.setWidth 32)) ∧
    Encodes 0x12#8 64 .setpTau ∧ Encodes 0x13#8 32 (fun op => .setpLen (op.setWidth 32)) ∧
    Encodes 0x14#8 32 (fun op => .setpM (op.setWidth 32)) ∧ Encodes 0x15#8 32 (fun op => .setpCount (op.setWidth 32)) ∧
    Encodes 0x16#8 24 (fun op => .setpScale (op.setWidth 24)) ∧ Encodes 0x17#8 32 (fun op => .setpThr (op.setWidth 32)) ∧
    Encodes 0x18#8 64 .setpPct ∧ Encodes 0x19#8 32 (fun op => .setpShift (op.setWidth 32)) ∧
    Encodes 0x1A#8 32 (fun op => .setpMean (op.setWidth 32)) := by
  refine ⟨encodes_of_withFormat .w fun op => ?rise, encodes_of_withFormat .w fun op => ?top,
    encodes_of_withFormat .x fun op => ?tau, encodes_of_withFormat .w fun op => ?len,
    encodes_of_withFormat .w fun op => ?m, encodes_of_withFormat .w fun op => ?count,
    encodes_of_withFormat .s fun op => ?scale, encodes_of_withFormat .w fun op => ?thr,
    encodes_of_withFormat .x fun op => ?pct, encodes_of_withFormat .w fun op => ?shift,
    encodes_of_withFormat .w fun op => ?mean⟩
  all_goals
    simp only [decodeCommand, opcodeOf_commandWord, operandOf_commandWord]
    rfl

/-- A pattern is finite unless its exponent field is all ones (R70). -/
theorem isFinite_iff_extractLsb'_ne (x : Num64) : Num64.isFinite x = true ↔ x.extractLsb' 52 11 ≠ 0x7FF#11 := by
  rw [Num64.isFinite, bne_iff_ne, ne_eq, ne_eq, ← BitVec.toNat_inj]
  rfl

section
variable (opc : OpcodeByte) {x : Num64} (s t : State)

theorem withFinite_of_exponent_ne (hx : x.extractLsb' 52 11 ≠ 0x7FF#11) : withFinite opc x s t = .next t :=
  if_pos ((isFinite_iff_extractLsb'_ne x).mpr hx)

/-- A NaN or an infinity raises OperandError, whatever the command would have done (R245). -/
theorem withFinite_of_exponent_eq (hx : x.extractLsb' 52 11 = 0x7FF#11) :
    withFinite opc x s t = .next (refuse opc 4 s) := by
  have hnot : ¬ Num64.isFinite x = true := fun hfin => (isFinite_iff_extractLsb'_ne x).mp hfin hx
  rw [withFinite, if_neg hnot, raise_eq_refuse]
  rfl

end

/-- Settles O12: the integer registers are written unconditionally, TAU and PCT past the check for a finite pattern. -/
theorem setpWritesItsRegister : Obligations.SetpWritesItsRegister := by
  obtain ⟨hrise, htop, htau, hlen, hm, hcount, hscale, hthr, hpct, hshift, hmean⟩ := encodes_setp
  exact ⟨hrise, htop, htau, hlen, hm, hcount, hscale, hthr, hpct, hshift, hmean, fun s _ _ _ =>
    ⟨rfl, rfl, withFinite_of_exponent_ne _ s _, withFinite_of_exponent_eq _ s _, rfl, rfl, rfl, rfl, rfl,
      withFinite_of_exponent_ne _ s _, withFinite_of_exponent_eq _ s _, rfl, rfl⟩⟩

end Sys2Proof.Machine
end

section
/-! CK.START and CK.PUSH (R111, R112): their encodings, and a push with no job open. -/

namespace Sys2Proof.Machine

theorem encodes_ckStart : Encodes 0x20#8 0 (fun _ => .ckStart) :=
  encodes_of_withFormat .z fun op => by
    simp only [decodeCommand, opcodeOf_commandWord, operandOf_commandWord]; rfl

theorem encodes_ckPush : Encodes 0x21#8 16 (fun op => .ckPush (op.setWidth 16)) :=
  encodes_of_withFormat .h fun op => by
    simp only [decodeCommand, opcodeOf_commandWord, operandOf_commandWord]; rfl

theorem exec_ckPush_of_inactive (h : BitVec 16) {s : State} (ha : s.ck.active = false) :
    exec (.ckPush h) s = .next (refuse 0x21#8 2 s) := by
  simp only [exec, execCkPush, ha, raise_eq_refuse]
  rfl

/-- Settles O13: the one equation of CK.START holds whether or not a job is open, and it writes no cell. -/
theorem ckStartOpensAJob : Obligations.CkStartOpensAJob :=
  ⟨encodes_ckStart, fun s => ⟨_, exec_ckStart s, cellsKept_of_tx_eq rfl, rfl⟩⟩

/-- Settles O14: one equation of CK.PUSH for an open job and one for none. -/
theorem ckPushAddsTheSample : Obligations.CkPushAddsTheSample :=
  ⟨encodes_ckPush, fun h _ =>
    ⟨fun ha => ⟨_, exec_ckPush_of_active h ha, cellsKept_of_tx_eq rfl, rfl⟩, exec_ckPush_of_inactive h⟩⟩

end Sys2Proof.Machine
end

section
/-! KG (R122 to R127): the shape of the single trapezoid, the double one as a convolution, and the two commands. -/

namespace Sys2Proof.Machine

/-! ### The single trapezoid, region by region -/

section
variable {rise top n : Nat} (tau : Rat)

theorem u1_of_rising (h : n < rise) : u1 rise top tau n = n + tau := if_pos h

theorem u1_of_flat (hlo : rise ≤ n) (hhi : n < rise + top) : u1 rise top tau n = rise := by
  rw [u1, if_neg (Nat.not_lt.mpr hlo), if_pos hhi]

theorem u1_of_falling (hlo : rise + top ≤ n) (hhi : n < 2 * rise + top) :
    u1 rise top tau n = rise - tau - ((n : Rat) - rise - top) := by
  rw [u1, if_neg (by omega), if_neg (Nat.not_lt.mpr hlo), if_pos hhi]

theorem u1_of_padding (h : 2 * rise + top ≤ n) : u1 rise top tau n = 0 := by
  rw [u1, if_neg (by omega), if_neg (by omega), if_neg (Nat.not_lt.mpr h)]

theorem s1_of_padding (h : 2 * rise + top ≤ n) : s1 rise top tau n = 0 := by
  rw [s1, u1_of_padding tau h, zero_div]

end

/-! ### The shape of the single trapezoid (R125) -/

/-- A sum over the list of indices is the sum over their set, for which the library has the rules. -/
theorem sum_map_range (n : Nat) (f : Nat → Rat) : ((List.range n).map f).sum = ∑ i ∈ Finset.range n, f i := by
  rw [← List.sum_toFinset f List.nodup_range, List.toFinset_range]

/-- The leading edge and the trailing one add up to `rise` (R125). -/
theorem u1_add_u1_trailing {rise i : Nat} (top : Nat) (tau : Rat) (h : i < rise) :
    u1 rise top tau i + u1 rise top tau (rise + top + i) = rise := by
  rw [u1_of_rising tau h, u1_of_falling tau (by omega) (by omega)]
  push_cast
  ring

/-- The weights before scaling: `rise` pairs and `top` flat indices of `rise` each (R125). -/
theorem sum_u1 (rise top : Nat) (tau : Rat) :
    ∑ n ∈ Finset.range (2 * rise + top), u1 rise top tau n = rise * (rise + top) := by
  have hflat : ∑ i ∈ Finset.range top, u1 rise top tau (rise + i) = top * rise := by
    rw [Finset.sum_congr rfl fun i hi => u1_of_flat tau (Nat.le_add_right rise i)
      (Nat.add_lt_add_left (Finset.mem_range.mp hi) rise)]
    simp
  have hedges : ∑ i ∈ Finset.range rise, u1 rise top tau i +
      ∑ i ∈ Finset.range rise, u1 rise top tau (rise + top + i) = rise * rise := by
    rw [← Finset.sum_add_distrib,
      Finset.sum_congr rfl fun i hi => u1_add_u1_trailing top tau (Finset.mem_range.mp hi)]
    simp
  rw [show 2 * rise + top = rise + top + rise by omega, Finset.sum_range_add, Finset.sum_range_add, hflat,
    add_right_comm, hedges]
  ring

/-- Settles O19: one step of `u1` on either edge, and the sum by pairs, scaled by `1/(rise*tau)`. -/
theorem singleTrapezoidShape : Obligations.SingleTrapezoidShape := by
  intro rise top tau hrise htau
  have hne : (rise : Rat) ≠ 0 := by exact_mod_cast Nat.one_le_iff_ne_zero.mp hrise
  refine ⟨fun n hn => ?_, fun n hlo hhi => ?_, ?_⟩
  · rw [s1, s1, ← sub_div, u1_of_rising tau hn, u1_of_rising tau (Nat.lt_of_succ_lt hn)]
    push_cast
    ring
  · rw [s1, s1, ← sub_div, u1_of_falling tau hlo (by omega), u1_of_falling tau (by omega) hhi]
    push_cast
    ring
  · simp only [sum_map_range, s1]
    rw [← Finset.sum_div, sum_u1, mul_div_mul_left _ _ hne]

/-! ### The double trapezoid (R127) -/

/-- Convolution with the differencer: the sequence negated, and delayed by `g` (R127). -/
theorem sum_mul_differencer (f : Nat → Rat) {g : Nat} (hg : g ≠ 0) (n : Nat) :
    ∑ j ∈ Finset.range (n + 1), f j * (if n - j = 0 then -1 else if n - j = g then 1 else 0) =
      -f n + if n < g then 0 else f (n - g) := by
  have hdelayed : ∑ j ∈ Finset.range n, f j * (if n - j = g then 1 else 0) = if n < g then 0 else f (n - g) := by
    by_cases h : n < g
    · rw [if_pos h]
      exact Finset.sum_eq_zero fun j _ => by rw [if_neg (by omega), mul_zero]
    · rw [if_neg h, Finset.sum_eq_single_of_mem (n - g) (Finset.mem_range.mpr (by omega))
        fun j hj hne => by rw [Finset.mem_range] at hj; rw [if_neg (by omega), mul_zero],
        if_pos (by omega), mul_one]
  have hnonzero : ∀ j ∈ Finset.range n, f j * (if n - j = 0 then -1 else if n - j = g then 1 else 0) =
      f j * (if n - j = g then 1 else 0) := fun j hj => by
    rw [Finset.mem_range] at hj
    rw [if_neg (by omega)]
  rw [Finset.sum_range_succ, Finset.sum_congr rfl hnonzero, hdelayed, Nat.sub_self, if_pos rfl, mul_neg_one, add_comm]

/-- From the natural length on the two copies are both in their padding, so `d2` needs no case of its own there. -/
theorem d2_eq (rise top : Nat) (tau : Rat) (n : Nat) : d2 rise top tau n =
    -s1 rise top tau n + if n < rise + top then 0 else s1 rise top tau (n - (rise + top)) := by
  by_cases h : n < 3 * rise + 2 * top
  · exact if_pos h
  · rw [d2, if_neg h, s1_of_padding tau (by omega : 2 * rise + top ≤ n),
      s1_of_padding tau (by omega : 2 * rise + top ≤ n - (rise + top)), ite_self, neg_zero, add_zero]

/-- Settles O20: both sides are the negated single trapezoid and its delayed copy. -/
theorem doubleTrapezoidIsTheConvolution : Obligations.DoubleTrapezoidIsTheConvolution := by
  intro rise top tau hrise _ n
  rw [sum_map_range, sum_mul_differencer _ (by omega : rise + top ≠ 0), d2_eq]

/-! ### The commands (R122, R123, R126) -/

theorem encodes_kgTrap1 : Encodes 0x30#8 0 (fun _ => .kgTrap1) :=
  encodes_of_withFormat .z fun op => by
    simp only [decodeCommand, opcodeOf_commandWord, operandOf_commandWord]; rfl

theorem encodes_kgTrap2 : Encodes 0x31#8 0 (fun _ => .kgTrap2) :=
  encodes_of_withFormat .z fun op => by
    simp only [decodeCommand, opcodeOf_commandWord, operandOf_commandWord]; rfl

theorem kernelRefused_iff (minLen rise length : Nat) (tau : Rat) :
    kernelRefused minLen rise length tau = true ↔ (length ≠ 0 ∧ length < minLen) ∨ rise = 0 ∨ tau = 0 := by
  simp only [kernelRefused, Bool.or_eq_true, decide_eq_true_eq, beq_iff_eq, or_assoc]

/-- With a legal length the number of weights is the source's `max(length, MIN)` (R123). -/
theorem map_record_kernelRecords {minLen length : Nat} (h : length = 0 ∨ minLen ≤ length) (weight : Nat → Rat) :
    (kernelRecords minLen length weight).map Response.record =
      (List.range (max length minLen)).map fun n => record 0x30#8 (fl (weight n)) := by
  have hcount : (if length ≠ 0 then length else minLen) = max length minLen := by split_ifs <;> omega
  rw [kernelRecords, hcount, List.map_map]
  rfl

section
variable {opc : OpcodeByte} {minLen : Nat} (weight : Nat → Rat) {s : State}

theorem runKernel_of_legal
    (h : (s.p.len.toNat = 0 ∨ minLen ≤ s.p.len.toNat) ∧ 0 < s.p.rise.toNat ∧ rat s.p.tau ≠ 0) :
    runKernel opc minLen weight s = .next { s with
      responses := s.responses ++
        (List.range (max s.p.len.toNat minLen)).map fun n => record 0x30#8 (fl (weight n)) } := by
  obtain ⟨hlen, hrise, htau⟩ := h
  rcases runKernel_cases opc minLen weight s with ⟨href, -⟩ | ⟨-, hrun⟩
  · rcases (kernelRefused_iff _ _ _ _).mp href with ⟨hsupplied, hshort⟩ | hzero | hzero
    · omega
    · omega
    · exact absurd hzero htau
  · rw [hrun, emitAll_eq, map_record_kernelRecords hlen]

theorem runKernel_of_refused
    (h : (s.p.len.toNat ≠ 0 ∧ s.p.len.toNat < minLen) ∨ s.p.rise.toNat = 0 ∨ rat s.p.tau = 0) :
    runKernel opc minLen weight s = .next (refuse opc 1 s) := by
  rcases runKernel_cases opc minLen weight s with ⟨-, hrun⟩ | ⟨hlegal, -⟩
  · rw [hrun, raise_eq_refuse]
    rfl
  · exact absurd ((kernelRefused_iff _ _ _ _).mpr h) (Bool.eq_false_iff.mp hlegal)

end

/-- Settles O17: the two outcomes of a kernel command, for the weights `s1`. -/
theorem trap1EmitsTheSingleTrapezoid : Obligations.Trap1EmitsTheSingleTrapezoid :=
  ⟨encodes_kgTrap1, fun _ =>
    ⟨fun h => ⟨_, runKernel_of_legal (s1 _ _ _) h, cellsKept_of_tx_eq rfl, rfl⟩, runKernel_of_refused (s1 _ _ _)⟩⟩

/-- Settles O18: the same for the weights `d2`. -/
theorem trap2EmitsTheDoubleTrapezoid : Obligations.Trap2EmitsTheDoubleTrapezoid :=
  ⟨encodes_kgTrap2, fun _ =>
    ⟨fun h => ⟨_, runKernel_of_legal (d2 _ _ _) h, cellsKept_of_tx_eq rfl, rfl⟩, runKernel_of_refused (d2 _ _ _)⟩⟩

end Sys2Proof.Machine
end

section
/-! RE, the Rice encoder (R136 to R143): the words cut off a bit string spell it, one equation per command and case, and a whole
job. -/

namespace Sys2Proof

/-! ### Words and the bits they spell -/

/-- The word that at most 32 bits spell reads back as those bits, padded with zeros on the right (R76). -/
theorem bin_leftWord {s : Bits} (h : s.length ≤ 32) : bin 32 (leftWord s).toNat = s ++ zeros (32 - s.length) := by
  have hlen : (s ++ zeros (32 - s.length)).length = 32 := by
    rw [List.length_append, length_zeros]
    omega
  have hval : (leftWord s).toNat = val (s ++ zeros (32 - s.length)) := by
    have hlt := val_lt (s ++ zeros (32 - s.length))
    rw [hlen] at hlt
    rw [← Nat.mod_eq_of_lt hlt, val_append, length_zeros, val_zeros, Nat.add_zero, leftWord, BitVec.toNat_ofNat]
  calc bin 32 (leftWord s).toNat
      = bin (s ++ zeros (32 - s.length)).length (val (s ++ zeros (32 - s.length))) := by rw [hlen, hval]
    _ = s ++ zeros (32 - s.length) := bin_val _

end Sys2Proof

namespace Sys2Proof.Machine

/-- Nothing is lost where words are cut off (R139). -/
theorem flatMap_cutWords {n : Nat} {bits : Bits} (h : 32 * n ≤ bits.length) :
    (cutWords n bits).1.flatMap (fun w => bin 32 w.toNat) ++ (cutWords n bits).2 = bits := by
  induction n generalizing bits with
  | zero => rfl
  | succ n ih =>
    have htake : (bits.take 32).length = 32 := List.length_take_of_le (by omega)
    have hfirst : bin 32 (leftWord (bits.take 32)).toNat = bits.take 32 := by
      simpa [htake, zeros] using bin_leftWord htake.le
    have hrest := ih (bits := bits.drop 32) (by rw [List.length_drop]; omega)
    rw [cutWords, List.flatMap_cons, List.append_assoc, hfirst, hrest, List.take_append_drop]

/-- The words that the flush of a job releases (R142). -/
def flushedWords (acc : Bits) : List (BitVec 32) := if acc = [] then [] else [leftWord acc]

@[simp] theorem flushedWords_nil : flushedWords [] = [] := rfl

theorem flushedWords_of_ne_nil {acc : Bits} (h : acc ≠ []) : flushedWords acc = [leftWord acc] := if_neg h

theorem flatMap_flushedWords {acc : Bits} (h : acc.length ≤ 31) :
    ∃ pad < 32, (flushedWords acc).flatMap (fun w => bin 32 w.toNat) = acc ++ zeros pad := by
  by_cases hacc : acc = []
  · subst hacc
    exact ⟨0, by decide, rfl⟩
  · have hpos := List.length_pos_of_ne_nil hacc
    refine ⟨32 - acc.length, by omega, ?_⟩
    rw [flushedWords_of_ne_nil hacc, List.flatMap_singleton, bin_leftWord (by omega)]

/-! ### RE.START -/

theorem encodes_reStart : Encodes 0x40#8 0 (fun _ => .reStart) :=
  encodes_of_withFormat .z fun op => by
    simp only [decodeCommand, opcodeOf_commandWord, operandOf_commandWord]; rfl

/-- The latched width is the logarithm of a power of two (R71, R137). -/
theorem golombWidth_eq_some_iff {m : BitVec 32} {k : Nat} : golombWidth m = some k ↔ m.toNat = 2 ^ k := by
  constructor
  · intro h
    unfold golombWidth at h
    split_ifs at h with hm
    cases h
    exact hm.2.symm
  · intro h
    rw [golombWidth, h, Nat.log2_two_pow, if_pos ⟨(Nat.two_pow_pos k).ne', rfl⟩]

section
variable {s : State}

theorem exec_reStart_of_pow {k : Nat} (h : s.p.m.toNat = 2 ^ k) :
    exec .reStart s = .next { s with re := { active := true, k := k, acc := [] } } := by
  simp only [exec, execReStart, golombWidth_eq_some_iff.mpr h]

theorem exec_reStart_of_not_pow (h : ∀ k, s.p.m.toNat ≠ 2 ^ k) : exec .reStart s = .next (refuse 0x40#8 1 s) := by
  have hnone : golombWidth s.p.m = none := Option.eq_none_iff_forall_ne_some.mpr fun k hk => h k (golombWidth_eq_some_iff.mp hk)
  simp only [exec, execReStart, hnone, raise_eq_refuse]
  rfl

end

/-- Settles O21: `golombWidth` answers exactly the powers of two, and at most 31. -/
theorem reStartLatchesM : Obligations.ReStartLatchesM :=
  ⟨encodes_reStart, fun _ =>
    ⟨fun _ hk => ⟨golombWidth_le (golombWidth_eq_some_iff.mpr hk), _, exec_reStart_of_pow hk, cellsKept_of_tx_eq rfl, rfl⟩,
      exec_reStart_of_not_pow⟩⟩

/-! ### RE.PUSH -/

theorem encodes_rePush : Encodes 0x41#8 16 (fun op => .rePush (op.setWidth 16)) :=
  encodes_of_withFormat .h fun op => by
    simp only [decodeCommand, opcodeOf_commandWord, operandOf_commandWord]; rfl

section
variable {s : State}

/-- What `append` releases and what it leaves pending spell what was pending and the new bits (R139). -/
theorem append_packs (bits : Bits) (s : State) : ∃ (words : List (BitVec 32)) (acc : Bits),
    append bits s = { s with
      re := { active := s.re.active, k := s.re.k, acc := acc },
      responses := s.responses ++ words.map fun w => record 0x41#8 (w.setWidth 64) } ∧
    words.flatMap (fun w => bin 32 w.toNat) ++ acc = s.re.acc ++ bits ∧ acc.length < 32 := by
  refine ⟨_, _, ?_, flatMap_cutWords (Nat.mul_div_le _ 32), append_pending bits s⟩
  rw [append, emitAll_eq, List.map_map]
  rfl

theorem exec_rePush_of_active (h : BitVec 16) (ha : s.re.active = true) :
    exec (.rePush h) s = .next (append (code h.toInt s.re.k) s) := by
  simp only [exec, execRePush, ha, if_true]
  rfl

theorem exec_rePush_of_inactive (h : BitVec 16) (ha : s.re.active = false) :
    exec (.rePush h) s = .next (refuse 0x41#8 2 s) := by
  simp only [exec, execRePush, ha, raise_eq_refuse]
  rfl

/-- In an open job RE.PUSH packs the codeword of its sample behind the pending bits (R140). -/
theorem exec_rePush_packs (h : BitVec 16) (ha : s.re.active = true) : ∃ (words : List (BitVec 32)) (acc : Bits),
    exec (.rePush h) s = .next { s with
      re := { active := true, k := s.re.k, acc := acc },
      responses := s.responses ++ words.map fun w => record 0x41#8 (w.setWidth 64) } ∧
    words.flatMap (fun w => bin 32 w.toNat) ++ acc = s.re.acc ++ code h.toInt s.re.k ∧ acc.length < 32 := by
  obtain ⟨words, acc, happend, hbits, hacc⟩ := append_packs (code h.toInt s.re.k) s
  exact ⟨words, acc, by rw [exec_rePush_of_active h ha, happend, ha], hbits, hacc⟩

end

/-- Settles O22: `append` cuts as many words as there are, and loses no bit. -/
theorem rePushReleasesWholeWords : Obligations.RePushReleasesWholeWords := by
  refine ⟨encodes_rePush, fun h s => ⟨fun ha => ?_, exec_rePush_of_inactive h⟩⟩
  obtain ⟨words, acc, hexec, hpacked⟩ := exec_rePush_packs h ha
  exact ⟨_, words, acc, hexec, cellsKept_of_tx_eq rfl, rfl, hpacked⟩

/-! ### RE.FLUSH -/

theorem encodes_reFlush : Encodes 0x42#8 0 (fun _ => .reFlush) :=
  encodes_of_withFormat .z fun op => by
    simp only [decodeCommand, opcodeOf_commandWord, operandOf_commandWord]; rfl

section
variable {s : State}

theorem exec_reFlush_of_active (ha : s.re.active = true) :
    exec .reFlush s = .next { s with
      re := { active := false, k := s.re.k, acc := [] },
      responses := s.responses ++ (flushedWords s.re.acc).map fun w => record 0x41#8 (w.setWidth 64) } := by
  simp only [exec, execReFlush, ha, if_true, flushedWords]
  split_ifs <;> rfl

theorem exec_reFlush_of_inactive (ha : s.re.active = false) : exec .reFlush s = .next (refuse 0x42#8 2 s) := by
  simp only [exec, execReFlush, ha, raise_eq_refuse]
  rfl

end

/-- Settles O23: one equation of RE.FLUSH for an open job and one for none; the word is the pending bits' `leftWord`. -/
theorem reFlushPadsTheLastWord : Obligations.ReFlushPadsTheLastWord := by
  refine ⟨encodes_reFlush, fun s => ⟨fun ha hlen => ?_, exec_reFlush_of_inactive⟩⟩
  refine ⟨_, flushedWords s.re.acc, exec_reFlush_of_active ha, cellsKept_of_tx_eq rfl, rfl, fun hacc => ?_, fun hacc => ?_⟩
  · rw [hacc, flushedWords_nil]
  · exact ⟨_, flushedWords_of_ne_nil hacc, bin_leftWord (by omega)⟩

/-! ### A whole job -/

/-- The pushes of a job pack the codewords of their samples behind the bits that are pending (R139, R143). -/
theorem execAll_rePush (samples : List (BitVec 16)) {s : State} (ha : s.re.active = true) (hpending : s.re.acc.length < 32) :
    ∃ (words : List (BitVec 32)) (acc : Bits),
      execAll (samples.map .rePush) s = .next { s with
        re := { active := true, k := s.re.k, acc := acc },
        responses := s.responses ++ words.map fun w => record 0x41#8 (w.setWidth 64) } ∧
      words.flatMap (fun w => bin 32 w.toNat) ++ acc = s.re.acc ++ samples.flatMap (fun h => code h.toInt s.re.k) ∧
      acc.length < 32 := by
  induction samples generalizing s with
  | nil => exact ⟨[], s.re.acc, by simp [execAll, ← ha], by simp, hpending⟩
  | cons h hs ih =>
    obtain ⟨words, acc, hexec, hbits, hacc⟩ := exec_rePush_packs h ha
    rw [List.map_cons, execAll, hexec]
    dsimp only
    obtain ⟨words', acc', hexec', hbits', hacc'⟩ := ih (s := { s with
      re := { active := true, k := s.re.k, acc := acc },
      responses := s.responses ++ words.map fun w => record 0x41#8 (w.setWidth 64) }) rfl hacc
    refine ⟨words ++ words', acc', ?_, ?_, hacc'⟩
    · rw [hexec', List.map_append, List.append_assoc]
    · rw [List.flatMap_append, List.append_assoc, hbits', ← List.append_assoc, hbits, List.append_assoc, List.flatMap_cons]

/-- Settles O24: START opens an empty job, the pushes pack the codewords, and FLUSH pads what is left of them. -/
theorem encodeJobPacksTheCodewords : Obligations.EncodeJobPacksTheCodewords := by
  intro samples k s hm
  obtain ⟨words, acc, hpush, hbits, hacc⟩ :=
    execAll_rePush samples (s := { s with re := { active := true, k := k, acc := [] } }) rfl (Nat.zero_lt_succ 31)
  obtain ⟨pad, hpad, hlast⟩ := flatMap_flushedWords (Nat.le_of_lt_succ hacc)
  rw [List.cons_append, execAll, exec_reStart_of_pow hm]
  dsimp only
  rw [execAll_append hpush, execAll, exec_reFlush_of_active rfl]
  refine ⟨_, words ++ flushedWords acc, pad, rfl, rfl, hpad, ?_, ?_⟩
  · rw [List.map_append, List.append_assoc]
  · rw [List.flatMap_append, hlast, ← List.append_assoc, hbits, List.nil_append]

end Sys2Proof.Machine
end

section
/-! Reading a codeword off a bit string (R75, R153): which strings are incomplete, and what a complete one begins with. -/

namespace Sys2Proof

/-- What R153 asks of the bits after the stop bit: 16 for the escape, the sign bit and `k` remainder bits otherwise. -/
theorem readCodeword_prefix_eq_none_iff (k q : Nat) (body : Bits) :
    readCodeword k (zeros q ++ true :: body) = none ↔ body.length < if q = 8 then 16 else 1 + k := by
  rw [readCodeword_prefix]
  by_cases hq : q = 8
  · simp [hq]
  · rw [if_neg hq, if_neg hq]
    cases body with
    | nil => simp
    | cons sign field =>
      simp only [List.length_cons, ite_eq_left_iff, Nat.not_lt, reduceCtorEq, imp_false, Nat.not_le]
      omega

/-- A string is incomplete exactly where the bits after its stop bit, if it has one, are too few (R153). -/
theorem readCodeword_eq_none_iff_short (k : Nat) (buf : Bits) : readCodeword k buf = none ↔
    ∀ (q : Nat) (body : Bits), buf = zeros q ++ true :: body → body.length < if q = 8 then 16 else 1 + k := by
  constructor
  · rintro hnone q body rfl
    exact (readCodeword_prefix_eq_none_iff k q body).mp hnone
  · intro hshort
    rcases leadingZeros_spec buf with hbuf | ⟨body, hbuf⟩
    · rw [hbuf]
      exact readCodeword_zeros k _
    · rw [hbuf]
      exact (readCodeword_prefix_eq_none_iff k _ body).mpr (hshort _ body hbuf)

/-- A field read off the front of a string, written again in front of what follows it (R72). -/
theorem bin_val_take_append_drop {n : Nat} {s : Bits} (h : n ≤ s.length) : bin n (val (s.take n)) ++ s.drop n = s := by
  have hlen : (s.take n).length = n := List.length_take_of_le h
  calc bin n (val (s.take n)) ++ s.drop n
      = bin (s.take n).length (val (s.take n)) ++ s.drop n := by rw [hlen]
    _ = s := by rw [bin_val, List.take_append_drop]

/-- What the reader finds is what stands there: the string is the codeword's bits and the rest, and the codeword is one of
width `k` (R75, R153). -/
theorem readCodeword_sound {k : Nat} {buf rest : Bits} {cw : Codeword} (h : readCodeword k buf = some (cw, rest)) :
    buf = cw.bits ++ rest ∧ (k ≤ 31 → cw.wellFormed = true) ∧ ∀ q k' sign r, cw = .rice q k' sign r → k' = k := by
  rcases leadingZeros_spec buf with hbuf | ⟨body, hbuf⟩
  · rw [hbuf, readCodeword_zeros] at h
    cases h
  rw [hbuf, readCodeword_prefix] at h
  rw [hbuf]
  generalize leadingZeros buf = q at h ⊢
  by_cases hq : q = 8
  · rw [if_pos hq] at h
    split_ifs at h with hlen
    cases h
    have hval : val (body.take 16) < 2 ^ 16 := by
      simpa [List.length_take_of_le (Nat.not_lt.mp hlen)] using val_lt (body.take 16)
    refine ⟨?_, fun _ => rfl, nofun⟩
    rw [Codeword.bits, BitVec.toNat_ofNat, Nat.mod_eq_of_lt hval, List.append_assoc, List.cons_append,
      bin_val_take_append_drop (Nat.not_lt.mp hlen), hq]
  · rw [if_neg hq] at h
    cases body with
    | nil => cases h
    | cons sign field =>
      dsimp only at h
      split_ifs at h with hlen
      cases h
      have hval : val (field.take k) < 2 ^ k := by
        simpa [List.length_take_of_le (Nat.not_lt.mp hlen)] using val_lt (field.take k)
      refine ⟨?_, fun hk => ?_, ?_⟩
      · rw [Codeword.bits, List.append_assoc, List.cons_append, List.cons_append,
          bin_val_take_append_drop (Nat.not_lt.mp hlen)]
      · simp [Codeword.wellFormed, remainderOk, hk, hval, hq]
      · rintro _ _ _ _ ⟨⟩
        rfl

/-- A codeword that is complete stays the one at the front when more bits follow (R153). -/
theorem readCodeword_append {k : Nat} {buf rest : Bits} {cw : Codeword} (hk : k ≤ 31)
    (h : readCodeword k buf = some (cw, rest)) (later : Bits) :
    readCodeword k (buf ++ later) = some (cw, rest ++ later) := by
  obtain ⟨hbuf, hwf, hwidth⟩ := readCodeword_sound h
  rw [hbuf, List.append_assoc]
  exact readCodeword_bits (hwf hk) hwidth _

/-- A string is incomplete exactly where no well-formed codeword of width `k` begins it (R153). -/
theorem readCodeword_eq_none_iff_no_codeword {k : Nat} (hk : k ≤ 31) (buf : Bits) : readCodeword k buf = none ↔
    ∀ cw : Codeword, cw.wellFormed = true → (∀ q k' sign r, cw = .rice q k' sign r → k' = k) → ¬ cw.bits <+: buf := by
  constructor
  · rintro hnone cw hwf hwidth ⟨rest, rfl⟩
    rw [readCodeword_bits hwf hwidth rest] at hnone
    cases hnone
  · intro hno
    refine Option.eq_none_iff_forall_ne_some.mpr fun ⟨cw, rest⟩ hread => ?_
    obtain ⟨hbuf, hwf, hwidth⟩ := readCodeword_sound hread
    exact hno cw (hwf hk) hwidth ⟨rest, hbuf.symm⟩

end Sys2Proof
end

section
/-! The commands of RD (R152 to R155): one equation per command and case, and the decode loop pass by pass. -/

namespace Sys2Proof.Machine

/-! ### RD.START -/

theorem encodes_rdStart : Encodes 0x50#8 0 (fun _ => .rdStart) :=
  encodes_of_withFormat .z fun op => by
    simp only [decodeCommand, opcodeOf_commandWord, operandOf_commandWord]; rfl

section
variable {s : State}

theorem exec_rdStart_of_pow {k : Nat} (h : s.p.m.toNat = 2 ^ k) :
    exec .rdStart s = .next { s with rd := {
      active := decide (0 < s.p.count.toNat), k := k, remaining := s.p.count.toNat, buf := [] } } := by
  have hopen : (s.p.count != 0) = decide (0 < s.p.count.toNat) := by
    rw [Bool.eq_iff_iff, bne_iff_ne, decide_eq_true_eq]
    exact ⟨toNat_pos_of_ne_zero, fun hpos hzero => by rw [hzero] at hpos; exact absurd hpos (by decide)⟩
  simp only [exec, execRdStart, golombWidth_eq_some_iff.mpr h, hopen]

theorem exec_rdStart_of_not_pow (h : ∀ k, s.p.m.toNat ≠ 2 ^ k) : exec .rdStart s = .next (refuse 0x50#8 1 s) := by
  have hnone : golombWidth s.p.m = none := Option.eq_none_iff_forall_ne_some.mpr fun k hk => h k (golombWidth_eq_some_iff.mp hk)
  simp only [exec, execRdStart, hnone, raise_eq_refuse]
  rfl

end

/-- Settles O25: `golombWidth` answers exactly the powers of two, and the job is open where COUNT is not 0. -/
theorem rdStartLatchesMAndCount : Obligations.RdStartLatchesMAndCount :=
  ⟨encodes_rdStart, fun _ =>
    ⟨fun _ hk => ⟨golombWidth_le (golombWidth_eq_some_iff.mpr hk), _, exec_rdStart_of_pow hk, cellsKept_of_tx_eq rfl, rfl⟩,
      exec_rdStart_of_not_pow⟩⟩

/-! ### One pass of the decode loop -/

section
variable {s : State}

/-- The meaning of a codeword's instruction is to take the codeword off the buffer (R77). -/
theorem exec_toInstr (cw : Codeword) (s : State) : exec cw.toInstr s = .next (takeCodeword cw s) := by
  cases cw with
  | esc raw => rfl
  | rice q k sign r =>
    match q with
    | 0 | 1 | 2 | 3 | 4 | 5 | 6 | 7 => rfl
    | _ + 8 => rfl

/-- Where a sample is expected, what taking a codeword does to the state (R155, R156). -/
theorem takeCodeword_of_pending (cw : Codeword) (ha : s.rd.active = true) (hrem : 0 < s.rd.remaining) :
    ∃ h n, (-32768 ≤ valueOf cw → valueOf cw ≤ 32767 → h = BitVec.ofInt 16 (valueOf cw)) ∧
      takeCodeword cw s = { s with
        responses := s.responses ++ [record 0x51#8 (h.setWidth 64)],
        draws := n,
        rd := if s.rd.remaining = 1 then { active := false, k := s.rd.k, remaining := 0, buf := [] }
          else { active := true, k := s.rd.k, remaining := s.rd.remaining - 1, buf := s.rd.buf.drop (lengthOf cw) } } := by
  obtain ⟨t, h, hexec, hpattern, -, ht⟩ := decodesTo_of_takeCodeword (exec_toInstr cw s) ha hrem
  rw [exec_toInstr] at hexec
  cases hexec
  exact ⟨h, _, hpattern, ht⟩

/-- Only an open job expects samples (R21): what holds of RD between the passes of the loop. -/
def OpenIfPending (rd : Rd) : Prop := 0 < rd.remaining → rd.active = true

theorem takeCodeword_remaining (cw : Codeword) (ha : s.rd.active = true) (hrem : 0 < s.rd.remaining) :
    (takeCodeword cw s).rd.remaining = s.rd.remaining - 1 := by
  obtain ⟨h, n, -, ht⟩ := takeCodeword_of_pending cw ha hrem
  rw [ht]
  dsimp only
  split_ifs with hlast
  · rw [hlast]
  · rfl

theorem takeCodeword_buf (cw : Codeword) (ha : s.rd.active = true) (hrem : 1 < s.rd.remaining) :
    (takeCodeword cw s).rd.buf = s.rd.buf.drop (lengthOf cw) := by
  obtain ⟨h, n, -, ht⟩ := takeCodeword_of_pending cw ha (Nat.zero_lt_of_lt hrem)
  rw [ht]
  dsimp only
  rw [if_neg (Nat.ne_of_gt hrem)]

theorem takeCodeword_openIfPending (cw : Codeword) (ha : s.rd.active = true) (hrem : 0 < s.rd.remaining) :
    OpenIfPending (takeCodeword cw s).rd := by
  obtain ⟨h, n, -, ht⟩ := takeCodeword_of_pending cw ha hrem
  rw [ht]
  dsimp only
  split_ifs
  · exact fun hpos => absurd hpos (Nat.lt_irrefl 0)
  · exact fun _ => rfl

theorem takeCodeword_shortens (cw : Codeword) (ha : s.rd.active = true) (hrem : 0 < s.rd.remaining) :
    (takeCodeword cw s).rd.buf.length ≤ s.rd.buf.length - 1 := by
  obtain ⟨h, n, -, ht⟩ := takeCodeword_of_pending cw ha hrem
  rw [ht]
  dsimp only
  split_ifs
  · exact Nat.zero_le _
  · have hpos := lengthOf_pos cw
    rw [List.length_drop]
    omega

/-! ### The decode loop -/

theorem drainUpTo_of_incomplete (n : Nat) (hrem : s.rd.remaining ≠ 0) (hnone : readCodeword s.rd.k s.rd.buf = none) :
    drainUpTo n s = s := by
  cases n with
  | zero => exact closeIfDone_of_pending hrem
  | succ n => simp only [drainUpTo, if_neg hrem, hnone]

theorem drainUpTo_of_done (n : Nat) (hrem : s.rd.remaining = 0) : drainUpTo n s = closeIfDone s := by
  cases n with
  | zero => rfl
  | succ n => rw [drainUpTo, if_pos hrem]

theorem drainUpTo_succ_of_complete (n : Nat) {cw : Codeword} {rest : Bits} (hrem : s.rd.remaining ≠ 0)
    (hread : readCodeword s.rd.k s.rd.buf = some (cw, rest)) :
    drainUpTo (n + 1) s = drainUpTo n (takeCodeword cw s) := by
  simp only [drainUpTo, if_neg hrem, hread]

/-- Where a codeword is complete the buffer is not empty, so that the loop's bound admits a pass (R153). -/
theorem buf_length_pos_of_complete {k : Nat} {buf : Bits} {c : Codeword × Bits} (h : readCodeword k buf = some c) :
    0 < buf.length := by
  refine List.length_pos_of_ne_nil fun hnil => ?_
  rw [hnil, readCodeword_nil] at h
  cases h

/-- A bound of one pass for each buffered bit is enough: one pass more changes nothing (R155). -/
theorem drainUpTo_succ (n : Nat) (hopen : OpenIfPending s.rd) (hn : s.rd.buf.length ≤ n) :
    drainUpTo (n + 1) s = drainUpTo n s := by
  induction n generalizing s with
  | zero =>
    by_cases hrem : s.rd.remaining = 0
    · rw [drainUpTo_of_done _ hrem, drainUpTo_of_done _ hrem]
    · have hnone : readCodeword s.rd.k s.rd.buf = none := by
        rw [List.length_eq_zero_iff.mp (Nat.le_zero.mp hn), readCodeword_nil]
      rw [drainUpTo_of_incomplete _ hrem hnone, drainUpTo_of_incomplete _ hrem hnone]
  | succ n ih =>
    by_cases hrem : s.rd.remaining = 0
    · rw [drainUpTo_of_done _ hrem, drainUpTo_of_done _ hrem]
    · cases hread : readCodeword s.rd.k s.rd.buf with
      | none => rw [drainUpTo_of_incomplete _ hrem hread, drainUpTo_of_incomplete _ hrem hread]
      | some c =>
        have hpending := Nat.pos_of_ne_zero hrem
        have hshorter := takeCodeword_shortens c.1 (hopen hpending) hpending
        rw [drainUpTo_succ_of_complete _ hrem hread, drainUpTo_succ_of_complete _ hrem hread]
        exact ih (takeCodeword_openIfPending c.1 (hopen hpending) hpending) (by omega)

/-- So the loop's bound never shows: any bound from the number of buffered bits on gives `drain` (R155, log entry 21). -/
theorem drainUpTo_eq_drain (n : Nat) (hopen : OpenIfPending s.rd) (hn : s.rd.buf.length ≤ n) : drainUpTo n s = drain s := by
  induction n, hn using Nat.le_induction with
  | base => rfl
  | succ n hn ih => rw [drainUpTo_succ n hopen hn, ih]

/-- With no sample expected `drain` closes the job (R155); two more equations say what it does where one is. -/
theorem drain_of_done (hrem : s.rd.remaining = 0) : drain s = closeIfDone s := drainUpTo_of_done _ hrem

theorem drain_of_incomplete (hrem : 0 < s.rd.remaining) (hnone : readCodeword s.rd.k s.rd.buf = none) : drain s = s :=
  drainUpTo_of_incomplete _ hrem.ne' hnone

theorem drain_of_complete {cw : Codeword} {rest : Bits} (ha : s.rd.active = true) (hrem : 0 < s.rd.remaining)
    (hread : readCodeword s.rd.k s.rd.buf = some (cw, rest)) : drain s = drain (takeCodeword cw s) := by
  have hlen := buf_length_pos_of_complete hread
  obtain ⟨n, hn⟩ : ∃ n, s.rd.buf.length = n + 1 := ⟨s.rd.buf.length - 1, by omega⟩
  have hshorter := takeCodeword_shortens cw ha hrem
  rw [drain, hn, drainUpTo_succ_of_complete n hrem.ne' hread]
  exact drainUpTo_eq_drain n (takeCodeword_openIfPending cw ha hrem) (by omega)

end

/-! ### RD.WORD -/

theorem encodes_rdWord : Encodes 0x51#8 32 (fun op => .rdWord (op.setWidth 32)) :=
  encodes_of_withFormat .w fun op => by
    simp only [decodeCommand, opcodeOf_commandWord, operandOf_commandWord]; rfl

/-- The state with the bits of a word behind the buffered ones (R154). -/
def buffered (w : BitVec 32) (s : State) : State := { s with rd := { s.rd with buf := s.rd.buf ++ bin 32 w.toNat } }

section
variable {s : State}

theorem exec_rdWord_of_active (w : BitVec 32) (ha : s.rd.active = true) :
    exec (.rdWord w) s = .next (drain (buffered w s)) := by
  simp only [exec, execRdWord, ha, if_true, buffered]

theorem exec_rdWord_of_inactive (w : BitVec 32) (ha : s.rd.active = false) :
    exec (.rdWord w) s = .next (refuse 0x51#8 2 s) := by
  simp only [exec, execRdWord, ha, raise_eq_refuse]
  rfl

end

/-- Settles O26: the loop stops at an incomplete codeword, and `readCodeword` answers none exactly on the strings named. -/
theorem rdWordBuffersAnIncompleteCodeword : Obligations.RdWordBuffersAnIncompleteCodeword := by
  refine ⟨encodes_rdWord, fun w s => ⟨fun ha hrem hnone => ?_, exec_rdWord_of_inactive w⟩, readCodeword_eq_none_iff_short,
    fun _ buf hk => readCodeword_eq_none_iff_no_codeword hk buf⟩
  rw [exec_rdWord_of_active w ha]
  rw [drain_of_incomplete (s := buffered w s) hrem hnone, buffered]

/-- Settles O27: the first pass of the loop is the codeword's instruction, and its bits are what the reader took. -/
theorem rdWordRunsItsCodewords : Obligations.RdWordRunsItsCodewords := by
  intro w s cw rest ha hrem hread
  have hremaining : (takeCodeword cw (buffered w s)).rd.remaining = s.rd.remaining - 1 := takeCodeword_remaining cw ha hrem
  refine ⟨_, exec_toInstr cw (buffered w s), ?_, fun hmore => ?_, hremaining⟩
  · rw [exec_rdWord_of_active w ha, drain_of_complete (s := buffered w s) ha hrem hread]
  · have hbuf : (buffered w s).rd.buf = cw.bits ++ rest := (readCodeword_sound hread).1
    have hseveral : 1 < (buffered w s).rd.remaining := by
      change 1 < s.rd.remaining
      omega
    rw [takeCodeword_buf (s := buffered w s) cw ha hseveral, hbuf, List.drop_left' (length_codeword_bits cw)]

end Sys2Proof.Machine
end

section
/-! The round trip of the Rice code (R157, R158): the domain on which a sample survives, and a decode job on the words of an
encode job. -/

namespace Sys2Proof.Machine

/-! ### One sample -/

/-- The codeword of a sample is one that the reader reads (R72, R74). -/
theorem readCodeword_code (v : Int) {k : Nat} (hk : k ≤ 31) (rest : Bits) :
    readCodeword k (code v k ++ rest) = some (codewordOf v k, rest) := by
  rcases Nat.lt_or_ge (v.natAbs / 2 ^ k) 8 with hq | hq
  · have hwf : (codewordOf v k).wellFormed = true := by
      simp [codewordOf_of_lt hq, Codeword.wellFormed, remainderOk, hk, Nat.mod_lt _ (Nat.two_pow_pos k), hq.ne]
    refine readCodeword_bits hwf (fun q k' sign r hcw => ?_) rest
    rw [codewordOf_of_lt hq] at hcw
    cases hcw
    rfl
  · rw [code, codewordOf_of_ge hq]
    exact readCodeword_esc_bits _ k rest

/-- The quotient and the remainder are the magnitude again (R72, R77). -/
theorem valueOf_codewordOf_of_lt {v : Int} {k : Nat} (h : v.natAbs < 8 * 2 ^ k) : valueOf (codewordOf v k) = v := by
  rw [codewordOf_of_lt (Nat.div_lt_of_lt_mul (by omega)), valueOf, Nat.div_add_mod']
  by_cases hv : v < 0
  · rw [if_pos (decide_eq_true hv)]
    omega
  · rw [if_neg (by simpa using hv)]
    omega

/-- What an escape gives back: the raw field is biased by 32768 for a negative sample, and read back from 16384 on (R74, R153). -/
theorem valueOf_codewordOf_of_ge {v : Int} {k : Nat} (hlo : -32768 ≤ v) (hhi : v ≤ 32767) (h : 8 * 2 ^ k ≤ v.natAbs) :
    valueOf (codewordOf v k) = if v ≤ -16385 then v + 32768 else if 16384 ≤ v then v - 32768 else v := by
  rw [codewordOf_of_ge ((Nat.le_div_iff_mul_le (Nat.two_pow_pos k)).mpr h), valueOf, toNat_raw hlo hhi]
  split_ifs <;> omega

/-- The domain of R157: the samples that survive the code with remainder width `k`. -/
def Survives (k : Nat) (v : Int) : Prop := (-16384 ≤ v ∧ v ≤ 16383) ∨ v.natAbs < 8 * 2 ^ k

theorem valueOf_codewordOf_of_survives {v : Int} {k : Nat} (hlo : -32768 ≤ v) (hhi : v ≤ 32767) (h : Survives k v) :
    valueOf (codewordOf v k) = v := by
  rcases Nat.lt_or_ge v.natAbs (8 * 2 ^ k) with hq | hq
  · exact valueOf_codewordOf_of_lt hq
  · have hsmall : -16384 ≤ v ∧ v ≤ 16383 := h.resolve_right (Nat.not_lt.mpr hq)
    rw [valueOf_codewordOf_of_ge hlo hhi hq, if_neg (by omega), if_neg (by omega)]

/-- Settles O29: a sample below a quotient of 8 is its own fields, and an escape is off exactly beyond 15 bits. -/
theorem roundTripDomain : Obligations.RoundTripDomain := by
  intro v k rest hlo hhi hk
  refine ⟨codewordOf v k, readCodeword_code v hk rest, valueOf_codewordOf_of_survives hlo hhi, fun hv hq => ?_,
    fun hv hq => ?_⟩
  · rw [valueOf_codewordOf_of_ge hlo hhi hq, if_neg (by omega), if_pos hv]
  · rw [valueOf_codewordOf_of_ge hlo hhi hq, if_pos hv]

/-! ### A whole job -/

/-- The bits of a compressed stream (R76, R158): the codewords of the samples and the padding of the last word. -/
def stream (k pad : Nat) (samples : List (BitVec 16)) : Bits := samples.flatMap (fun h => code h.toInt k) ++ zeros pad

theorem stream_cons (k pad : Nat) (h : BitVec 16) (hs : List (BitVec 16)) :
    stream k pad (h :: hs) = code h.toInt k ++ stream k pad hs := by
  rw [stream, stream, List.flatMap_cons, List.append_assoc]

/-- From `s` to `t` the samples were emitted, in order, and no error was raised (R155). -/
structure Releases (samples : List (BitVec 16)) (s t : State) : Prop where
  responses : t.responses = s.responses ++ samples.map fun h => record 0x51#8 (h.setWidth 64)
  errlog : t.errlog = s.errlog

theorem releases_nil (s : State) : Releases [] s s := ⟨by rw [List.map_nil, List.append_nil], rfl⟩

theorem Releases.append {hs hs' : List (BitVec 16)} {s t u : State} (h : Releases hs s t) (h' : Releases hs' t u) :
    Releases (hs ++ hs') s u :=
  ⟨by rw [h'.responses, h.responses, List.map_append, List.append_assoc], h'.errlog.trans h.errlog⟩

theorem releases_drain_of_done {hs : List (BitVec 16)} {s t : State} (h : Releases hs s t) (hrem : t.rd.remaining = 0) :
    Releases hs s (drain t) := by
  obtain ⟨rd, hclose⟩ := closeIfDone_frame t
  rw [drain_of_done hrem, hclose]
  exact ⟨h.responses, h.errlog⟩

/-- An open decode job expects the samples, and the bits buffered and those still to come are their stream (R21, R155). -/
structure Expects (k pad : Nat) (samples : List (BitVec 16)) (later : Bits) (s : State) : Prop where
  active : s.rd.active = true
  width : s.rd.k = k
  remaining : s.rd.remaining = samples.length
  bits : s.rd.buf ++ later = stream k pad samples

/-- A complete codeword in the buffer is the one of the first sample expected, and the rest goes on with the others. -/
theorem Expects.front {k pad : Nat} {h : BitVec 16} {hs : List (BitVec 16)} {later rest : Bits} {cw : Codeword} {s : State}
    (hk : k ≤ 31) (he : Expects k pad (h :: hs) later s) (hread : readCodeword k s.rd.buf = some (cw, rest)) :
    cw = codewordOf h.toInt k ∧ rest ++ later = stream k pad hs := by
  have hstream := readCodeword_append hk hread later
  rw [he.bits, stream_cons, readCodeword_code _ hk] at hstream
  obtain ⟨hcw, hrest⟩ := Prod.mk.inj (Option.some.inj hstream)
  exact ⟨hcw.symm, hrest.symm⟩

/-- Taking the codeword of a surviving sample releases the sample; the decoder is then closed or one sample nearer (R155). -/
theorem takeCodeword_releases {k : Nat} {h : BitVec 16} {s : State} (hsurvives : Survives k h.toInt)
    (ha : s.rd.active = true) (hrem : 0 < s.rd.remaining) :
    Releases [h] s (takeCodeword (codewordOf h.toInt k) s) ∧
      (takeCodeword (codewordOf h.toInt k) s).rd =
        if s.rd.remaining = 1 then { active := false, k := s.rd.k, remaining := 0, buf := [] }
        else { active := true, k := s.rd.k, remaining := s.rd.remaining - 1,
               buf := s.rd.buf.drop (lengthOf (codewordOf h.toInt k)) } := by
  have hlo : -32768 ≤ h.toInt := BitVec.le_toInt h
  have hhi : h.toInt ≤ 32767 := Int.le_of_lt_add_one (BitVec.toInt_lt (x := h))
  obtain ⟨h', n, hpattern, htake⟩ := takeCodeword_of_pending (codewordOf h.toInt k) ha hrem
  rw [valueOf_codewordOf_of_survives hlo hhi hsurvives] at hpattern
  have hsame : h' = h := (hpattern hlo hhi).trans BitVec.ofInt_toInt
  rw [htake, hsame]
  exact ⟨⟨rfl, rfl⟩, rfl⟩

/-- The decode loop on the front of a stream (R155): it releases the samples that are complete, and either they were all, the
job is closed and no more than the padding is to come, or the job goes on with an incomplete codeword buffered. -/
theorem drain_releases {k pad : Nat} (hk : k ≤ 31) (samples : List (BitVec 16)) {later : Bits} {s : State}
    (hne : samples ≠ []) (hsurvive : ∀ h ∈ samples, Survives k h.toInt) (he : Expects k pad samples later s) :
    ∃ done rest, samples = done ++ rest ∧ Releases done s (drain s) ∧
      ((rest = [] ∧ (drain s).rd = { active := false, k := k, remaining := 0, buf := [] } ∧ later.length ≤ pad) ∨
        (rest ≠ [] ∧ Expects k pad rest later (drain s) ∧ readCodeword k (drain s).rd.buf = none)) := by
  induction samples generalizing s with
  | nil => exact absurd rfl hne
  | cons h hs ih =>
    have hrem : 0 < s.rd.remaining := by
      rw [he.remaining]
      exact Nat.zero_lt_succ _
    have hwidth : readCodeword s.rd.k s.rd.buf = readCodeword k s.rd.buf := by rw [he.width]
    cases hread : readCodeword k s.rd.buf with
    | none =>
      rw [drain_of_incomplete hrem (hwidth.trans hread)]
      exact ⟨[], h :: hs, rfl, releases_nil s, .inr ⟨hne, he, hread⟩⟩
    | some c =>
      obtain ⟨cw, tail⟩ := c
      obtain ⟨rfl, htail⟩ := he.front hk hread
      obtain ⟨hreleases, hrd⟩ := takeCodeword_releases (hsurvive h List.mem_cons_self) he.active hrem
      rw [drain_of_complete he.active hrem (hwidth.trans hread)]
      generalize takeCodeword (codewordOf h.toInt k) s = t at hreleases hrd
      rw [he.remaining, he.width, List.length_cons, Nat.add_sub_cancel] at hrd
      by_cases hlast : hs = []
      · rw [if_pos (by rw [hlast]; rfl)] at hrd
        have hdone : t.rd.remaining = 0 := by rw [hrd]
        have hshort : later.length ≤ pad := by
          have hlen := congrArg List.length htail
          rw [hlast, stream, List.flatMap_nil, List.nil_append, List.length_append, length_zeros] at hlen
          omega
        refine ⟨[h], [], by rw [hlast]; rfl, releases_drain_of_done hreleases hdone, .inl ⟨rfl, ?_, hshort⟩⟩
        rw [drain_of_done hdone, closeIfDone_of_done hdone, hrd]
      · rw [if_neg (by simpa using hlast), (readCodeword_sound hread).1, List.drop_left' (length_codeword_bits _)] at hrd
        have he' : Expects k pad hs later t := ⟨by rw [hrd], by rw [hrd], by rw [hrd], by rw [hrd]; exact htail⟩
        obtain ⟨done, rest, rfl, hreleases', hend⟩ := ih hlast (fun h' hmem => hsurvive h' (List.mem_cons_of_mem h hmem)) he'
        exact ⟨h :: done, rest, rfl, hreleases.append hreleases', hend⟩

/-- RD.WORD keeps what the job expects: the word's bits move from those to come into the buffer (R154). -/
theorem expects_buffered {k pad : Nat} {samples : List (BitVec 16)} {w : BitVec 32} {later : Bits} {s : State}
    (he : Expects k pad samples (bin 32 w.toNat ++ later) s) : Expects k pad samples later (buffered w s) :=
  ⟨he.active, he.width, he.remaining, (List.append_assoc ..).trans he.bits⟩

/-- The words of a stream, one after another, from any point of the job at which no codeword is complete (R158). -/
theorem execAll_rdWord {k pad : Nat} (hk : k ≤ 31) (hpad : pad < 32) (words : List (BitVec 32)) {samples : List (BitVec 16)}
    {s : State} (hne : samples ≠ []) (hsurvive : ∀ h ∈ samples, Survives k h.toInt)
    (he : Expects k pad samples (words.flatMap fun w => bin 32 w.toNat) s) (hnone : readCodeword k s.rd.buf = none) :
    ∃ t, execAll (words.map .rdWord) s = .next t ∧ Releases samples s t ∧
      t.rd = { active := false, k := k, remaining := 0, buf := [] } := by
  induction words generalizing samples s with
  | nil =>
    obtain ⟨h, hs, rfl⟩ := List.exists_cons_of_ne_nil hne
    have hbits := he.bits
    rw [List.flatMap_nil, List.append_nil, stream_cons] at hbits
    rw [hbits, readCodeword_code _ hk] at hnone
    cases hnone
  | cons w ws ih =>
    rw [List.flatMap_cons] at he
    rw [List.map_cons, execAll, exec_rdWord_of_active w he.active]
    dsimp only
    obtain ⟨done, rest, rfl, hreleases, ⟨rfl, hclosed, hshort⟩ | ⟨hmore, he', hnone'⟩⟩ :=
      drain_releases hk samples hne hsurvive (expects_buffered he)
    · cases ws with
      | nil => exact ⟨_, rfl, by rw [List.append_nil]; exact ⟨hreleases.responses, hreleases.errlog⟩, hclosed⟩
      | cons w' ws' =>
        rw [List.flatMap_cons, List.length_append, length_bin] at hshort
        omega
    · obtain ⟨t, hexec, hreleases', hrd⟩ := ih hmore (fun h hmem => hsurvive h (List.mem_append_right done hmem)) he' hnone'
      exact ⟨t, hexec, Releases.append ⟨hreleases.responses, hreleases.errlog⟩ hreleases', hrd⟩

/-- Settles O30: a fresh job expects the whole stream, and the empty buffer holds no codeword. -/
theorem decodeJobInvertsEncodeJob : Obligations.DecodeJobInvertsEncodeJob := by
  intro samples k words pad s hne hk hpad hsurvive hwords hrd
  have he : Expects k pad samples (words.flatMap fun w => bin 32 w.toNat) s :=
    ⟨by rw [hrd], by rw [hrd], by rw [hrd], by rw [hrd]; exact hwords⟩
  have hnone : readCodeword k s.rd.buf = none := by rw [hrd]; exact readCodeword_nil k
  obtain ⟨t, hexec, hreleases, hclosed⟩ := execAll_rdWord hk hpad words hne hsurvive he hnone
  exact ⟨t, hexec, hreleases.responses, hclosed, hreleases.errlog⟩

end Sys2Proof.Machine
end

section
/-! TX.CLEAR and TX.LOAD (R172, R173): one equation per command and case. -/

namespace Sys2Proof.Machine

theorem encodes_txClear : Encodes 0x60#8 0 (fun _ => .txClear) :=
  encodes_of_withFormat .z fun op => by
    simp only [decodeCommand, opcodeOf_commandWord, operandOf_commandWord]; rfl

theorem encodes_txLoad : Encodes 0x61#8 64 .txLoad :=
  encodes_of_withFormat .x fun op => by
    simp only [decodeCommand, opcodeOf_commandWord, operandOf_commandWord]; rfl

theorem exec_txClear (s : State) : exec .txClear s = .next { s with tx := { s.tx with wlen := 0 } } := rfl

/-- Settles O31: the one equation of TX.CLEAR writes the fill count and leaves the memory itself. -/
theorem txClearKeepsTheCells : Obligations.TxClearKeepsTheCells :=
  ⟨encodes_txClear, fun s => ⟨_, exec_txClear s, rfl, fun _ => rfl, rfl⟩⟩

section
variable {x : Num64} {s : State}

theorem exec_txLoad_of_free (hx : x.extractLsb' 52 11 ≠ 0x7FF#11) (hfree : s.tx.wlen < Config.wbufCap) :
    exec (.txLoad x) s =
      .next { s with tx := { wlen := s.tx.wlen + 1, wbuf := Memory.write s.tx.wbuf s.tx.wlen x } } := by
  simp only [exec, execTxLoad, if_pos ((isFinite_iff_extractLsb'_ne x).mpr hx), if_neg (Nat.not_le.mpr hfree)]

theorem exec_txLoad_of_full (hx : x.extractLsb' 52 11 ≠ 0x7FF#11) (hfull : Config.wbufCap ≤ s.tx.wlen) :
    exec (.txLoad x) s = .next (refuse 0x61#8 5 s) := by
  simp only [exec, execTxLoad, if_pos ((isFinite_iff_extractLsb'_ne x).mpr hx), if_pos hfull, raise_eq_refuse]
  rfl

/-- OperandError comes before the check of the fill count (R173). -/
theorem exec_txLoad_of_exponent_eq (hx : x.extractLsb' 52 11 = 0x7FF#11) :
    exec (.txLoad x) s = .next (refuse 0x61#8 4 s) := by
  have hnot : ¬ Num64.isFinite x = true := fun hfin => (isFinite_iff_extractLsb'_ne x).mp hfin hx
  simp only [exec, execTxLoad, if_neg hnot, raise_eq_refuse]
  rfl

end

/-- Settles O32: one equation of TX.LOAD per case, and the laws of the memory for the store. -/
theorem txLoadAppendsTheSample : Obligations.TxLoadAppendsTheSample :=
  ⟨encodes_txLoad, fun x s =>
    ⟨fun hx hfree => ⟨_, exec_txLoad_of_free hx hfree, rfl, read_write_same s.tx.wbuf s.tx.wlen x,
        fun _ hi => read_write_other s.tx.wbuf x hi, rfl⟩,
      fun hx hfull => exec_txLoad_of_full hx hfull.ge, exec_txLoad_of_exponent_eq⟩⟩

end Sys2Proof.Machine
end

section
/-! TX.RUN1 and TX.RUN2 (R174, R175, R186): the records of an extraction's result, for either command. -/

namespace Sys2Proof.Machine

theorem encodes_txRun1 : Encodes 0x62#8 0 (fun _ => .txRun1) :=
  encodes_of_withFormat .z fun op => by
    simp only [decodeCommand, opcodeOf_commandWord, operandOf_commandWord]; rfl

theorem encodes_txRun2 : Encodes 0x63#8 0 (fun _ => .txRun2) :=
  encodes_of_withFormat .z fun op => by
    simp only [decodeCommand, opcodeOf_commandWord, operandOf_commandWord]; rfl

/-- The three records by which a result is reported (R186). -/
def resultRecords (valid : Bool) (e x : Num64) : List Record :=
  [record 0x62#8 (if valid then 1#64 else 0#64), record 0x63#8 e, record 0x64#8 x]

/-- The records `resultRecords valid e x` say what the extraction's result `r` is: its energy and rounded timestamp, or two
NaN patterns (R186). -/
def Reported (r : Option (Num64 × Rat)) (valid : Bool) (e x : Num64) : Prop :=
  (∀ energy ts, r = some (energy, ts) → valid = true ∧ e = energy ∧ x = fl ts) ∧
    (r = none → valid = false ∧ Num64.isNan e = true ∧ Num64.isNan x = true)

theorem reported_some (energy : Num64) (ts : Rat) : Reported (some (energy, ts)) true energy (fl ts) :=
  ⟨fun _ _ h => by cases h; exact ⟨rfl, rfl, rfl⟩, fun h => absurd h (Option.some_ne_none _)⟩

theorem reported_none (m n : Nat) : Reported none false (nanPattern m) (nanPattern n) :=
  ⟨fun _ _ h => absurd h.symm (Option.some_ne_none _), fun _ => ⟨rfl, isNan_forceNan _, isNan_forceNan _⟩⟩

/-- Result emission reports the result, and touches the response port and the draws only (R186). -/
theorem emitExtraction_reports (r : Option (Num64 × Rat)) (s : State) : ∃ (valid : Bool) (e x : Num64) (n : Nat),
    emitExtraction r s = { s with draws := n, responses := s.responses ++ resultRecords valid e x } ∧
      Reported r valid e x := by
  cases r with
  | none => exact ⟨false, nanPattern s.draws, nanPattern (s.draws + 1), s.draws + 2, rfl, reported_none _ _⟩
  | some result => exact ⟨true, result.1, fl result.2, s.draws, rfl, reported_some _ _⟩

section
variable (opc : OpcodeByte) (v : Variant) {s : State}

theorem runExtract_of_percentage_refused (h : rat s.p.pct ≤ 0 ∨ 1 ≤ rat s.p.pct) :
    runExtract opc v s = .next (refuse opc 1 s) := by
  rcases runExtract_cases opc v s with ⟨-, hr⟩ | ⟨hpos, hlt, -⟩
  · rw [hr, raise_eq_refuse]; rfl
  · exact absurd h (not_or.mpr ⟨not_le.mpr hpos, not_le.mpr hlt⟩)

/-- On a filled buffer the extraction is run on the cells below the fill count (R10, R176). -/
theorem runExtract_of_filled (hpos : 0 < rat s.p.pct) (hlt : rat s.p.pct < 1) (hfilled : Filled s) :
    ∃ cells, cells.length = s.tx.wlen ∧ (∀ i (h : i < cells.length), Memory.read s.tx.wbuf i = some cells[i]) ∧
      runExtract opc v s = .next (emitExtraction (extract v (extractArgs s.p) cells) s) := by
  obtain ⟨filled, hsome⟩ := readFrom_of_filled hfilled
  rcases runExtract_cases opc v s with ⟨hpct, -⟩ | ⟨-, -, ⟨hnone, -⟩ | ⟨cells, hcells, hr⟩⟩
  · exact absurd hpct (not_or.mpr ⟨not_le.mpr hpos, not_le.mpr hlt⟩)
  · rw [hnone] at hsome; cases hsome
  · obtain ⟨hlength, hread⟩ := (readFrom_eq_some_iff _ _ _ _).mp hcells
    exact ⟨cells, hlength, fun i h => by rw [← hread i h, Nat.zero_add], hr⟩

end

/-- Settles O33: both commands are `runExtract`, which reports the extraction's result on a filled buffer. -/
theorem runCommandsReportTheExtraction : Obligations.RunCommandsReportTheExtraction := by
  refine ⟨encodes_txRun1, encodes_txRun2, fun s ⟨i, opc, v⟩ hrun => ?_⟩
  have hexec : exec i s = runExtract opc v s := by
    simp only [List.mem_cons, List.not_mem_nil, or_false, Prod.mk.injEq] at hrun
    rcases hrun with ⟨rfl, rfl, rfl⟩ | ⟨rfl, rfl, rfl⟩ <;> rfl
  dsimp only
  rw [hexec]
  refine ⟨runExtract_of_percentage_refused opc v, fun hpos hlt hfilled => ?_⟩
  obtain ⟨cells, hlength, hread, hr⟩ := runExtract_of_filled opc v hpos hlt hfilled
  obtain ⟨valid, e, x, n, hemit, hsome, hnone⟩ := emitExtraction_reports (extract v (extractArgs s.p) cells) s
  rw [hr, hemit]
  exact ⟨_, cells, valid, e, x, rfl, cellsKept_of_tx_eq rfl, hlength, hread, rfl, hsome, hnone⟩

end Sys2Proof.Machine
end

section
/-! The extremes of a waveform (R177) and the crosses of a threshold (R180, R181). -/

namespace Sys2Proof.Machine

/-! ### The extremes -/

/-- `m` is the first index at which `f` is greatest on the waveform `w`, and the value there: the maximum for `f` the
identity, the minimum for `f` the negation. -/
def IsFirstGreatest (f : Rat → Rat) (w : List Rat) (m : Peak) : Prop :=
  w[m.1]? = some m.2 ∧ ∀ (i : Nat) (x : Rat), w[i]? = some x → f x ≤ f m.2 ∧ (i < m.1 → f x < f m.2)

section
variable {f : Rat → Rat} {w : List Rat} {m : Peak}

theorem isFirstGreatest_singleton (f : Rat → Rat) (x : Rat) : IsFirstGreatest f [x] (0, x) := by
  refine ⟨rfl, fun i y hy => ?_⟩
  obtain ⟨-, rfl⟩ : i = 0 ∧ x = y := by simpa [List.getElem?_singleton] using hy
  exact ⟨le_rfl, fun h => absurd h (Nat.not_lt_zero i)⟩

/-- A value of a waveform with one cell more is a value of the waveform or that cell's. -/
theorem getElem?_concat_cases {x y : Rat} {i : Nat} (h : (w ++ [x])[i]? = some y) :
    w[i]? = some y ∨ (i = w.length ∧ y = x) := by
  rw [List.getElem?_append] at h
  split_ifs at h with hi
  · exact .inl h
  · obtain ⟨hzero, rfl⟩ : i - w.length = 0 ∧ x = y := by simpa [List.getElem?_singleton] using h
    exact .inr ⟨by omega, rfl⟩

/-- One step of the scan: only a strictly greater value replaces the best one, so that its first index stays. -/
theorem IsFirstGreatest.concat (h : IsFirstGreatest f w m) (x : Rat) :
    IsFirstGreatest f (w ++ [x]) (if f m.2 < f x then (w.length, x) else m) := by
  obtain ⟨hm, hbest⟩ := h
  have hm_lt : m.1 < w.length := (List.getElem?_eq_some_iff.mp hm).1
  split_ifs with hx
  · refine ⟨List.getElem?_concat_length, fun i y hy => ?_⟩
    rcases getElem?_concat_cases hy with hy | ⟨rfl, rfl⟩
    · have hlt : f y < f x := lt_of_le_of_lt (hbest i y hy).1 hx
      exact ⟨hlt.le, fun _ => hlt⟩
    · exact ⟨le_rfl, fun h => absurd h (lt_irrefl _)⟩
  · refine ⟨by rw [List.getElem?_append_left hm_lt, hm], fun i y hy => ?_⟩
    rcases getElem?_concat_cases hy with hy | ⟨rfl, rfl⟩
    · exact hbest i y hy
    · exact ⟨not_lt.mp hx, fun h => absurd h hm_lt.not_gt⟩

/-- The scan over the values `xs` after `w` ends at the first greatest of them all. -/
theorem extremeFrom_isFirstGreatest {better : Rat → Rat → Bool} (hbetter : ∀ a b, better a b = true ↔ f b < f a)
    (h : IsFirstGreatest f w m) (xs : List Rat) : IsFirstGreatest f (w ++ xs) (extremeFrom better w.length m xs) := by
  induction xs generalizing w m with
  | nil => rwa [List.append_nil]
  | cons x xs ih =>
    have hnext := ih (h.concat x)
    rw [List.append_assoc, List.length_append] at hnext
    simp only [extremeFrom, hbetter]
    exact hnext

end

/-- What the extremes of a waveform are (R177). -/
theorem extremes_cons (x : Rat) (xs : List Rat) : ∃ mx mn : Peak, extremes (x :: xs) = some (mx, mn) ∧
    IsFirstGreatest id (x :: xs) mx ∧ IsFirstGreatest Neg.neg (x :: xs) mn :=
  ⟨_, _, rfl, extremeFrom_isFirstGreatest (fun _ _ => decide_eq_true_iff) (isFirstGreatest_singleton id x) xs,
    extremeFrom_isFirstGreatest (fun _ _ => by rw [decide_eq_true_iff, neg_lt_neg_iff]) (isFirstGreatest_singleton _ x) xs⟩

/-- The extremes are values of the waveform. -/
theorem getElem?_of_extremes {w : List Rat} {mx mn : Peak} (h : extremes w = some (mx, mn)) :
    w[mx.1]? = some mx.2 ∧ w[mn.1]? = some mn.2 := by
  cases w with
  | nil => cases h
  | cons x xs =>
    obtain ⟨mx', mn', h', hmx, hmn⟩ := extremes_cons x xs
    rw [h] at h'
    cases h'
    exact ⟨hmx.1, hmn.1⟩

/-- Settles O34: the maximum is the first greatest value, the minimum the first greatest of the negated values. -/
theorem extremesAreFirstOccurrences : Obligations.ExtremesAreFirstOccurrences := by
  refine ⟨rfl, fun w hw => ?_⟩
  obtain ⟨x, xs, rfl⟩ := List.exists_cons_of_ne_nil hw
  obtain ⟨mx, mn, h, ⟨hmx, hgreatest⟩, ⟨hmn, hleast⟩⟩ := extremes_cons x xs
  refine ⟨mx, mn, h, hmx, hmn, fun i y hy => ?_⟩
  obtain ⟨hle, hlt⟩ := hgreatest i y hy
  obtain ⟨hle', hlt'⟩ := hleast i y hy
  exact ⟨hle, hlt, neg_le_neg_iff.mp hle', fun hi => neg_lt_neg_iff.mp (hlt' hi)⟩

/-! ### The crosses -/

/-- Where the left cross is found (R180). -/
theorem leftCross_eq_some_iff (u : Nat → Rat) (t : Rat) (p window i : Nat) :
    leftCross u t p window = some i ↔
      0 < i ∧ i ≤ p ∧ p - i < window ∧ u (i - 1) < t ∧ t ≤ u i ∧
        ∀ b, i < b → b ≤ p → ¬(u (b - 1) < t ∧ t ≤ u b) := by
  induction p generalizing window with
  | zero => simp only [leftCross, reduceCtorEq, false_iff]; omega
  | succ a ih =>
    rw [leftCross]
    split_ifs with hwindow hstraddle
    · simp only [false_iff]; omega
    · rw [Option.some.injEq]
      constructor
      · rintro rfl
        exact ⟨by omega, le_rfl, by omega, hstraddle.1, hstraddle.2, fun b hb hb' => absurd hb' (by omega)⟩
      · rintro ⟨-, hi, -, -, -, hnearest⟩
        exact le_antisymm (not_lt.mp fun hlt => hnearest (a + 1) hlt le_rfl hstraddle) hi
    · rw [ih]
      constructor
      · rintro ⟨hpos, hi, hin, hlow, hhigh, hnearest⟩
        refine ⟨hpos, by omega, by omega, hlow, hhigh, fun b hb hb' => ?_⟩
        rcases Nat.lt_or_eq_of_le hb' with hlt | rfl
        · exact hnearest b hb (by omega)
        · exact hstraddle
      · rintro ⟨hpos, hi, hin, hlow, hhigh, hnearest⟩
        have hne : i ≠ a + 1 := fun h => hstraddle (by subst h; exact ⟨hlow, hhigh⟩)
        exact ⟨hpos, by omega, by omega, hlow, hhigh, fun b hb hb' => hnearest b hb (by omega)⟩

/-- Where the right cross is found (R181). -/
theorem rightCross_eq_some_iff (u : Nat → Rat) (t : Rat) (pairs p window i : Nat) :
    rightCross u t pairs p window = some i ↔
      p ≤ i ∧ i - p < pairs ∧ i - p < window ∧ t ≤ u i ∧ u (i + 1) < t ∧
        ∀ a, p ≤ a → a < i → ¬(t ≤ u a ∧ u (a + 1) < t) := by
  induction pairs generalizing p window with
  | zero => simp only [rightCross, reduceCtorEq, false_iff]; omega
  | succ pairs ih =>
    rw [rightCross]
    split_ifs with hwindow hstraddle
    · simp only [false_iff]; omega
    · rw [Option.some.injEq]
      constructor
      · rintro rfl
        exact ⟨le_rfl, by omega, by omega, hstraddle.1, hstraddle.2, fun a ha ha' => absurd ha' (by omega)⟩
      · rintro ⟨hi, -, -, -, -, hnearest⟩
        exact le_antisymm hi (not_lt.mp fun hlt => hnearest p le_rfl hlt hstraddle)
    · rw [ih]
      constructor
      · rintro ⟨hi, hin, hin', hhigh, hlow, hnearest⟩
        refine ⟨by omega, by omega, by omega, hhigh, hlow, fun a ha ha' => ?_⟩
        rcases Nat.lt_or_eq_of_le ha with hlt | rfl
        · exact hnearest a hlt ha'
        · exact hstraddle
      · rintro ⟨hi, hin, hin', hhigh, hlow, hnearest⟩
        have hne : i ≠ p := fun h => hstraddle (by subst h; exact ⟨hhigh, hlow⟩)
        exact ⟨by omega, by omega, by omega, hhigh, hlow, fun a ha ha' => hnearest a (by omega) ha'⟩

/-- Settles O35: each scan stops at the first pair that straddles. -/
theorem crossesAreTheNearestStraddles : Obligations.CrossesAreTheNearestStraddles := fun u t pairs p window i =>
  ⟨leftCross_eq_some_iff u t p window i, rightCross_eq_some_iff u t pairs p window i⟩

end Sys2Proof.Machine
end

section
/-! The extraction (R177 to R185): its steps by name, the readout window, and when a result is valid. -/

namespace Sys2Proof.Machine

/-! ### The pivot, the threshold and the oriented waveform (R178, R179) -/

/-- `p`, the index the search pivots on. -/
def pivotIndex (v : Variant) (mx mn : Peak) : Nat := if negativeGoing v mx mn then mn.1 else mx.1

/-- `peakVal`, the value at the pivot. -/
def pivotValue (v : Variant) (mx mn : Peak) : Rat := if negativeGoing v mx mn then mn.2 else mx.2

/-- `d`, the direction in which the pivot is a peak. -/
def direction (v : Variant) (mx mn : Peak) : Rat := if negativeGoing v mx mn then -1 else 1

/-- `T`, the once rounded threshold in that direction. -/
def threshold (v : Variant) (pct : Rat) (mx mn : Peak) : Rat := direction v mx mn * rat (fl (pivotValue v mx mn * pct))

/-- `u`, the waveform in that direction. -/
def oriented (v : Variant) (mx mn : Peak) (cells : List Num64) (i : Nat) : Rat :=
  direction v mx mn * (cells.map rat).getD i 0

section
variable (v : Variant) (a : ExtractArgs) {cells : List Num64} {mx mn : Peak}

/-- The left cross of an extraction (R180). -/
def extractLeft (cells : List Num64) (mx mn : Peak) : Option Nat :=
  leftCross (oriented v mx mn cells) (threshold v a.pct mx mn) (pivotIndex v mx mn) (a.rise + a.top)

/-- The right cross of an extraction (R181). -/
def extractRight (cells : List Num64) (mx mn : Peak) : Option Nat :=
  rightCross (oriented v mx mn cells) (threshold v a.pct mx mn) (cells.length - 1 - pivotIndex v mx mn)
    (pivotIndex v mx mn) (a.rise + a.top)

/-- The energy read out around the midpoint of two crosses (R182, R184). -/
def extractEnergy (a : ExtractArgs) (cells : List Num64) (left right : Nat) : Option Num64 :=
  let window := readoutWindow (((left + right) / 2 : Nat) + a.shift) a.mean
  readout cells window.1 window.2

/-- An extraction is its three steps one after another, each of which may fail (R185). -/
theorem extract_of_extremes (h : extremes (cells.map rat) = some (mx, mn)) : extract v a cells =
    (extractLeft v a cells mx mn).bind fun left => (extractRight v a cells mx mn).bind fun right =>
      (extractEnergy a cells left right).map fun e => (e, timestamp v (left + right) a.rise a.top) := by
  have hsteps : extract v a cells = match extractLeft v a cells mx mn, extractRight v a cells mx mn with
      | some left, some right =>
        (extractEnergy a cells left right).map fun e => (e, timestamp v (left + right) a.rise a.top)
      | _, _ => none := by
    unfold extractLeft extractRight oriented threshold pivotIndex pivotValue direction
    rw [extract, h]
    dsimp only
    cases negativeGoing v mx mn <;> rfl
  rw [hsteps]
  cases extractLeft v a cells mx mn <;> cases extractRight v a cells mx mn <;> rfl

theorem extract_of_no_extremes (h : extremes (cells.map rat) = none) : extract v a cells = none := by
  rw [extract, h]

/-- When an extraction is valid: every step answers (R185). -/
theorem extract_eq_some_iff (cells : List Num64) (e : Num64) (ts : Rat) : extract v a cells = some (e, ts) ↔
    ∃ (mx mn : Peak) (left right : Nat), extremes (cells.map rat) = some (mx, mn) ∧
      extractLeft v a cells mx mn = some left ∧ extractRight v a cells mx mn = some right ∧
      ts = timestamp v (left + right) a.rise a.top ∧ extractEnergy a cells left right = some e := by
  cases h : extremes (cells.map rat) with
  | none => simp [extract_of_no_extremes v a h]
  | some extreme =>
    obtain ⟨mx, mn⟩ := extreme
    rw [extract_of_extremes v a h]
    simp only [Option.bind_eq_some_iff, Option.map_eq_some_iff, Option.some.injEq, Prod.mk.injEq]
    constructor
    · rintro ⟨left, hleft, right, hright, _, henergy, rfl, rfl⟩
      exact ⟨mx, mn, left, right, ⟨rfl, rfl⟩, hleft, hright, rfl, henergy⟩
    · rintro ⟨_, _, left, right, ⟨rfl, rfl⟩, hleft, hright, rfl, henergy⟩
      exact ⟨left, hleft, right, hright, e, henergy, rfl, rfl⟩

end

section
variable {v : Variant} {a : ExtractArgs} {cells : List Num64} {mx mn : Peak} {left right : Nat}

/-- The crosses enclose the pivot and lie in the buffer. -/
theorem crosses_enclose_pivot (hleft : extractLeft v a cells mx mn = some left)
    (hright : extractRight v a cells mx mn = some right) :
    left ≤ pivotIndex v mx mn ∧ pivotIndex v mx mn ≤ right ∧ right < cells.length := by
  obtain ⟨-, hle, -⟩ := (leftCross_eq_some_iff _ _ _ _ _).mp hleft
  obtain ⟨hge, hpairs, -⟩ := (rightCross_eq_some_iff _ _ _ _ _ _).mp hright
  exact ⟨hle, hge, by omega⟩

theorem pivotIndex_lt (h : extremes (cells.map rat) = some (mx, mn)) : pivotIndex v mx mn < cells.length := by
  obtain ⟨hmx, hmn⟩ := getElem?_of_extremes h
  have hmax := (List.getElem?_eq_some_iff.mp hmx).1
  have hmin := (List.getElem?_eq_some_iff.mp hmn).1
  rw [List.length_map] at hmax hmin
  rw [pivotIndex]
  split_ifs
  · exact hmin
  · exact hmax

/-- Turned either way, a constant waveform is constant. -/
theorem oriented_of_flat {c : Rat} (hflat : ∀ x ∈ cells, rat x = c) {i : Nat} (hi : i < cells.length) :
    oriented v mx mn cells i = direction v mx mn * c := by
  rw [oriented, List.getD_eq_getElem _ _ (by rwa [List.length_map]), List.getElem_map, hflat _ (List.getElem_mem hi)]

end

/-- Settles O37: the two values of the pair at the left cross would differ. -/
theorem flatWaveformIsInvalid : Obligations.FlatWaveformIsInvalid := by
  intro v a cells c hflat
  rw [Option.eq_none_iff_forall_ne_some]
  rintro ⟨e, ts⟩ h
  obtain ⟨mx, mn, left, right, hext, hleft, -⟩ := (extract_eq_some_iff v a cells e ts).mp h
  obtain ⟨-, hle, -, hlow, hhigh, -⟩ := (leftCross_eq_some_iff _ _ _ _ _).mp hleft
  have hpivot := pivotIndex_lt (v := v) hext
  rw [oriented_of_flat hflat (by omega)] at hlow hhigh
  exact absurd hlow (not_lt.mpr hhigh)

/-! ### The readout (R182 to R184) -/

/-- The cells of a window within the buffer, by their indices. -/
theorem map_rat_take_drop {cells : List Num64} {lo n : Nat} (h : lo + n ≤ cells.length) :
    ((cells.drop lo).take n).map rat = (List.range n).map fun j => rat (cells.getD (lo + j) 0#64) := by
  apply List.ext_getElem
  · simp only [List.length_map, List.length_take, List.length_drop, List.length_range]; omega
  · intro j hj hj'
    rw [List.length_map, List.length_range] at hj'
    simp only [List.getElem_map, List.getElem_take, List.getElem_drop, List.getElem_range]
    rw [List.getD_eq_getElem _ _ (by omega)]

/-- The energy of a window that is not empty (R184, R186). -/
theorem readout_eq_some_iff (cells : List Num64) {lo hi : Int} (hle : lo ≤ hi) (e : Num64) : readout cells lo hi = some e ↔
    0 ≤ lo ∧ hi ≤ (cells.length : Int) - 1 ∧ (lo = hi → cells[lo.toNat]? = some e) ∧
      (lo ≠ hi → e = fl (((List.range (hi - lo + 1).toNat).map fun j => rat (cells.getD (lo.toNat + j) 0#64)).sum /
        ((hi - lo + 1 : Int) : Rat))) := by
  rcases readout_cases cells lo hi with ⟨hout, hr⟩ | ⟨hlo, hhi, ⟨hone, hr⟩ | ⟨hseveral, hr⟩⟩
  · rw [hr]
    exact ⟨nofun, fun ⟨hlo, hhi, _⟩ => absurd hout (by omega)⟩
  · have hcell : cells[lo.toNat]? = some (cells.getD lo.toNat 0#64) := by
      rw [List.getElem?_eq_getElem (by omega), List.getD_eq_getElem _ _ (by omega)]
    rw [hr, hcell]
    exact ⟨fun h => ⟨hlo, hhi, fun _ => h, fun hne => absurd hone hne⟩, fun ⟨_, _, h, _⟩ => h hone⟩
  · rw [hr, map_rat_take_drop (by omega), Option.some.injEq]
    exact ⟨fun h => ⟨hlo, hhi, fun h' => absurd h' hseveral, fun _ => h.symm⟩, fun ⟨_, _, _, h⟩ => (h hseveral).symm⟩

/-- The first index of the readout window (R184). -/
def windowFirst (i0 mean : Int) : Int := if mean < 0 then i0 + mean + 1 else i0

/-- The last index of the readout window (R184). -/
def windowLast (i0 mean : Int) : Int := if 0 < mean then i0 + mean - 1 else i0

theorem readoutWindow_eq (i0 mean : Int) : readoutWindow i0 mean = (windowFirst i0 mean, windowLast i0 mean) := by
  rw [windowFirst, windowLast]
  rcases lt_trichotomy mean 0 with h | rfl | h
  · simp only [readoutWindow, if_neg h.ne, if_neg h.not_gt, if_pos h]
  · rfl
  · simp only [readoutWindow, if_neg h.ne', if_pos h, if_neg h.not_gt]

theorem windowFirst_le_windowLast (i0 mean : Int) : windowFirst i0 mean ≤ windowLast i0 mean := by
  rw [windowFirst, windowLast]
  split_ifs <;> omega

/-- The floor of the midpoint is the natural quotient (R182). -/
theorem floor_midpoint (left right : Nat) : (((left : Rat) + right) / 2).floor = ((left + right) / 2 : Nat) := by
  have h := Rat.floor_natCast_div_natCast (left + right) 2
  push_cast at h ⊢
  exact h

theorem extractEnergy_eq (a : ExtractArgs) (cells : List Num64) (left right : Nat) : extractEnergy a cells left right =
    readout cells (windowFirst ((((left : Rat) + right) / 2).floor + a.shift) a.mean)
      (windowLast ((((left : Rat) + right) / 2).floor + a.shift) a.mean) := by
  rw [extractEnergy, readoutWindow_eq, floor_midpoint]

/-- The timestamp as the variant's offset from a midpoint `mid` (R183). -/
def timeOfMidpoint (v : Variant) (mid : Rat) (rise top : Nat) : Rat :=
  match v with
  | .single => mid - (top : Rat) / 2 - rise
  | .double => mid - 7 * (top : Rat) / 4 - 2 * rise

theorem timestamp_eq (v : Variant) (left right rise top : Nat) :
    timestamp v (left + right) rise top = timeOfMidpoint v (((left : Rat) + right) / 2) rise top := by
  cases v <;> simp only [timestamp, timeOfMidpoint, Nat.cast_add]

/-- Settles O36: each step answers what the statement says of it, and a window is read out by its bounds. -/
theorem validExtractionReadsAroundTheMidpoint : Obligations.ValidExtractionReadsAroundTheMidpoint := by
  intro v a cells e ts
  refine (extract_eq_some_iff v a cells e ts).trans (exists₄_congr fun mx mn left right => and_congr_right fun _ =>
    and_congr_right fun hleft => and_congr_right fun hright => ?_)
  obtain ⟨hle, hge, hlt⟩ := crosses_enclose_pivot hleft hright
  rw [timestamp_eq, extractEnergy_eq, readout_eq_some_iff cells (windowFirst_le_windowLast _ _)]
  exact ⟨fun h => ⟨hle, hge, hlt, h⟩, fun ⟨_, _, _, h⟩ => h⟩

end Sys2Proof.Machine
end

section
/-! TF.START (R200). -/

namespace Sys2Proof.Machine

theorem encodes_tfStart : Encodes 0x70#8 0 (fun _ => .tfStart) :=
  encodes_of_withFormat .z fun op => by
    simp only [decodeCommand, opcodeOf_commandWord, operandOf_commandWord]; rfl

theorem eq_zero_iff_toNat_eq_zero {n : Nat} (v : BitVec n) : v = 0 ↔ v.toNat = 0 := by
  rw [← BitVec.toNat_inj]
  rfl

/-- The scale factor as R200 writes it, `SCALE / 2^23`. -/
theorem mkRat_scale (scale : BitVec 24) : mkRat scale.toNat (2 ^ 23) = (scale.toNat : Rat) / 8388608 := by
  rw [Rat.mkRat_eq_div]
  norm_num

section
variable {s : State}

theorem exec_tfStart_of_legal (hrise : s.p.rise.toNat ≠ 0) (htop : s.p.top.toNat ≠ 0) (htau : rat s.p.tau ≠ 0) :
    exec .tfStart s = .next { s with
      tf := freshFilter s.p.rise s.p.top (rat s.p.tau) ((s.p.scale.toNat : Rat) / 8388608) s.tf.hold } := by
  simp only [exec, execTfStart, eq_zero_iff_toNat_eq_zero, hrise, htop, htau, or_self, if_false, mkRat_scale]

/-- A line of capacity 0 does not exist, nor does the scale of a filter with `tau = 0` (R200). -/
theorem exec_tfStart_of_refused (h : s.p.rise.toNat = 0 ∨ s.p.top.toNat = 0 ∨ rat s.p.tau = 0) :
    exec .tfStart s = .next (refuse 0x70#8 1 s) := by
  simp only [exec, execTfStart, eq_zero_iff_toNat_eq_zero, if_pos h, raise_eq_refuse]
  rfl

end

/-- Settles O38: the fresh filter is the record that the statement writes out. -/
theorem tfStartBuildsAFreshFilter : Obligations.TfStartBuildsAFreshFilter :=
  ⟨encodes_tfStart, fun _ =>
    ⟨fun hrise htop htau => ⟨_, exec_tfStart_of_legal hrise htop htau, cellsKept_of_tx_eq rfl, rfl⟩,
      exec_tfStart_of_refused⟩⟩

end Sys2Proof.Machine
end

section
/-! One pipeline step and one delay line by themselves (R197, R198, R203). -/

namespace Sys2Proof.Machine

/-- Settles O40: on each of the twelve lines the push ejects the tail named. -/
theorem pipelineStepIsTheFiveLines : Obligations.PipelineStepIsTheFiveLines := by
  intro rnd v tf xB xC xD xF xK xL xN xQ xS xU xY xZ b c d f k l n q s u y z hB hC hD hF hK hL hN hQ hS hU hY hZ
  simp only [filterStep, hB, hC, hD, hF, hK, hL, hN, hQ, hS, hU, hY, hZ, push_concat]

theorem pushRun_cons (v : Int) (vs : List Int) (d : DelayLine) :
    pushRun (v :: vs) d = ((push d v).1 :: (pushRun vs (push d v).2).1, (pushRun vs (push d v).2).2) := rfl

@[simp] theorem pushRun_length (vs : List Int) (d : DelayLine) : (pushRun vs d).2.length = d.length := by
  induction vs generalizing d with
  | nil => rfl
  | cons v vs ih => rw [pushRun_cons, ih, push_length]

/-- A delay line is a queue: the initial content comes out tail first, then the values pushed (R198). -/
theorem pushRun_ejects (vs : List Int) {d : DelayLine} (hd : d ≠ []) :
    (pushRun vs d).1 = (d.reverse ++ vs).take vs.length := by
  induction vs generalizing d with
  | nil => rfl
  | cons v vs ih =>
    obtain ⟨xs, t, rfl⟩ := (List.eq_nil_or_concat' d).resolve_left hd
    rw [pushRun_cons, push_concat, ih (List.cons_ne_nil v xs)]
    simp

/-- Settles O41: position `m` of the queue lies in the initial content or among the values pushed. -/
theorem delayLineDelaysByItsCapacity : Obligations.DelayLineDelaysByItsCapacity := by
  intro d vs m hd hm
  refine ⟨?_, pushRun_length vs d⟩
  rw [pushRun_ejects vs hd, List.getElem?_take_of_lt hm]
  split_ifs with hlt
  · rw [List.getElem?_append_left (by rwa [List.length_reverse]), List.getElem?_reverse hlt]
  · rw [List.getElem?_append_right (by rw [List.length_reverse]; omega), List.length_reverse]

end Sys2Proof.Machine
end


section
/-! The closed form of the filter (R207): before step `n` every line holds the last values of a sequence of R207. -/

namespace Sys2Proof.Machine

/-! ### A delay line as the recent past of a sequence -/

/-- The line of a capacity on which step `i` of a job pushes `x i`, before step `n`: the newest value in front. -/
def history (x : Int → Int) (n : Int) (capacity : Nat) : DelayLine :=
  (List.range capacity).map fun i : Nat => x (n - 1 - i)

theorem history_succ (x : Int → Int) (n : Int) (c : Nat) :
    history x n (c + 1) = history x n c ++ [x (n - (c + 1 : Nat))] := by
  rw [history, List.range_succ, List.map_append, List.map_singleton, ← history,
    show n - 1 - (c : Int) = n - (c + 1 : Nat) by omega]

theorem history_succ_eq_cons (x : Int → Int) (n : Int) (c : Nat) : history x (n + 1) (c + 1) = x n :: history x n c := by
  rw [history, List.range_succ_eq_map, List.map_cons, List.map_map, history, show n + 1 - 1 - (0 : Nat) = n by omega]
  exact congrArg _ (List.map_congr_left fun i _ => congrArg x (by omega))

/-- The push of step `n` ejects what was pushed `capacity` steps before (R198). -/
theorem push_history {x : Int → Int} {n out : Int} {capacity : Nat} (h : 0 < capacity) (hout : x (n - capacity) = out) :
    push (history x n capacity) (x n) = (out, history x (n + 1) capacity) := by
  obtain ⟨c, rfl⟩ := Nat.exists_eq_succ_of_ne_zero h.ne'
  rw [← hout, Nat.succ_eq_add_one, history_succ, push_concat, history_succ_eq_cons]

/-- A fresh line is the past of a sequence that is 0 at negative indices. -/
theorem history_zero {x : Int → Int} (hx : ∀ i < 0, x i = 0) (capacity : Nat) :
    history x 0 capacity = freshLine capacity := by
  rw [history, List.map_congr_left fun (i : Nat) _ => hx (0 - 1 - i) (by omega), List.map_const', List.length_range,
    freshLine]

/-! ### Running sums -/

/-- A sum over the list of indices, which R207's sums take as integers, is the sum over their set. -/
theorem sum_map_range_cast (n : Nat) (f : Int → Int) :
    ((List.range n).map fun j => f j).sum = ∑ j ∈ Finset.range n, f j := by
  rw [bind_pure_comp, List.map_eq_map, List.map_map, ← List.sum_toFinset _ List.nodup_range, List.toFinset_range]
  rfl

/-- `x[0] + ... + x[n]`, and 0 at negative `n`. -/
def runningSum (x : Int → Int) (n : Int) : Int := ∑ j ∈ Finset.range (n + 1).toNat, x j

theorem runningSum_of_neg (x : Int → Int) {n : Int} (h : n < 0) : runningSum x n = 0 := by
  rw [runningSum, Int.toNat_of_nonpos (by omega), Finset.sum_range_zero]

theorem runningSum_step (x : Int → Int) {n : Int} (h : 0 ≤ n) : runningSum x n = runningSum x (n - 1) + x n := by
  rw [runningSum, show (n + 1).toNat = n.toNat + 1 by omega, Finset.sum_range_succ, Int.toNat_of_nonneg h, runningSum,
    sub_add_cancel]

/-- One step of a difference of running sums is a value of the sequence, or nothing before it begins. -/
theorem runningSum_sub_pred (x : Int → Int) (n : Int) :
    runningSum x n - runningSum x (n - 1) = if n < 0 then 0 else x n := by
  split_ifs with h
  · rw [runningSum_of_neg x h, runningSum_of_neg x (by omega), sub_zero]
  · rw [runningSum_step x (not_lt.mp h), add_sub_cancel_left]

/-! ### The sequences of R207 -/

theorem sampleAt_of_neg (vs : List Int) {i : Int} (h : i < 0) : sampleAt vs i = 0 := if_pos h

theorem sampleAt_of_lt {vs : List Int} {n : Nat} (h : n < vs.length) : sampleAt vs n = vs[n] := by
  rw [sampleAt, if_neg (by omega), Int.toNat_natCast, List.getD_eq_getElem _ _ h]

theorem roundWith_zero (rnd : Config.Rounding) : roundWith rnd 0 = 0 := by
  have hfloor : Rat.floor 0 = 0 := rfl
  rw [roundWith_eq, hfloor, if_pos (by norm_num)]

section
variable (r t : Nat) (tau : Rat) (vs : List Int)

theorem closedF_of_nonpos {n : Int} (h : n ≤ 0) : closedF r t vs n = 0 := by
  rw [closedF, sampleAt_of_neg vs (by omega), sampleAt_of_neg vs (by omega), sampleAt_of_neg vs (by omega),
    sampleAt_of_neg vs (by omega)]
  rfl

/-- What step `n` pushes on `dF` (R203). -/
theorem closedF_succ (n : Int) :
    sampleAt vs n - sampleAt vs (n - r) - sampleAt vs (n - (r + t)) + sampleAt vs (n - (r + t) - r) =
      closedF r t vs (n + 1) := by
  rw [closedF, add_sub_cancel_right]

theorem closedAcc1_eq (n : Int) : closedAcc1 r t vs n = runningSum (closedF r t vs) n := sum_map_range_cast _ _

theorem closedAcc1_of_neg {n : Int} (h : n < 0) : closedAcc1 r t vs n = 0 := by
  rw [closedAcc1_eq, runningSum_of_neg _ h]

theorem closedAcc1_step {n : Int} (h : 0 ≤ n) : closedAcc1 r t vs n = closedAcc1 r t vs (n - 1) + closedF r t vs n := by
  rw [closedAcc1_eq, runningSum_step _ h, closedAcc1_eq]

/-- `L` before its delay: `floor(F[n] * tau)`. -/
def closedScaled (n : Int) : Int := ((closedF r t vs n : Rat) * tau).floor

theorem closedScaled_of_nonpos {n : Int} (h : n ≤ 0) : closedScaled r t tau vs n = 0 := by
  rw [closedScaled, closedF_of_nonpos r t vs h, Int.cast_zero, zero_mul]
  rfl

/-- The guard in `N` is no case of its own: `F` is 0 there. -/
theorem closedN_eq (n : Int) :
    closedN r t tau vs n = closedAcc1 r t vs (n - 2) + closedScaled r t tau vs (n - 3) := by
  rw [closedN]
  split_ifs with h
  · rw [closedScaled_of_nonpos r t tau vs (by omega)]
  · rfl

theorem closedN_of_nonpos {n : Int} (h : n ≤ 0) : closedN r t tau vs n = 0 := by
  rw [closedN_eq, closedAcc1_of_neg r t vs (by omega), closedScaled_of_nonpos r t tau vs (by omega), add_zero]

/-- What step `n` pushes on `dN` (R203). -/
theorem closedN_succ (n : Int) :
    closedAcc1 r t vs (n - 1) + closedScaled r t tau vs (n - 2) = closedN r t tau vs (n + 1) := by
  rw [closedN_eq, show n + 1 - 2 = n - 1 by omega, show n + 1 - 3 = n - 2 by omega]

/-- `acc2[n] = N[0] + ... + N[n]` (R207). -/
def closedAcc2 : Int → Int := runningSum (closedN r t tau vs)

theorem closedAcc2_of_neg {n : Int} (h : n < 0) : closedAcc2 r t tau vs n = 0 := runningSum_of_neg _ h

theorem closedAcc2_step {n : Int} (h : 0 ≤ n) :
    closedAcc2 r t tau vs n = closedAcc2 r t tau vs (n - 1) + closedN r t tau vs n := runningSum_step _ h

/-- `acc3[n] - acc3[n-1]` (R207). -/
def closedDelta (n : Int) : Int :=
  (if n - (r + t) < 0 then 0 else closedN r t tau vs (n - (r + t))) - closedN r t tau vs n

theorem closedAcc3_eq (n : Int) : closedAcc3 r t tau vs n = runningSum (closedDelta r t tau vs) n := sum_map_range_cast _ _

theorem closedAcc3_of_neg {n : Int} (h : n < 0) : closedAcc3 r t tau vs n = 0 := by
  rw [closedAcc3_eq, runningSum_of_neg _ h]

/-- What enters the output line before `acc3` begins. -/
theorem roundWith_closedAcc3_of_neg (rnd : Config.Rounding) (sf : Rat) {n : Int} (h : n < 0) :
    roundWith rnd ((closedAcc3 r t tau vs n : Rat) * sf) = 0 := by
  rw [closedAcc3_of_neg r t tau vs h, Int.cast_zero, zero_mul, roundWith_zero]

/-- The fourth line of R203 with `Q`, `S` and `U` as R207 gives them. -/
theorem closedAcc3_step {n : Int} (h : 0 ≤ n) : closedAcc3 r t tau vs n = closedAcc3 r t tau vs (n - 1) +
    (closedAcc2 r t tau vs (n - 1) - closedAcc2 r t tau vs n + closedAcc2 r t tau vs (n - (r + t)) -
      closedAcc2 r t tau vs (n - (r + t) - 1)) := by
  have hdelayed := runningSum_sub_pred (closedN r t tau vs) (n - (r + t))
  rw [closedAcc3_eq, runningSum_step _ h, closedAcc3_eq, closedDelta, ← hdelayed, closedAcc2_step r t tau vs h, closedAcc2]
  ring

end

/-! ### The filter between two steps -/

section
variable (rnd : Config.Rounding) (r t : Nat) (tf : Tf) (vs : List Int)

/-- The filter `tf` as R207 has it before step `n` of a job over the decimated values `vs`. -/
def filterAt (n : Int) : Tf :=
  { tf with
    dB := history (sampleAt vs) n r
    dC := history (fun i => sampleAt vs (i - r)) n t
    dD := history (fun i => sampleAt vs (i - (r + t))) n r
    dF := history (fun i => closedF r t vs (i + 1)) n 1
    dK := history (closedAcc1 r t vs) n 1
    dL := history (closedScaled r t tf.tau vs) n 2
    dN := history (fun i => closedN r t tf.tau vs (i + 1)) n 1
    dQ := history (closedAcc2 r t tf.tau vs) n 1
    dS := history (closedAcc2 r t tf.tau vs) n (r + t)
    dU := history (fun i => closedAcc2 r t tf.tau vs (i - (r + t))) n 1
    dY := history (closedAcc3 r t tf.tau vs) n 1
    dZ := history (fun i => roundWith rnd ((closedAcc3 r t tf.tau vs (i - 1) : Rat) * tf.sf)) n 1
    acc1 := closedAcc1 r t vs (n - 1)
    acc2 := closedAcc2 r t tf.tau vs (n - 1)
    acc3 := closedAcc3 r t tf.tau vs (n - 1) }

/-- Before its first step the filter is fresh: every sequence of R207 is 0 at negative indices. -/
theorem filterAt_zero (rise top : BitVec 32) (tau sf : Rat) (hold : BitVec 16) :
    filterAt rnd rise.toNat top.toNat (freshFilter rise top tau sf hold) vs 0 = freshFilter rise top tau sf hold := by
  rw [filterAt, history_zero fun i hi => sampleAt_of_neg vs hi,
    history_zero fun i hi => sampleAt_of_neg vs (by omega : i - rise.toNat < 0),
    history_zero fun i hi => sampleAt_of_neg vs (by omega : i - (rise.toNat + top.toNat) < 0),
    history_zero fun i hi => closedF_of_nonpos _ _ vs (by omega : i + 1 ≤ 0),
    history_zero fun i hi => closedAcc1_of_neg _ _ vs hi,
    history_zero fun i hi => closedScaled_of_nonpos _ _ _ vs (Int.le_of_lt hi),
    history_zero fun i hi => closedN_of_nonpos _ _ _ vs (by omega : i + 1 ≤ 0),
    history_zero fun i hi => closedAcc2_of_neg _ _ _ vs hi,
    history_zero fun i hi => closedAcc2_of_neg _ _ _ vs hi,
    history_zero fun i hi => closedAcc2_of_neg _ _ _ vs (by omega : i - (rise.toNat + top.toNat) < 0),
    history_zero fun i hi => closedAcc3_of_neg _ _ _ vs hi,
    history_zero fun i hi => roundWith_closedAcc3_of_neg _ _ _ vs rnd _ (by omega : i - 1 < 0),
    closedAcc1_of_neg _ _ vs (by omega), closedAcc2_of_neg _ _ _ vs (by omega), closedAcc3_of_neg _ _ _ vs (by omega)]
  rfl

/-- Step `n` emits what R207 gives and leaves the filter as it is before step `n + 1`. The facts follow the lines of R203 in
order: what each push ejects, and that each value pushed or accumulated is one of R207. -/
theorem filterStep_filterAt (hr : 0 < r) (ht : 0 < t) {n : Int} (hn : 0 ≤ n) :
    filterStep rnd (sampleAt vs n) (filterAt rnd r t tf vs n) =
      (roundWith rnd ((closedAcc3 r t tf.tau vs (n - 2) : Rat) * tf.sf), filterAt rnd r t tf vs (n + 1)) := by
  have hB : push (history (sampleAt vs) n r) (sampleAt vs n) = (sampleAt vs (n - r), _) := push_history hr rfl
  have hC : push (history (fun i => sampleAt vs (i - r)) n t) (sampleAt vs (n - r)) = (sampleAt vs (n - (r + t)), _) :=
    push_history ht (congrArg _ (by omega))
  have hD : push (history (fun i => sampleAt vs (i - (r + t))) n r) (sampleAt vs (n - (r + t))) =
      (sampleAt vs (n - (r + t) - r), _) := push_history hr (congrArg _ (by omega))
  have hF : push (history (fun i => closedF r t vs (i + 1)) n 1) (closedF r t vs (n + 1)) = (closedF r t vs n, _) :=
    push_history one_pos (congrArg _ (by omega))
  have hacc1 := closedAcc1_step r t vs hn
  have hK : push (history (closedAcc1 r t vs) n 1) (closedAcc1 r t vs n) = (closedAcc1 r t vs (n - 1), _) :=
    push_history one_pos rfl
  have hL : push (history (closedScaled r t tf.tau vs) n 2) ((closedF r t vs n : Rat) * tf.tau).floor =
      (closedScaled r t tf.tau vs (n - 2), _) := push_history two_pos rfl
  have hN : push (history (fun i => closedN r t tf.tau vs (i + 1)) n 1) (closedN r t tf.tau vs (n + 1)) =
      (closedN r t tf.tau vs n, _) := push_history one_pos (congrArg _ (by omega))
  have hacc2 := closedAcc2_step r t tf.tau vs hn
  have hQ : push (history (closedAcc2 r t tf.tau vs) n 1) (closedAcc2 r t tf.tau vs n) =
      (closedAcc2 r t tf.tau vs (n - 1), _) := push_history one_pos rfl
  have hS : push (history (closedAcc2 r t tf.tau vs) n (r + t)) (closedAcc2 r t tf.tau vs n) =
      (closedAcc2 r t tf.tau vs (n - (r + t)), _) := push_history (Nat.add_pos_left hr t) rfl
  have hU : push (history (fun i => closedAcc2 r t tf.tau vs (i - (r + t))) n 1) (closedAcc2 r t tf.tau vs (n - (r + t))) =
      (closedAcc2 r t tf.tau vs (n - (r + t) - 1), _) := push_history one_pos (congrArg _ (by omega))
  have hacc3 := closedAcc3_step r t tf.tau vs hn
  have hY : push (history (closedAcc3 r t tf.tau vs) n 1) (closedAcc3 r t tf.tau vs n) =
      (closedAcc3 r t tf.tau vs (n - 1), _) := push_history one_pos rfl
  have hZ : push (history (fun i => roundWith rnd ((closedAcc3 r t tf.tau vs (i - 1) : Rat) * tf.sf)) n 1)
      (roundWith rnd ((closedAcc3 r t tf.tau vs (n - 1) : Rat) * tf.sf)) =
      (roundWith rnd ((closedAcc3 r t tf.tau vs (n - 2) : Rat) * tf.sf), _) :=
    push_history one_pos (by rw [show n - (1 : Nat) - 1 = n - 2 by omega])
  simp only [filterStep, filterAt, hB, hC, hD, closedF_succ, hF, ← hacc1, hK, hL, closedN_succ, hN, ← hacc2,
    hQ, hS, hU, ← hacc3, hY, hZ, add_sub_cancel_right]

/-- A run from step `m` on is step `m` and the run after it. -/
theorem filterRun_drop_filterAt (hr : 0 < r) (ht : 0 < t) {m : Nat} (h : m < vs.length) :
    (filterRun rnd (vs.drop m) (filterAt rnd r t tf vs m)).1 =
      roundWith rnd ((closedAcc3 r t tf.tau vs (m - 2) : Rat) * tf.sf) ::
        (filterRun rnd (vs.drop (m + 1)) (filterAt rnd r t tf vs (m + 1 : Nat))).1 := by
  rw [List.drop_eq_getElem_cons h, filterRun, ← sampleAt_of_lt h,
    filterStep_filterAt rnd r t tf vs hr ht (Int.natCast_nonneg m)]
  rfl

/-- The samples filtered from step `m` on. -/
theorem filterRun_filterAt (hr : 0 < r) (ht : 0 < t) {i m : Nat} (h : m + i < vs.length) :
    (filterRun rnd (vs.drop m) (filterAt rnd r t tf vs m)).1[i]? =
      some (roundWith rnd ((closedAcc3 r t tf.tau vs ((m + i : Nat) - 2) : Rat) * tf.sf)) := by
  induction i generalizing m with
  | zero => rw [filterRun_drop_filterAt rnd r t tf vs hr ht (by omega)]; rfl
  | succ i ih =>
    rw [filterRun_drop_filterAt rnd r t tf vs hr ht (by omega), List.getElem?_cons_succ, ih (by omega),
      Nat.succ_add_eq_add_succ]

end

/-- Settles O43: a fresh filter is the filter before step 0. -/
theorem filterHasItsClosedForm : Obligations.FilterHasItsClosedForm := by
  intro rnd rise top tau sf hold vs n hrise htop hn
  have hrun := filterRun_filterAt rnd rise.toNat top.toNat (freshFilter rise top tau sf hold) vs hrise htop
    (m := 0) (by rwa [Nat.zero_add])
  rwa [List.drop_zero, Int.natCast_zero, filterAt_zero, Nat.zero_add] at hrun

end Sys2Proof.Machine
end

section
/-! A core to which no command is presented waits (R261, R265). -/

namespace Sys2Proof.Machine

/-- Settles O8: of what a step can do, all but waiting needs a word at the command port. -/
theorem idleCoreHoldsItsState : Obligations.IdleCoreHoldsItsState := by
  intro s hidle
  rcases step_cases s with ⟨-, hwait⟩ | ⟨c, rest, hport, -⟩
  · exact hwait
  · rw [hidle] at hport
    cases hport

end Sys2Proof.Machine
end

section
/-! The jobs of TD (R222 to R230): TD.START, the event of one sample, and the machine run over a stream of samples. -/

namespace Sys2Proof.Machine

/-! ### TD.START -/

theorem encodes_tdStart : Encodes 0x80#8 0 (fun _ => .tdStart) :=
  encodes_of_withFormat .z fun op => by
    simp only [decodeCommand, opcodeOf_commandWord, operandOf_commandWord]; rfl

/-- The trigger unit at the start of a job (R222). -/
def freshTrigger (p : Params) : Td where
  active := true
  rise := p.rise
  top := p.top
  thr := p.thr
  wait := p.rise.toNat / 2 + 3 * p.top.toNat / 4
  off := 3 * p.rise.toNat + 2 * p.top.toNat
  idx := 0
  st := .idle
  prev := 0
  cross := 0

theorem exec_tdStart (s : State) : exec .tdStart s = .next { s with td := freshTrigger s.p } := rfl

/-- Settles O44: TD.START has one equation, for every parameter value, and it writes no cell. -/
theorem tdStartOpensAnIdleMachine : Obligations.TdStartOpensAnIdleMachine :=
  ⟨encodes_tdStart, fun s => ⟨_, exec_tdStart s, cellsKept_of_tx_eq rfl, rfl⟩⟩

/-! ### The event (R226) -/

/-- In WaitDelay an index past `cross + wait` is the one just after it, since every earlier index was evaluated (R225). -/
theorem delay_over_iff {td : Td} (h : TdInv td) (ha : td.active = true) (hst : td.st = .waitDelay) :
    td.idx > td.cross + td.wait ↔ td.idx = td.cross + td.wait + 1 := by
  obtain ⟨-, -, -, -, hdelay⟩ := h.2 ha
  obtain ⟨-, -, hlast⟩ := hdelay hst
  omega

/-- The records of a sample that arrives in WaitDelay (R225). -/
theorem trigger_records_of_waitDelay (sgn0 y : Int) {td : Td} (h : TdInv td) (ha : td.active = true)
    (hst : td.st = .waitDelay) : (trigger sgn0 y td).2 =
      if td.idx = td.cross + td.wait + 1 then
        [.trge (tc64 y), .trgo (tc64 (sampleOffset td.idx td.rise.toNat td.top.toNat))] else [] := by
  obtain ⟨-, -, -, hpast, -⟩ := h.2 ha
  have hoff : td.off < td.idx := hpast (by rw [hst]; nofun)
  rw [trigger_of_off_le _ _ _ hoff.le, evaluate_records]
  simp only [hst, true_and, delay_over_iff h ha hst]

/-- The offset of an event in terms of its crossing: the part of `wait` that comes from `top` cancels (R226). -/
theorem sampleOffset_of_event {td : Td} (h : TdInv td) (ha : td.active = true) (hidx : td.idx = td.cross + td.wait + 1) :
    sampleOffset td.idx td.rise.toNat td.top.toNat =
      2 * ((td.cross : Int) + 1 + (td.rise.toNat / 2 : Nat) - 2 * td.rise.toNat - td.top.toNat) := by
  obtain ⟨hwait, -, -, -, -⟩ := h.2 ha
  rw [sampleOffset]
  omega

/-- A crossing is past `off`, hence past `2 * rise + top` (R226). -/
theorem event_offset_nonneg {td : Td} (h : TdInv td) (ha : td.active = true) (hst : td.st = .waitDelay) :
    0 ≤ 2 * ((td.cross : Int) + 1 + (td.rise.toNat / 2 : Nat) - 2 * td.rise.toNat - td.top.toNat) := by
  obtain ⟨-, hoff, -, -, hdelay⟩ := h.2 ha
  obtain ⟨hcross, -, -⟩ := hdelay hst
  omega

/-- Settles O46: the invariant leaves one index for the event, and makes its offset the one of R226. -/
theorem eventComesWaitPlusOneAfterTheCrossing : Obligations.EventComesWaitPlusOneAfterTheCrossing := by
  intro w s t hinv ha hexec hst hidx
  rw [exec_tdPush_of_active w ha hidx, trigger_records_of_waitDelay _ _ hinv ha hst] at hexec
  cases hexec
  by_cases hevent : s.td.idx = s.td.cross + s.td.wait + 1
  · have hw : tc64 w.toInt = w := BitVec.ofInt_toInt
    rw [if_pos hevent, sampleOffset_of_event hinv ha hevent, hw]
    refine ⟨iff_of_true (fun hsame => ?_) hevent, fun _ => ⟨_, event_offset_nonneg hinv ha hst, rfl, rfl⟩⟩
    cases List.append_right_eq_self.mp hsame
  · rw [if_neg hevent]
    exact ⟨iff_of_false (fun hne => hne (List.append_nil _)) hevent, fun h => absurd h hevent⟩

/-! ### A stream of samples -/

/-- The machine run over a stream of samples (R224), with the records of all its events. -/
def triggerRun (sgn0 : Int) : List (BitVec 64) → Td → Td × List Response
  | [], td => (td, [])
  | y :: ys, td =>
    let now := trigger sgn0 y.toInt td
    let later := triggerRun sgn0 ys now.1
    (later.1, now.2 ++ later.2)

section
variable (sgn0 y : Int) (td : Td)

@[simp] theorem trigger_active : (trigger sgn0 y td).1.active = td.active := by rw [trigger_fst]
@[simp] theorem trigger_thr : (trigger sgn0 y td).1.thr = td.thr := by rw [trigger_fst]
@[simp] theorem trigger_off : (trigger sgn0 y td).1.off = td.off := by rw [trigger_fst]
@[simp] theorem trigger_idx : (trigger sgn0 y td).1.idx = td.idx + 1 := by rw [trigger_fst]

end

/-- The pushes of a stream within the index range of R224 complete, and are one run of the machine. -/
theorem execAll_tdPush (ys : List (BitVec 64)) {s : State} (ha : s.td.active = true) (hroom : s.td.idx + ys.length ≤ 2 ^ 62) :
    execAll (ys.map .tdPush) s = .next (emitAll (triggerRun s.settings.sgn0 ys s.td).2
      { s with td := (triggerRun s.settings.sgn0 ys s.td).1 }) := by
  induction ys generalizing s with
  | nil => simp only [List.map_nil, execAll, triggerRun, emitAll_nil]
  | cons y ys ih =>
    rw [List.length_cons] at hroom
    rw [List.map_cons, execAll, exec_tdPush_of_active y ha (by omega)]
    dsimp only
    rw [ih (by rw [trigger_active, ha]) (by rw [trigger_idx]; omega)]
    simp only [triggerRun, emitAll_eq, List.map_append, List.append_assoc]

/-- A whole job (R222, R224): a run of the machine from the fresh unit. -/
theorem execAll_triggerJob (ys : List (BitVec 64)) (s : State) (hroom : ys.length ≤ 2 ^ 62) :
    execAll (.tdStart :: ys.map .tdPush) s = .next (emitAll (triggerRun s.settings.sgn0 ys (freshTrigger s.p)).2
      { s with td := (triggerRun s.settings.sgn0 ys (freshTrigger s.p)).1 }) := by
  rw [execAll, exec_tdStart]
  exact execAll_tdPush ys rfl (by rwa [freshTrigger, Nat.zero_add])

/-- A stream that ends at or before index `off` evaluates no state (R230). -/
theorem triggerRun_of_le_off (sgn0 : Int) (ys : List (BitVec 64)) {td : Td} (h : td.idx + ys.length ≤ td.off) :
    (triggerRun sgn0 ys td).1.st = td.st ∧ (triggerRun sgn0 ys td).2 = [] := by
  induction ys generalizing td with
  | nil => exact ⟨rfl, rfl⟩
  | cons y ys ih =>
    rw [List.length_cons] at h
    rw [triggerRun, trigger_of_lt_off _ _ _ (by omega)]
    exact ih (by dsimp only; omega)

/-- Settles O47: the stream ends at or before `off`, which is far below the last index. -/
theorem shortStreamsTriggerNothing : Obligations.ShortStreamsTriggerNothing := by
  intro ys s hshort
  have hrise := s.p.rise.isLt
  have htop := s.p.top.isLt
  obtain ⟨hst, hrecords⟩ := triggerRun_of_le_off s.settings.sgn0 ys (td := freshTrigger s.p)
    (by rwa [freshTrigger, Nat.zero_add])
  refine ⟨_, execAll_triggerJob ys s (by omega), ?_, hst⟩
  rw [emitAll_responses, hrecords, List.map_nil, List.append_nil]

/-! ### A threshold of zero (R229) -/

/-- How many records a job with threshold 0 can still emit: those of one event, until the machine is armed. -/
def recordsLeft : TdState → Nat
  | .armed => 0
  | .idle | .waitZeroCross | .waitDelay => 2

/-- With threshold 0 an event leads to the armed state, which no sample leaves. -/
theorem evaluate_recordsLeft (sgn0 y : Int) {td : Td} (hthr : td.thr.toNat = 0) :
    (evaluate sgn0 y td).2.length + recordsLeft (evaluate sgn0 y td).1.st ≤ recordsLeft td.st := by
  have hstays : ¬ |y| < ((0 : Nat) : Int) := not_lt.mpr (abs_nonneg y)
  rw [evaluate_records, evaluate_st, hthr]
  cases td.st with
  | idle | waitZeroCross =>
    rw [if_neg nofun]
    dsimp only
    split <;> exact Nat.le_refl 2
  | waitDelay =>
    simp only [true_and]
    split <;> exact Nat.le_refl 2
  | armed =>
    rw [if_neg nofun]
    dsimp only
    rw [if_neg hstays]
    exact Nat.le_refl 0

theorem trigger_recordsLeft (sgn0 y : Int) {td : Td} (hthr : td.thr.toNat = 0) :
    (trigger sgn0 y td).2.length + recordsLeft (trigger sgn0 y td).1.st ≤ recordsLeft td.st := by
  rcases Nat.lt_or_ge td.idx td.off with hoff | hoff
  · rw [trigger_of_lt_off _ _ _ hoff, List.length_nil, Nat.zero_add]
  · rw [trigger_of_off_le _ _ _ hoff]
    exact evaluate_recordsLeft sgn0 y hthr

theorem triggerRun_length_le (sgn0 : Int) (ys : List (BitVec 64)) {td : Td} (hthr : td.thr.toNat = 0) :
    (triggerRun sgn0 ys td).2.length ≤ recordsLeft td.st := by
  induction ys generalizing td with
  | nil => exact Nat.zero_le _
  | cons y ys ih =>
    have hnow := trigger_recordsLeft sgn0 y.toInt hthr
    have hlater := ih (td := (trigger sgn0 y.toInt td).1) (by rw [trigger_thr, hthr])
    rw [triggerRun, List.length_append]
    omega

/-- Settles O48: a fresh machine with threshold 0 has the records of one event left. -/
theorem zeroThresholdTriggersOnce : Obligations.ZeroThresholdTriggersOnce := by
  intro ys s hthr hroom
  refine ⟨_, execAll_triggerJob ys s hroom, ?_⟩
  rw [emitAll_responses, List.length_append, List.length_map]
  exact Nat.add_le_add_left (triggerRun_length_le s.settings.sgn0 ys (td := freshTrigger s.p) hthr) _

end Sys2Proof.Machine
end

section
/-! The error action is precise (R242, R251): an instruction other than RESET takes it under its own opcode byte and changes
nothing else, or it leaves ERRLOG as it was and emits reports of its unit, none of them an ERR record. -/

namespace Sys2Proof.Machine

/-- Whether a record is an ERR record (R66). -/
def Response.isErr : Response → Bool
  | .err _ _ => true
  | _ => false

/-- The tag 0x0F is that of the ERR record alone (R66). -/
theorem tag_eq_err_iff (r : Response) : r.tag = 0x0F#8 ↔ r.isErr = true := by
  cases r <;> simp [Response.tag, Response.isErr]

theorem record_tag (r : Response) : r.record.extractLsb' 64 8 = r.tag := BitVec.extractLsb'_append_eq_left

/-- From `s` to `t` ERRLOG is kept and no ERR record emitted (R66). -/
structure Reports (s t : State) : Prop where
  errlog : t.errlog = s.errlog
  records : ∃ rs : List Record, t.responses = s.responses ++ rs ∧ ∀ r ∈ rs, r.extractLsb' 64 8 ≠ 0x0F#8

/-- What an instruction with opcode byte `opc` may answer in state `s`: the error action of one of the four errors an instruction
can raise (R242), or reports. -/
def PreciseEffect (opc : Option OpcodeByte) (s : State) (r : Result) : Prop :=
  ∀ t, r = .next t → (∃ o e, opc = some o ∧ e ≠ ErrCode.illegalOpcode ∧ t = raise o e s) ∨ Reports s t

/-! ### Reports -/

section
variable {s t u : State}

theorem reports_silent (hlog : t.errlog = s.errlog) (hresp : t.responses = s.responses) : Reports s t :=
  ⟨hlog, [], by rw [hresp, List.append_nil], nofun⟩

theorem Reports.trans (h : Reports s t) (h' : Reports t u) : Reports s u := by
  obtain ⟨hlog, rs, hrs, htags⟩ := h
  obtain ⟨hlog', rs', hrs', htags'⟩ := h'
  refine ⟨hlog'.trans hlog, rs ++ rs', by rw [hrs', hrs, List.append_assoc], fun r hr => ?_⟩
  rcases List.mem_append.mp hr with hr | hr
  · exact htags r hr
  · exact htags' r hr

/-- Emitting records that are no ERR records is a report (R51). -/
theorem Reports.emitAll {rs : List Response} (h : Reports s t) (hrs : rs.any Response.isErr = false) :
    Reports s (emitAll rs t) := by
  refine h.trans ⟨rfl, _, rfl, fun r hr => ?_⟩
  obtain ⟨response, hresponse, rfl⟩ := List.mem_map.mp hr
  rw [record_tag, Ne, tag_eq_err_iff]
  exact List.any_eq_false.mp hrs response hresponse

theorem reports_append (bits : Bits) : Reports s (append bits s) :=
  Reports.emitAll (reports_silent rfl rfl) (by rw [List.any_map]; exact List.any_eq_false.mpr fun _ _ => nofun)

theorem reports_emitExtraction (r : Option (Num64 × Rat)) : Reports s (emitExtraction r s) := by
  cases r with
  | none | some => exact Reports.emitAll (reports_silent rfl rfl) rfl

theorem reports_triggerRecords (sgn0 y : Int) (td : Td) (h : Reports s t) :
    Reports s (Machine.emitAll (trigger sgn0 y td).2 t) := by
  rcases Nat.lt_or_ge td.idx td.off with hoff | hoff
  · rw [trigger_of_lt_off _ _ _ hoff]
    exact h.emitAll rfl
  · rw [trigger_of_off_le _ _ _ hoff, evaluate_records]
    split <;> exact h.emitAll rfl

theorem Reports.emitSample (v : Int) (h : Reports s t) : Reports s (emitSample v t) := by
  unfold Machine.emitSample
  split
  · exact h.emitAll rfl
  · exact h.trans (Reports.emitAll (reports_silent rfl rfl) rfl)

theorem Reports.closeIfDone (h : Reports s t) : Reports s (closeIfDone t) := by
  obtain ⟨rd, hframe⟩ := closeIfDone_frame t
  rw [hframe]
  exact h.trans (reports_silent rfl rfl)

theorem Reports.takeCodeword (cw : Codeword) (h : Reports s t) : Reports s (takeCodeword cw t) := by
  rcases takeCodeword_cases cw t with ⟨-, htake⟩ | ⟨-, _, rfl, htake⟩ <;> rw [htake]
  · exact h
  · exact Reports.closeIfDone (Reports.emitSample _ (h.trans (reports_silent rfl rfl)))

theorem Reports.drainUpTo (n : Nat) (h : Reports s t) : Reports s (drainUpTo n t) := by
  induction n generalizing t with
  | zero => exact h.closeIfDone
  | succ n ih =>
    rw [Machine.drainUpTo]
    split
    · exact h.closeIfDone
    · split
      · exact h
      · exact ih (h.takeCodeword _)

end

/-! ### Answers -/

section
variable {opc : Option OpcodeByte} {s t : State}

theorem preciseEffect_raise {o : OpcodeByte} {e : ErrCode} (he : e ≠ .illegalOpcode) :
    PreciseEffect (some o) s (.next (raise o e s)) := by
  rintro _ ⟨⟩
  exact .inl ⟨o, e, rfl, he, rfl⟩

theorem preciseEffect_next (h : Reports s t) : PreciseEffect opc s (.next t) := by
  rintro _ ⟨⟩
  exact .inr h

theorem preciseEffect_silent (hlog : t.errlog = s.errlog) (hresp : t.responses = s.responses) :
    PreciseEffect opc s (.next t) := preciseEffect_next (reports_silent hlog hresp)

theorem preciseEffect_ite {c : Prop} [Decidable c] {r r' : Result} (h : PreciseEffect opc s r)
    (h' : PreciseEffect opc s r') : PreciseEffect opc s (if c then r else r') := by
  split
  · exact h
  · exact h'

theorem preciseEffect_runKernel (o : OpcodeByte) (minLen : Nat) (weight : Nat → Rat) :
    PreciseEffect (some o) s (runKernel o minLen weight s) := by
  refine preciseEffect_ite (preciseEffect_raise nofun) (preciseEffect_next (Reports.emitAll (reports_silent rfl rfl) ?_))
  rw [kernelRecords, List.any_map]
  exact List.any_eq_false.mpr fun _ _ => nofun

theorem preciseEffect_runExtract (o : OpcodeByte) (v : Variant) : PreciseEffect (some o) s (runExtract o v s) := by
  rcases runExtract_cases o v s with ⟨-, hrun⟩ | ⟨-, -, ⟨-, hrun⟩ | ⟨cells, -, hrun⟩⟩ <;> rw [hrun]
  · exact preciseEffect_raise nofun
  · rintro t ⟨⟩
  · exact preciseEffect_next (reports_emitExtraction _)

theorem preciseEffect_reStart : PreciseEffect (some 0x40#8) s (execReStart s) := by
  unfold execReStart
  split
  · exact preciseEffect_raise nofun
  · exact preciseEffect_silent rfl rfl

theorem preciseEffect_reFlush : PreciseEffect (some 0x42#8) s (execReFlush s) := by
  refine preciseEffect_ite (preciseEffect_next (Reports.emitAll (reports_silent rfl rfl) ?_)) (preciseEffect_raise nofun)
  split <;> rfl

theorem preciseEffect_rdStart : PreciseEffect (some 0x50#8) s (execRdStart s) := by
  unfold execRdStart
  split
  · exact preciseEffect_raise nofun
  · exact preciseEffect_silent rfl rfl

theorem preciseEffect_rdWord (w : BitVec 32) : PreciseEffect (some 0x51#8) s (execRdWord w s) :=
  preciseEffect_ite (preciseEffect_next (Reports.drainUpTo _ (reports_silent rfl rfl)))
    (preciseEffect_raise nofun)

end

/-- Every instruction but RESET is refused under its own opcode byte, or reports (R242). -/
theorem exec_preciseEffect (i : Instr) (s : State) (hi : i ≠ .reset) : PreciseEffect i.opcode s (exec i s) := by
  cases i with
  | reset => exact absurd rfl hi
  | nop => exact preciseEffect_silent rfl rfl
  | stat => exact preciseEffect_next (Reports.emitAll (reports_silent rfl rfl) rfl)
  | setpRise | setpTop | setpLen | setpM | setpCount | setpScale | setpThr | setpShift | setpMean =>
    exact preciseEffect_silent rfl rfl
  | setpTau | setpPct => exact preciseEffect_ite (preciseEffect_silent rfl rfl) (preciseEffect_raise nofun)
  | ckStart | txClear | tdStart => exact preciseEffect_silent rfl rfl
  | ckPush => exact preciseEffect_ite (preciseEffect_silent rfl rfl) (preciseEffect_raise nofun)
  | ckFin =>
    exact preciseEffect_ite (preciseEffect_next (Reports.emitAll (reports_silent rfl rfl) rfl)) (preciseEffect_raise nofun)
  | kgTrap1 | kgTrap2 => exact preciseEffect_runKernel _ _ _
  | reStart => exact preciseEffect_reStart
  | rePush => exact preciseEffect_ite (preciseEffect_next (reports_append _)) (preciseEffect_raise nofun)
  | reFlush => exact preciseEffect_reFlush
  | rdStart => exact preciseEffect_rdStart
  | rdWord w => exact preciseEffect_rdWord w
  | txLoad =>
    exact preciseEffect_ite (preciseEffect_ite (preciseEffect_raise nofun) (preciseEffect_silent rfl rfl))
      (preciseEffect_raise nofun)
  | txRun1 | txRun2 => exact preciseEffect_runExtract _ _
  | tfStart => exact preciseEffect_ite (preciseEffect_raise nofun) (preciseEffect_silent rfl rfl)
  | tfPush =>
    exact preciseEffect_ite
      (preciseEffect_ite
        (preciseEffect_ite (preciseEffect_next (Reports.emitAll (reports_silent rfl rfl) rfl)) (preciseEffect_raise nofun))
        (preciseEffect_silent rfl rfl))
      (preciseEffect_raise nofun)
  | tdPush =>
    exact preciseEffect_ite
      (preciseEffect_ite (preciseEffect_raise nofun)
        (preciseEffect_next (reports_triggerRecords _ _ _ (reports_silent rfl rfl))))
      (preciseEffect_raise nofun)
  | cwQ0 | cwQ1 | cwQ2 | cwQ3 | cwQ4 | cwQ5 | cwQ6 | cwQ7 | cwEsc | cwQN =>
    exact preciseEffect_next (Reports.takeCodeword _ (reports_silent rfl rfl))

/-- The codes of the errors an instruction can raise; IllegalOpcode is the decoder's (R241, R244). -/
theorem code_mem_of_ne_illegalOpcode {e : ErrCode} (h : e ≠ .illegalOpcode) : e.code ∈ [1, 2, 4, 5] := by
  cases e with
  | illegalOpcode => exact absurd rfl h
  | config | seq | operand | range => decide

/-- Settles O50: the error action of the model is the spec's. -/
theorem refusedCommandsChangeNothingElse : Obligations.RefusedCommandsChangeNothingElse := by
  intro i s t hexec hi
  rcases exec_preciseEffect i s hi t hexec with ⟨opc, e, hopc, he, rfl⟩ | ⟨hlog, hrecords⟩
  · exact .inl ⟨opc, e.code, hopc, code_mem_of_ne_illegalOpcode he, raise_eq_refuse opc e s⟩
  · exact .inr ⟨hlog, hrecords⟩

end Sys2Proof.Machine
end
